-- ==== Sys2Proof/Word.lean ====
section
/-! DEFINITION. The word types of the block: bytes of IN and OUT, HTAB entries, and the bit fields the
spec gives a width (00_scope R5, R6; 10_state R14 to R23). Counts, lengths and cursors are mathematical
integers (R6) and are Nat or Int, not words. -/

namespace Sys2Proof

/-- An element of IN, OUT or a frame: `BYTE_W` = 8 bits (00_scope R5). -/
abbrev Byte := BitVec 8

/-- A hash-table entry, `HENTRY_W` = 32 bits, and the width of the length fields of the command record
(00_scope R5, 10_state R22). -/
abbrev Word32 := BitVec 32

/-- The stored back-distance field `off` = distance - 1, 13 bits (30_encoding R55). -/
abbrev Off := BitVec 13

/-- A hash slot index, `HLOG` = 14 bits (00_scope R5). -/
abbrev Slot := BitVec 14

/-- The three-byte fingerprint `hval`, 24 bits (10_state R17). -/
abbrev Fingerprint := BitVec 24

end Sys2Proof
end

