-- ==== Sys2Proof/Config.lean ====
section
/-! DEFINITION. What is fixed for the block (00_scope R5) and the free values the spec leaves open. A
free value is an opaque constant without a body: no proof can learn what it is. It depends on its event
number and index only, so two States agree on the free values of one event number, where the spec leaves
each block its own (42_commands R128): DESIGN CHOICE, notes/assumptions/28.md; unsafe for a claim that
compares two States. -/

namespace Sys2Proof.Config

/-- `HSIZE`, the number of hash-table entries (00_scope R5). -/
def hsize : Nat := 16384

/-- `MAX_OFF`: a match is valid only if `off < MAX_OFF` (00_scope R5). -/
def maxOff : Nat := 8192

/-- `MAX_REF`, the largest match length (00_scope R5). -/
def maxRef : Nat := 264

/-- `MAX_LIT`, the largest literal run of one record (00_scope R5). -/
def maxLit : Nat := 32

/-- `MIN_REF`, the smallest match length (00_scope R5). -/
def minRef : Nat := 3

/-- `N_MAX`, the largest length a command may carry; the 32-bit length fields cannot hold more
(00_scope R5, 42_commands R123). -/
def nMax : Nat := 4294967295

/-- FREE VALUE. The byte that an index of IN or OUT holds where the spec says it may hold any value:
argument 1 is the event that made it unspecified (each event has its own number, State.freeCount),
argument 2 the index (10_state R12, 60_exceptions R137, 93_implementation_defined U1, U2, U5).
DESIGN CHOICE, notes/assumptions/6.md and 7.md; safe. -/
opaque freeByte : Nat → Nat → Byte

/-- FREE VALUE. The entry a slot of HTAB holds where the spec says it may hold any value: argument 1 is
the reset that left it so, argument 2 the slot (10_state R29, 70_reset R150, U4, U5).
DESIGN CHOICE, notes/assumptions/5.md; safe for one State. Two blocks whose resets have one number hold
equal entries: notes/assumptions/28.md; unsafe. -/
opaque freeEntry : Nat → Nat → Word32

/-- FREE VALUE. What `hval` holds where the spec calls it undefined (10_state R17).
DESIGN CHOICE, notes/assumptions/18.md; safe. -/
opaque freeHval : Nat → Fingerprint

end Sys2Proof.Config
end

