-- ==== Sys2Proof/Syntax.lean ====
section
/-! DEFINITION. The instruction set: the records of a frame, which DECODE executes, and the two host
commands (spec/opcode_table.json; 30_encoding R50 to R62; 42_commands R120, R121). -/

namespace Sys2Proof

/-- The command record, four fields of the widths 10_state R22 gives them. `op`: 0 ENCODE, 1 DECODE.
Every bit pattern is a command (93_implementation_defined U14). -/
structure CommandRecord where
  op : BitVec 1
  nIn : Word32
  nOut : Word32
  clearHtab : BitVec 1
  deriving DecidableEq, Repr

/-- One constructor per row of spec/opcode_table.json. -/
inductive Instr where
  /-- LIT: the literal bytes that follow the control byte, 1 to 32 of them (30_encoding R52). -/
  | lit (literals : List Byte)
  /-- REF3: a match of length 3, `off` = distance - 1 (30_encoding R53, R55). -/
  | ref3 (off : Off)
  /-- REF4: a match of length 4. -/
  | ref4 (off : Off)
  /-- REF5: a match of length 5. -/
  | ref5 (off : Off)
  /-- REF6: a match of length 6. -/
  | ref6 (off : Off)
  /-- REF7: a match of length 7. -/
  | ref7 (off : Off)
  /-- REF8: a match of length 8. -/
  | ref8 (off : Off)
  /-- REFX: a match of length `ext + 9` (30_encoding R54, R56). -/
  | refx (off : Off) (ext : Byte)
  /-- ENCODE: the command with op = 0 (42_commands R120). -/
  | encode (nIn nOut : Word32) (clearHtab : BitVec 1)
  /-- DECODE: the command with op = 1; `clearHtab` is carried and ignored (42_commands R121). -/
  | decode (nIn nOut : Word32) (clearHtab : BitVec 1)
  deriving DecidableEq, Repr

/-- Whether the instruction is a record of a frame (30_encoding R50), not a host command. -/
def Instr.isRecord : Instr → Bool
  | .lit _ => true
  | .ref3 _ => true
  | .ref4 _ => true
  | .ref5 _ => true
  | .ref6 _ => true
  | .ref7 _ => true
  | .ref8 _ => true
  | .refx _ _ => true
  | .encode _ _ _ => false
  | .decode _ _ _ => false

end Sys2Proof
end

