-- ==== Sys2Proof/Machine/State.lean ====
section
/-! DEFINITION. The state of the block as plain data (10_state R10 is its list), the reasons a step can
stop, and the state after reset. -/

namespace Sys2Proof.Machine

/-- Why a step can stop with a fault. Both come from 00_scope R7: an access outside the index range of a
region never happens under the rules, and a model that reaches one treats it as a fault, not as a value.
They are raised only from states no run reaches (20_memory R39); safe. -/
inductive Fault where
  /-- An access to IN at an index that is not below `n_in`. Raised by the checked read of IN; safe. -/
  | inputIndexOutside
  /-- An access to OUT at an index below 0 or not below `n_out`. Raised by the checked read and write of
  OUT and by withdrawing a control slot that would lie below index 0; safe. -/
  | outputIndexOutside
  deriving DecidableEq, Repr

/-- Why a step, or a move of the host, has no meaning. -/
inductive Refusal where
  /-- An instruction without a meaning, by its mnemonic. No arm of this model raises it; safe. -/
  | notModelled (mnemonic : String)
  /-- A command whose IN and OUT share a byte: no specified result, "a model refuses it" (20_memory R32,
  93_implementation_defined U6). Raised by accepting ENCODE or DECODE; safe. -/
  | regionsOverlap
  /-- A command with `n_in` or `n_out` beyond the region really lent: no specified result
  (70_reset R156, U8). Raised by accepting ENCODE or DECODE; safe. -/
  | lengthBeyondRegion
  /-- The host touches a region while a command runs: no specified result, the host has no such move
  (70_reset R155, U7). Raised by the host moves, never by `step`; safe. -/
  | hostTouchedRegion
  deriving DecidableEq, Repr

/-- The indices `lo .. hi-1` of a region became unspecified in event number `epoch`. -/
structure Mark where
  lo : Nat
  hi : Nat
  epoch : Nat
  deriving DecidableEq, Repr

/-- A byte region. `cells` lists the bytes written or placed, addresses strictly rising. An unlisted
index holds a free byte of the newest mark that covers it, or of event `base` where none does. -/
structure Memory where
  base : Nat
  marks : List Mark
  cells : List Host.Cell
  deriving DecidableEq, Repr

/-- What an unlisted slot of HTAB holds: 0 after a clearing (40_encoder R72), a free value after reset
number `epoch` (10_state R29). -/
inductive TableBase where
  | zero
  | free (epoch : Nat)
  deriving DecidableEq, Repr

/-- HTAB: 16384 entries of 32 bits (10_state R13). `cells` lists slots strictly rising. -/
structure HashTable where
  base : TableBase
  cells : List (Nat × Word32)
  deriving DecidableEq, Repr

/-- The encoder cursor registers (10_state R14 to R17) and temporaries (R18). Indices, counts and
lengths are mathematical integers (00_scope R6). -/
structure EncoderRegs where
  inputIndex : Nat
  outputIndex : Nat
  lit : Nat
  hval : Fingerprint
  slot : Slot
  ref : Word32
  valid : Bool
  off : Off
  maxlen : Nat
  length : Nat
  /-- The temporary the spec calls `L`. -/
  lenField : Nat
  p : Nat
  deriving DecidableEq, Repr

/-- The decoder cursor registers (10_state R19, R20) and temporaries (R21). `ref` is signed. -/
structure DecoderRegs where
  inputIndex : Nat
  outputIndex : Nat
  ctrl : Byte
  count : Nat
  length : Nat
  ext : Byte
  offLo : Byte
  ref : Int
  total : Nat
  deriving DecidableEq, Repr

/-- The `status` field of the response (10_state R23, 60_exceptions R130). -/
inductive Status where
  | ok
  | insufficientBuffer
  | dataCorruption
  /-- Reserved, never produced (60_exceptions R133). -/
  | unknown
  deriving DecidableEq, Repr

/-- The response record (10_state R23). -/
structure Response where
  status : Status
  written : Word32
  deriving DecidableEq, Repr

/-- The phase register (10_state R24). -/
inductive Phase where
  | idle
  | encoding
  | decoding
  deriving DecidableEq, Repr

/-- Where a lent region lies among the host's locations and how many bytes it really has. The block
never sees it (20_memory R31); the model uses it only to refuse commands that are not legal
(42_commands R123). DESIGN CHOICE, notes/assumptions/9.md; safe. It stays from one command to the next:
DESIGN CHOICE, notes/assumptions/29.md; unsafe where lent extents share a location. -/
structure Region where
  base : Nat
  extent : Nat
  deriving DecidableEq, Repr

/-- The whole machine (10_state R10), with the model's own fields last. -/
structure State where
  /-- IN (R11). -/
  input : Memory
  /-- OUT (R12). -/
  output : Memory
  /-- HTAB (R13). -/
  htab : HashTable
  /-- Encoder registers (R14 to R18). -/
  enc : EncoderRegs
  /-- Decoder registers (R19 to R21). -/
  dec : DecoderRegs
  /-- The latched command record (R22). -/
  command : CommandRecord
  /-- The response record (R23). -/
  response : Response
  /-- The phase (R24). -/
  phase : Phase
  /-- The command record the host presents, until it is accepted (42_commands R122).
  DESIGN CHOICE, notes/assumptions/10.md; safe. -/
  presented : Option CommandRecord
  /-- Placement of IN on the host's side. -/
  inRegion : Region
  /-- Placement of OUT on the host's side. -/
  outRegion : Region
  /-- The number of the next free value. DESIGN CHOICE, notes/assumptions/21.md; safe. -/
  freeCount : Nat
  deriving DecidableEq, Repr

/-- The encoder registers right after reset: unspecified in the spec (10_state R29), zero here.
DESIGN CHOICE, notes/assumptions/3.md; unsafe. -/
def EncoderRegs.reset : EncoderRegs where
  inputIndex := 0
  outputIndex := 0
  lit := 0
  hval := 0#24
  slot := 0#14
  ref := 0#32
  valid := false
  off := 0#13
  maxlen := 0
  length := 0
  lenField := 0
  p := 0

/-- The decoder registers right after reset: unspecified in the spec (10_state R29), zero here.
DESIGN CHOICE, notes/assumptions/3.md; unsafe. -/
def DecoderRegs.reset : DecoderRegs where
  inputIndex := 0
  outputIndex := 0
  ctrl := 0#8
  count := 0
  length := 0
  ext := 0#8
  offLo := 0#8
  ref := 0
  total := 0

/-- The machine right after reset (10_state R29, 70_reset R150): IDLE, response (0, 0), every HTAB entry
a free value, nothing pending. The latched command record is unspecified there and zero here (DESIGN
CHOICE, notes/assumptions/4.md; unsafe); no region is lent yet. All States from here number their free
values alike, so two blocks fresh from reset hold equal HTAB entries, which 42_commands R128 and R29 do
not say (DESIGN CHOICE, notes/assumptions/28.md; unsafe). -/
def State.reset : State where
  input := { base := 0, marks := [], cells := [] }
  output := { base := 1, marks := [], cells := [] }
  htab := { base := .free 2, cells := [] }
  enc := EncoderRegs.reset
  dec := DecoderRegs.reset
  command := { op := 0#1, nIn := 0#32, nOut := 0#32, clearHtab := 0#1 }
  response := { status := .ok, written := 0#32 }
  phase := .idle
  presented := none
  inRegion := { base := 0, extent := 0 }
  outRegion := { base := 0, extent := 0 }
  freeCount := 3

end Sys2Proof.Machine
end

