-- ==== Sys2Proof/Machine/Memory.lean ====
section
/-! DEFINITION. Sparse memories in one canonical form: the byte regions IN and OUT and the hash table
HTAB (20_memory R30, R35, R36), and the named updates of State that every operation goes through. -/

namespace Sys2Proof.Machine

/-! ### Lists of (key, value) with strictly rising keys -/

/-- The value listed at key `a`. -/
def lookupCell {α : Type} (a : Nat) : List (Nat × α) → Option α
  | [] => none
  | (b, v) :: t => if a = b then some v else lookupCell a t

/-- List `v` at key `a`, in its place. -/
def insertCell {α : Type} (a : Nat) (v : α) : List (Nat × α) → List (Nat × α)
  | [] => [(a, v)]
  | (b, w) :: t =>
    if a < b then (a, v) :: (b, w) :: t
    else if a = b then (a, v) :: t
    else (b, w) :: insertCell a v t

/-- Keep the cells whose key passes the test. -/
def keepCells {α : Type} (keep : Nat → Bool) (cells : List (Nat × α)) : List (Nat × α) :=
  cells.filter fun c => keep c.1

/-- The canonical form of a cell list: keys strictly rising. -/
abbrev Rising {α : Type} (cells : List (Nat × α)) : Prop := cells.Pairwise fun c d => c.1 < d.1

/-! ### Byte regions -/

/-- Does the mark cover index `a`? -/
def Mark.covers (k : Mark) (a : Nat) : Bool := decide (k.lo ≤ a) && decide (a < k.hi)

/-- The event that left index `a` unspecified, for an unlisted index. -/
def Memory.epochAt (m : Memory) (a : Nat) : Nat :=
  match m.marks.find? fun k => k.covers a with
  | some k => k.epoch
  | none => m.base

/-- What an unlisted index reads as: a free byte. DESIGN CHOICE, notes/assumptions/7.md; safe. -/
def Memory.unlisted (m : Memory) (a : Nat) : Byte := Config.freeByte (m.epochAt a) a

/-- The byte at index `a`. Reading changes nothing (20_memory R36). -/
def Memory.read (m : Memory) (a : Nat) : Byte :=
  match lookupCell a m.cells with
  | some v => v
  | none => m.unlisted a

/-- Write one byte; no other index changes (20_memory R36). -/
def Memory.write (m : Memory) (a : Nat) (v : Byte) : Memory :=
  { m with cells := insertCell a v m.cells }

/-- The indices `lo .. hi-1` become unspecified: each a free byte of event `epoch`. Every other index
keeps its byte (93_implementation_defined U1, U2). -/
def Memory.forget (m : Memory) (lo hi epoch : Nat) : Memory :=
  if lo < hi then
    { m with
      marks := { lo := lo, hi := hi, epoch := epoch } :: m.marks
      cells := keepCells (fun a => decide (a < lo) || decide (hi ≤ a)) m.cells }
  else m

/-- Cells for consecutive bytes from index `a`. -/
def cellsFrom (a : Nat) : List Byte → List Host.Cell
  | [] => []
  | v :: vs => (a, v) :: cellsFrom (a + 1) vs

/-- A region that holds these bytes from index 0. -/
def Memory.ofBytes (base : Nat) (bytes : List Byte) : Memory :=
  { base := base, marks := [], cells := cellsFrom 0 bytes }

/-- The bytes at `a .. a+n-1`, as a list. -/
def Memory.slice (m : Memory) (a n : Nat) : List Byte := (List.range n).map fun k => m.read (a + k)

/-- The canonical form of a region: cells strictly rising, no empty mark. -/
abbrev Memory.wf (m : Memory) : Prop := Rising m.cells ∧ ∀ k ∈ m.marks, k.lo < k.hi

/-! ### The hash table -/

/-- What an unlisted slot reads as. -/
def HashTable.unlisted (t : HashTable) (s : Nat) : Word32 :=
  match t.base with
  | .zero => 0#32
  | .free e => Config.freeEntry e s

/-- Is `v` known to be what an unlisted slot reads as? A free value is never known. -/
def HashTable.isUnlisted (t : HashTable) (v : Word32) : Bool :=
  match t.base with
  | .zero => v == 0#32
  | .free _ => false

/-- `HTAB[s]` (00_scope R7). -/
def HashTable.read (t : HashTable) (s : Slot) : Word32 :=
  match lookupCell s.toNat t.cells with
  | some v => v
  | none => t.unlisted s.toNat

/-- `HTAB[s] <- v` (00_scope R7), in canonical form: writing what an unlisted slot reads as removes the
entry. -/
def HashTable.write (t : HashTable) (s : Slot) (v : Word32) : HashTable :=
  if t.isUnlisted v then { t with cells := keepCells (fun a => decide (a ≠ s.toNat)) t.cells }
  else { t with cells := insertCell s.toNat v t.cells }

/-- All 16384 entries 0 (40_encoder R72). -/
def HashTable.cleared : HashTable := { base := .zero, cells := [] }

/-- All 16384 entries unspecified by reset number `epoch` (10_state R29, 70_reset R151). -/
def HashTable.unspecified (epoch : Nat) : HashTable := { base := .free epoch, cells := [] }

/-- The canonical form of the table: slots strictly rising and in range, no entry known to be what an
unlisted slot reads as. -/
abbrev HashTable.wf (t : HashTable) : Prop :=
  Rising t.cells ∧ ∀ c ∈ t.cells, c.1 < Config.hsize ∧ t.isUnlisted c.2 = false

/-! ### Named updates of State -/

/-- Replace OUT. -/
def State.withOutput (s : State) (m : Memory) : State := { s with output := m }

/-- Replace HTAB. -/
def State.withHtab (s : State) (t : HashTable) : State := { s with htab := t }

/-- Replace the encoder registers. -/
def State.withEnc (s : State) (e : EncoderRegs) : State := { s with enc := e }

/-- Replace the decoder registers. -/
def State.withDec (s : State) (d : DecoderRegs) : State := { s with dec := d }

/-- The free value now used is used up. -/
def State.nextFree (s : State) : State := { s with freeCount := s.freeCount + 1 }

/-- The latched `n_in` (10_state R22). -/
def State.nIn (s : State) : Nat := s.command.nIn.toNat

/-- The latched `n_out` (10_state R22). -/
def State.nOut (s : State) : Nat := s.command.nOut.toNat

end Sys2Proof.Machine
end

