-- ==== Sys2Proof/Machine/Flags.lean ====
section
/-! DEFINITION. The block has no condition codes and no sticky bits; the only outcome indicator is the
`status` field of the response (10_state R29). This file gives its codes. -/

namespace Sys2Proof.Machine

/-- The 2-bit code of a status (10_state R23, 60_exceptions R130). -/
def Status.code : Status → BitVec 2
  | .ok => 0#2
  | .insufficientBuffer => 1#2
  | .dataCorruption => 2#2
  | .unknown => 3#2

/-- The status a code names; every code has one (60_exceptions R130). -/
def Status.ofCode (c : BitVec 2) : Status :=
  if c = 0#2 then .ok
  else if c = 1#2 then .insufficientBuffer
  else if c = 2#2 then .dataCorruption
  else .unknown

end Sys2Proof.Machine
end

