-- ==== Sys2Proof/WellFormed.lean ====
section
/-! DEFINITION. Which terms of Instr stand for words of the spec. The bit-vector operands carry their
ranges; the one check left is the number of literals of a LIT. -/

namespace Sys2Proof

/-- LIT: `1 ≤ count ≤ 32` (30_encoding R52). Every other operand is exactly as wide as its field, and
every command record is legal as a record (93_implementation_defined U14). -/
def Instr.wellFormed : Instr → Bool
  | .lit literals => decide (1 ≤ literals.length) && decide (literals.length ≤ Config.maxLit)
  | .ref3 _ => true
  | .ref4 _ => true
  | .ref5 _ => true
  | .ref6 _ => true
  | .ref7 _ => true
  | .ref8 _ => true
  | .refx _ _ => true
  | .encode _ _ _ => true
  | .decode _ _ _ => true

end Sys2Proof
end

