-- ==== Sys2Proof/Decode.lean ====
section
/-! DEFINITION. Reading a record from the bytes of a frame and a command from a command record, and the
encoder written from the same tables (30_encoding R51 to R58, 10_state R22). -/

namespace Sys2Proof

/-! ### Fields of a record (30_encoding R51 to R55) -/

/-- `c[7:5]`, the class of a control byte and `len_hi` of a back-reference (R51). -/
def ctrlClass (c : Byte) : BitVec 3 := c.extractLsb' 5 3

/-- `c[4:0]`: `count - 1` of a LIT, `off_hi` of a back-reference (R51). -/
def ctrlLow (c : Byte) : BitVec 5 := c.extractLsb' 0 5

/-- The control byte with the class `hi` and the low field `low`. -/
def ctrlByte (hi : BitVec 3) (low : BitVec 5) : Byte := hi ++ low

/-- `off = (off_hi << 8) | off_lo` (R55). -/
def joinOff (hi : BitVec 5) (lo : Byte) : Off := hi ++ lo

/-- `off_hi`, bits 12:8 of `off` (R55). -/
def offHi (off : Off) : BitVec 5 := off.extractLsb' 8 5

/-- `off_lo`, bits 7:0 of `off` (R55). -/
def offLo (off : Off) : Byte := off.extractLsb' 0 8

/-- `count` of a LIT with this control byte (R52, R56). -/
def litCount (c : Byte) : Nat := (ctrlLow c).toNat + 1

/-- The short back-reference with this `len_hi`, 1 to 6 (R53). -/
def shortRef (lenHi : BitVec 3) (off : Off) : Instr :=
  if lenHi = 1#3 then .ref3 off
  else if lenHi = 2#3 then .ref4 off
  else if lenHi = 3#3 then .ref5 off
  else if lenHi = 4#3 then .ref6 off
  else if lenHi = 5#3 then .ref7 off
  else .ref8 off

/-! ### The record decoder -/

/-- Why the bytes at hand are no whole record. No control byte is illegal (R58); what can be missing is
what follows it (R59). -/
inductive Reject where
  /-- There is no byte at all. -/
  | noControlByte
  /-- A LIT with fewer bytes behind it than `count` (R59 a). -/
  | literalsMissing (ctrl : Byte)
  /-- A REF whose control byte is the last byte (R59 b). -/
  | offsetMissing (ctrl : Byte)
  /-- A REFX whose control byte is the last byte (R59 b). -/
  | extensionMissing (ctrl : Byte)
  /-- A REFX whose extension byte is the last byte (R59 c). -/
  | longOffsetMissing (ctrl ext : Byte)
  deriving DecidableEq, Repr

/-- The first record of a byte sequence and the bytes after it (R51 to R57). Total: a sequence with no
whole record at its start is rejected by name. -/
def decodeRecord : List Byte → Except Reject (Instr × List Byte)
  | [] => .error .noControlByte
  | c :: rest =>
    if ctrlClass c = 0#3 then
      if rest.length < litCount c then .error (.literalsMissing c)
      else .ok (.lit (rest.take (litCount c)), rest.drop (litCount c))
    else if ctrlClass c = 7#3 then
      match rest with
      | [] => .error (.extensionMissing c)
      | [ext] => .error (.longOffsetMissing c ext)
      | ext :: lo :: rest' => .ok (.refx (joinOff (ctrlLow c) lo) ext, rest')
    else
      match rest with
      | [] => .error (.offsetMissing c)
      | lo :: rest' => .ok (shortRef (ctrlClass c) (joinOff (ctrlLow c) lo), rest')

/-- The command a command record stands for (10_state R22). -/
def decodeCommand (r : CommandRecord) : Instr :=
  if r.op = 0#1 then .encode r.nIn r.nOut r.clearHtab else .decode r.nIn r.nOut r.clearHtab

/-- What an instruction's words are: bytes of a frame, or a command record. -/
inductive Encoded where
  | frame (bytes : List Byte)
  | command (record : CommandRecord)
  deriving DecidableEq, Repr

/-- The decoder over both kinds of words: the instruction and the frame bytes behind it. -/
def decode : Encoded → Except Reject (Instr × List Byte)
  | .frame bytes => decodeRecord bytes
  | .command record => .ok (decodeCommand record, [])

/-! ### The encoder, from the same tables -/

/-- The control byte of a record (R52 to R54); a command has none and gets 0. -/
def Instr.control : Instr → Byte
  | .lit literals => ctrlByte 0#3 (BitVec.ofNat 5 (literals.length - 1))
  | .ref3 off => ctrlByte 1#3 (offHi off)
  | .ref4 off => ctrlByte 2#3 (offHi off)
  | .ref5 off => ctrlByte 3#3 (offHi off)
  | .ref6 off => ctrlByte 4#3 (offHi off)
  | .ref7 off => ctrlByte 5#3 (offHi off)
  | .ref8 off => ctrlByte 6#3 (offHi off)
  | .refx off _ => ctrlByte 7#3 (offHi off)
  | .encode _ _ _ => 0#8
  | .decode _ _ _ => 0#8

/-- The bytes of a record: the control byte, then the literals, or `off_lo`, or `ext` and `off_lo`
(R52 to R54). A command has no frame bytes. -/
def encodeRecord (i : Instr) : List Byte :=
  match i with
  | .lit literals => i.control :: literals
  | .ref3 off => [i.control, offLo off]
  | .ref4 off => [i.control, offLo off]
  | .ref5 off => [i.control, offLo off]
  | .ref6 off => [i.control, offLo off]
  | .ref7 off => [i.control, offLo off]
  | .ref8 off => [i.control, offLo off]
  | .refx off ext => [i.control, ext, offLo off]
  | .encode _ _ _ => []
  | .decode _ _ _ => []

/-- The words of an instruction (R52 to R54 for records, 10_state R22 for commands). -/
def encode (i : Instr) : Encoded :=
  match i with
  | .lit _ => .frame (encodeRecord i)
  | .ref3 _ => .frame (encodeRecord i)
  | .ref4 _ => .frame (encodeRecord i)
  | .ref5 _ => .frame (encodeRecord i)
  | .ref6 _ => .frame (encodeRecord i)
  | .ref7 _ => .frame (encodeRecord i)
  | .ref8 _ => .frame (encodeRecord i)
  | .refx _ _ => .frame (encodeRecord i)
  | .encode nIn nOut c => .command { op := 0#1, nIn := nIn, nOut := nOut, clearHtab := c }
  | .decode nIn nOut c => .command { op := 1#1, nIn := nIn, nOut := nOut, clearHtab := c }

/-! ### The table's numbering of bits (spec/opcode_table.json) -/

/-- The longest record: a LIT of 32 literals, 33 bytes (R57). -/
def longestRecord : Nat := 33

/-- The first `n` bytes of a word whose bit 0 is bit 0 of the first byte. -/
def bytesOfWord (n w : Nat) : List Byte := (List.range n).map fun k => BitVec.ofNat 8 (w >>> (8 * k))

/-- The four fields of 10_state R22 laid one after the other from bit 0, where the table puts `op`:
`op` bit 0, `n_in` bits 32:1, `n_out` bits 64:33, `clear_htab` bit 65. The record has no bit layout of
its own (92_eei_decisions D2). DESIGN CHOICE, notes/assumptions/14.md; safe. -/
def commandOfWord (w : Nat) : CommandRecord where
  op := BitVec.ofNat 1 w
  nIn := BitVec.ofNat 32 (w >>> 1)
  nOut := BitVec.ofNat 32 (w >>> 33)
  clearHtab := BitVec.ofNat 1 (w >>> 65)

/-- Whether a table word stands for a command record. A word of whole bytes is a frame's, one of another
number of bits is a command record's; the 8-bit word 1 is the DECODE row's own word (match 0x1) and is
no record row's match, so it is read as DECODE. The 8-bit word 0 is the match of both the LIT row and
the ENCODE row and is read as LIT. DESIGN CHOICE, notes/assumptions/14.md; safe. -/
def isCommandWord (nbits w : Nat) : Bool := decide (nbits % 8 ≠ 0) || (nbits == 8 && w % 256 == 1)

/-- The instruction the decoder reads from a word of the opcode table: bits from `nbits` up are 0, the
frame bytes are laid out first byte lowest and padded to the longest record. -/
def decodeTableWord (nbits w : Nat) : Option Instr :=
  if isCommandWord nbits w then some (decodeCommand (commandOfWord (w % 2 ^ nbits)))
  else
    match decodeRecord (bytesOfWord longestRecord (w % 2 ^ nbits)) with
    | .ok (i, _) => some i
    | .error _ => none

end Sys2Proof
end

