-- ==== Sys2Proof/Machine/Operands.lean ====
section
/-! DEFINITION. How operands are assembled: distance and length of a back-reference (30_encoding R55,
R56), the fingerprint and its hash slot (40_encoder R74). -/

namespace Sys2Proof.Machine

/-- `distance = off + 1`, 1 to 8192 (30_encoding R55). -/
def distance (off : Off) : Nat := off.toNat + 1

/-- How many bytes a record produces (30_encoding R56); a command produces none as a record. -/
def produced : Instr → Nat
  | .lit literals => literals.length
  | .ref3 _ => 3
  | .ref4 _ => 4
  | .ref5 _ => 5
  | .ref6 _ => 6
  | .ref7 _ => 7
  | .ref8 _ => 8
  | .refx _ ext => ext.toNat + 9
  | .encode _ _ _ => 0
  | .decode _ _ _ => 0

/-- The back-reference of a match length 3 to 264: REF up to 8, REFX from 9 (30_encoding R56, R61). -/
def backReference (off : Off) (length : Nat) : Instr :=
  if length < 9 then shortRef (BitVec.ofNat 3 (length - 2)) off
  else .refx off (BitVec.ofNat 8 (length - 9))

/-- `hval = (b0 << 16) | (b1 << 8) | b2`: the byte at the lowest index is the most significant
(40_encoder R74, 20_memory R33). -/
def fingerprintOf (b0 b1 b2 : Byte) : Fingerprint := b0 ++ b1 ++ b2

/-- `slot = ((hval >> 10) - 5 * hval) mod 2^14`, on mathematical integers (40_encoder R74). -/
def hashSlot (h : Fingerprint) : Slot :=
  BitVec.ofInt 14 (((h.toNat >>> 10 : Nat) : Int) - 5 * (h.toNat : Int))

end Sys2Proof.Machine
end

