-- ==== Sys2Proof/Machine/Ops.lean ====
section
/-! DEFINITION. The shared operations: checked access to IN and OUT, ending a command (with an error or
a result), accepting one, and the parts that several instructions share. -/

namespace Sys2Proof.Machine

/-! ### A run of sub-steps and how it is cut short -/

/-- What cuts a run of sub-steps short. -/
inductive Halt where
  /-- The command ended, with an error or a result; the state at its end. -/
  | ended (s : State)
  /-- A model fault. -/
  | fault (f : Fault)
  deriving DecidableEq, Repr

/-- Sub-steps of a rule in program order, each on the state the one before left. -/
abbrev Run (α : Type) := Except Halt α

/-- The outcome of the step that the sub-steps make up. -/
def Run.outcome : Run State → Host.Outcome State Fault Refusal
  | .ok s => .next s
  | .error (.ended s) => .next s
  | .error (.fault f) => .fault f

/-! ### Checked accesses (00_scope R7, 20_memory R39) -/

/-- `IN[a]`. -/
def inAt (s : State) (a : Nat) : Run Byte :=
  if a < s.nIn then .ok (s.input.read a) else .error (.fault .inputIndexOutside)

/-- `OUT[a]`, as left by the latest write to it. -/
def outAt (s : State) (a : Int) : Run Byte :=
  if 0 ≤ a ∧ a < (s.nOut : Int) then .ok (s.output.read a.toNat) else .error (.fault .outputIndexOutside)

/-- `OUT[a] <- v`. -/
def putOut (s : State) (a : Int) (v : Byte) : Run State :=
  if 0 ≤ a ∧ a < (s.nOut : Int) then .ok (s.withOutput (s.output.write a.toNat v))
  else .error (.fault .outputIndexOutside)

/-- `OUT[a + k] <- vs[k]` for `k = 0, 1, …`. -/
def putBytes (s : State) (a : Int) : List Byte → Run State
  | [] => .ok s
  | v :: vs => do
    let s ← putOut s a v
    putBytes s (a + 1) vs

/-- The copy engine: `total` one-byte moves in rising order, each read seeing the writes before it
(20_memory R38, 41_decoder R107). -/
def copyForward (s : State) (src dst : Int) : (total : Nat) → Run State
  | 0 => .ok s
  | total + 1 => do
    let v ← outAt s src
    let s ← putOut s dst v
    copyForward s (src + 1) (dst + 1) total

/-! ### The end of a command -/

/-- The end of a command: the response is written, `phase` is IDLE, and the bytes of OUT from `kept` up
to `n_out` are unspecified, hence free (42_commands R122, 10_state R12, 60_exceptions R137). Nothing else
changes (60_exceptions R138). -/
def endCommand (status : Status) (written : Word32) (kept : Nat) (s : State) : State :=
  { s with
    response := { status := status, written := written }
    phase := .idle
    output := s.output.forget kept s.nOut s.freeCount
    freeCount := s.freeCount + 1 }

/-- Error entry (60_exceptions R136, R137): status, `written = 0`, IDLE, all of OUT unspecified. -/
def errorEntry (e : Status) (s : State) : State := endCommand e 0#32 0 s

/-- `return v` (00_scope R7): status OK and `written = v`; OUT from `v` up is unspecified (10_state R12). -/
def returnOk (v : Nat) (s : State) : State := endCommand .ok (BitVec.ofNat 32 v) v s

/-- `raise E`: the command ends at once, none of the later writes is made (60_exceptions R136). -/
def raise {α : Type} (e : Status) (s : State) : Run α := .error (.ended (errorEntry e s))

/-! ### The start of a command -/

/-- Do IN and OUT share a byte (20_memory R32)? -/
def overlap (s : State) (nIn nOut : Nat) : Bool :=
  decide (0 < nIn) && decide (0 < nOut) && decide (s.inRegion.base < s.outRegion.base + nOut)
    && decide (s.outRegion.base < s.inRegion.base + nIn)

/-- Are the lengths those of regions really lent (70_reset R156)? -/
def lengthsTrue (s : State) (nIn nOut : Nat) : Bool :=
  decide (nIn ≤ s.inRegion.extent) && decide (nOut ≤ s.outRegion.extent)

/-- Acceptance (42_commands R122): the record is latched and the phase set. -/
def latch (r : CommandRecord) (phase : Phase) (s : State) : State :=
  { s with command := r, phase := phase, presented := none }

/-- A command is accepted only when IDLE and otherwise has no effect (42_commands R122); one that is not
legal has no specified result and is refused (42_commands R123, U6, U8). -/
def acceptCommand (r : CommandRecord) (phase : Phase) (start : State → Run State) (s : State) :
    Host.Outcome State Fault Refusal :=
  if s.phase ≠ .idle then .next s
  else if lengthsTrue s r.nIn.toNat r.nOut.toNat = false then .refused .lengthBeyondRegion
  else if overlap s r.nIn.toNat r.nOut.toNat then .refused .regionsOverlap
  else (start (latch r phase s)).outcome

/-! ### Parts of a decoder record (41_decoder R102 to R107) -/

/-- R102: `ctrl` is the control byte and the record pointer moves past it. -/
def takeCtrl (ctrl : Byte) (s : State) : State :=
  s.withDec { s.dec with ctrl := ctrl, inputIndex := s.dec.inputIndex + 1 }

/-- The test `output_index + n > n_out` (R104 first, R105 and R106 next to last). -/
def needRoom (n : Nat) (s : State) : Run State :=
  if s.dec.outputIndex + n > s.nOut then raise .insufficientBuffer s else .ok s

/-- The test `input_index + n > n_in` (R104 second; with `n = 1` it is `input_index ≥ n_in` of R105 and
R106). -/
def needInput (n : Nat) (s : State) : Run State :=
  if s.dec.inputIndex + n > s.nIn then raise .dataCorruption s else .ok s

/-- R104: `ctrl`, the pointer past it, `count`. -/
def litBegun (ctrl : Byte) (count : Nat) (s : State) : State :=
  (takeCtrl ctrl s).withDec { (takeCtrl ctrl s).dec with count := count }

/-- R104 up to the copy: `count`, then the room test, then the payload test. -/
def litTests (ctrl : Byte) (count : Nat) (s : State) : Run State := do
  let s ← needRoom count (litBegun ctrl count s)
  needInput count s

/-- R105, R106: `ctrl`, the pointer past it, `length = len_hi`, the partial `ref`. -/
def refBegun (ctrl : Byte) (s : State) : State :=
  (takeCtrl ctrl s).withDec { (takeCtrl ctrl s).dec with
    length := (ctrlClass ctrl).toNat
    ref := (s.dec.outputIndex : Int) - ((ctrlLow ctrl).toNat <<< 8 : Nat) - 1 }

/-- R105 and R106 up to the first test: is a byte left behind the control byte? -/
def refTests (ctrl : Byte) (s : State) : Run State := needInput 1 (refBegun ctrl s)

/-- R106: the extension byte is added to `length`. -/
def extTaken (ext : Byte) (s : State) : State :=
  s.withDec { s.dec with
    ext := ext
    length := s.dec.length + ext.toNat
    inputIndex := s.dec.inputIndex + 1 }

/-- R106: the extension byte, then whether a byte is left for `off_lo`. -/
def takeExt (ext : Byte) (s : State) : Run State := needInput 1 (extTaken ext s)

/-- R105, R106: `off_lo` completes `ref`; `total`. -/
def takeOffLo (lo : Byte) (s : State) : State :=
  s.withDec { s.dec with
    offLo := lo
    ref := s.dec.ref - lo.toNat
    inputIndex := s.dec.inputIndex + 1
    total := s.dec.length + 2 }

/-- The test `ref < 0` (R105, R106 last). -/
def needSource (s : State) : Run State :=
  if s.dec.ref < 0 then raise .dataCorruption s else .ok s

/-- R105, R106 from the room test on: room, source, copy, advance. -/
def copyMatch (s : State) : Run State := do
  let s ← needRoom s.dec.total s
  let s ← needSource s
  let s ← copyForward s s.dec.ref s.dec.outputIndex s.dec.total
  .ok (s.withDec { s.dec with outputIndex := s.dec.outputIndex + s.dec.total })

/-- R105: a short back-reference with this control byte and `off_lo`. -/
def runShortRef (ctrl lo : Byte) (s : State) : Run State := do
  let s ← refTests ctrl s
  copyMatch (takeOffLo lo s)

/-- A record whose bytes run out (30_encoding R59): the rule of its class up to the test that fails. The
last lines are never reached by `fetch`: a read past the frame (00_scope R7). -/
def runTruncated (r : Reject) (s : State) : Run State :=
  match r with
  | .noControlByte => .error (.fault .inputIndexOutside)
  | .literalsMissing c => do
    let _ ← litTests c (litCount c) s
    .error (.fault .inputIndexOutside)
  | .offsetMissing c => do
    let _ ← refTests c s
    .error (.fault .inputIndexOutside)
  | .extensionMissing c => do
    let _ ← refTests c s
    .error (.fault .inputIndexOutside)
  | .longOffsetMissing c ext => do
    let s ← refTests c s
    let _ ← takeExt ext s
    .error (.fault .inputIndexOutside)

end Sys2Proof.Machine
end

