-- ==== Sys2Proof/Machine/Encoder.lean ====
section
/-! DEFINITION. The sub-steps of ENCODE after its start: one iteration of the main loop (40_encoder R74
to R87) and the tail (R88 to R90). -/

namespace Sys2Proof.Machine

/-! ### The match finder -/

/-- The three bytes of IN at `a` as a fingerprint (40_encoder R74). -/
def fingerprintAt (s : State) (a : Nat) : Run Fingerprint := do
  let b0 ← inAt s a
  let b1 ← inAt s (a + 1)
  let b2 ← inAt s (a + 2)
  .ok (fingerprintOf b0 b1 b2)

/-- R74: `hval` and `slot` of the current position. -/
def hashHere (s : State) : Run State := do
  let h ← fingerprintAt s s.enc.inputIndex
  .ok (s.withEnc { s.enc with hval := h, slot := hashSlot h })

/-- R77: `ref` is the old entry, the entry becomes `input_index`; the read comes first (20_memory R42). -/
def lookupSlot (s : State) : State :=
  (s.withEnc { s.enc with ref := s.htab.read s.enc.slot }).withHtab
    (s.htab.write s.enc.slot (BitVec.ofNat 32 s.enc.inputIndex))

/-- `IN[a] = IN[b]`. -/
def agreeAt (s : State) (a b : Nat) : Run Bool := do
  let x ← inAt s a
  let y ← inAt s b
  .ok (x == y)

/-- R78: are the three bytes at `a` and `b` equal? Left to right, stopping at the first difference. -/
def threeAgree (s : State) (a b : Nat) : Run Bool := do
  let e0 ← agreeAt s a b
  if e0 then
    let e1 ← agreeAt s (a + 1) (b + 1)
    if e1 then agreeAt s (a + 2) (b + 2) else .ok false
  else .ok false

/-- R78: the offset tests on mathematical integers, in their order. -/
def offsetTests (s : State) : Bool :=
  decide (0 < s.enc.ref.toNat) && decide (s.enc.ref.toNat < s.enc.inputIndex)
    && decide (s.enc.inputIndex - s.enc.ref.toNat - 1 < Config.maxOff)

/-- R78: the verdict is written, and `off` if it is that the candidate is valid. -/
def setVerdict (valid : Bool) (s : State) : State :=
  s.withEnc { s.enc with
    valid := valid
    off := if valid then BitVec.ofNat 13 (s.enc.inputIndex - s.enc.ref.toNat - 1) else s.enc.off }

/-- R78: `valid`, and `off` if it holds. IN is read at `ref` only when the offset tests pass. -/
def judge (s : State) : Run State :=
  if offsetTests s then do
    let e ← threeAgree s s.enc.ref.toNat s.enc.inputIndex
    .ok (setVerdict e s)
  else .ok (setVerdict false s)

/-! ### Literals -/

/-- The next run's slot is reserved (R80). -/
def openRun (s : State) : State := s.withEnc { s.enc with lit := 0, outputIndex := s.enc.outputIndex + 1 }

/-- R80: the full run's control byte is filled in and the next run's slot reserved. -/
def roll (s : State) : Run State := do
  let s ← putOut s ((s.enc.outputIndex : Int) - 33) 31#8
  .ok (openRun s)

/-- The cursor past one literal (R79). -/
def pastLiteral (s : State) : State :=
  s.withEnc { s.enc with
    outputIndex := s.enc.outputIndex + 1
    inputIndex := s.enc.inputIndex + 1
    lit := s.enc.lit + 1 }

/-- `if lit = 32: roll` (R79, R89). -/
def rollIfFull (s : State) : Run State := if s.enc.lit = Config.maxLit then roll s else .ok s

/-- One literal byte and the roll after the 32nd (the common part of R79 and R89). -/
def appendLiteral (s : State) : Run State := do
  let v ← inAt s s.enc.inputIndex
  let s ← putOut s s.enc.outputIndex v
  rollIfFull (pastLiteral s)

/-- R79: the literal step with its space test. -/
def literalStep (s : State) : Run State :=
  if s.enc.outputIndex ≥ s.nOut then raise .insufficientBuffer s else appendLiteral s

/-! ### The match step -/

/-- R81: the scan from `length`, at most `fuel` further bytes. -/
def scanMatch (s : State) : (fuel length : Nat) → Run Nat
  | 0, length => .ok length
  | fuel + 1, length => do
    let e ← agreeAt s (s.enc.ref.toNat + length) (s.enc.inputIndex + length)
    if e then scanMatch s fuel (length + 1) else .ok length

/-- `maxlen` (R81). -/
def setMaxlen (s : State) : State :=
  s.withEnc { s.enc with maxlen := min (s.nIn - s.enc.inputIndex) Config.maxRef }

/-- `length` (R81). -/
def setLength (n : Nat) (s : State) : State := s.withEnc { s.enc with length := n }

/-- R81: `maxlen` and `length`. -/
def matchLength (s : State) : Run State := do
  let n ← scanMatch (setMaxlen s) ((setMaxlen s).enc.maxlen - Config.minRef) Config.minRef
  .ok (setLength n (setMaxlen s))

/-- R82: the space test, which reclaims an empty reserved slot. -/
def matchRoom (s : State) : Run State :=
  if (s.enc.outputIndex : Int) - (if s.enc.lit = 0 then 1 else 0) + 4 ≥ (s.nOut : Int) then
    raise .insufficientBuffer s
  else .ok s

/-- R83 and the close of R90: fill in the open run's control byte, or withdraw its empty slot. With
`lit = 0` nothing is stored (92_eei_decisions D14). -/
def closeRun (s : State) : Run State :=
  if 0 < s.enc.lit then
    putOut s ((s.enc.outputIndex : Int) - s.enc.lit - 1) (BitVec.ofNat 8 (s.enc.lit - 1))
  else if s.enc.outputIndex = 0 then .error (.fault .outputIndexOutside)
  else .ok (s.withEnc { s.enc with outputIndex := s.enc.outputIndex - 1 })

/-- `OUT[output_index] <- v; output_index <- output_index + 1`. -/
def emitByte (v : Byte) (s : State) : Run State := do
  let s ← putOut s s.enc.outputIndex v
  .ok (s.withEnc { s.enc with outputIndex := s.enc.outputIndex + 1 })

/-- `(off >> 8) | (n << 5)` as a byte (R84). -/
def refControl (off : Off) (n : Nat) : Byte := BitVec.ofNat 8 ((off.toNat >>> 8) ||| (n <<< 5))

/-- `L` (R84). -/
def setLenField (s : State) : State := s.withEnc { s.enc with lenField := s.enc.length - 2 }

/-- R84 with `L < 7`: control byte and `off & 0xFF`. -/
def emitShort (s : State) : Run State := do
  let s ← emitByte (refControl s.enc.off s.enc.lenField) s
  emitByte (BitVec.ofNat 8 (s.enc.off.toNat &&& 0xFF)) s

/-- R84 with `L ≥ 7`: control byte, `L - 7`, `off & 0xFF`. -/
def emitLong (s : State) : Run State := do
  let s ← emitByte (refControl s.enc.off 7) s
  let s ← emitByte (BitVec.ofNat 8 (s.enc.lenField - 7)) s
  emitByte (BitVec.ofNat 8 (s.enc.off.toNat &&& 0xFF)) s

/-- R84: the two or three bytes of the back-reference. -/
def emitReference (s : State) : Run State :=
  if s.enc.length - 2 < 7 then emitShort (setLenField s) else emitLong (setLenField s)

/-- R85: advance past the match and reserve the next run's slot. -/
def advanceMatch (s : State) : State :=
  s.withEnc { s.enc with
    p := s.enc.inputIndex
    inputIndex := s.enc.inputIndex + s.enc.length
    lit := 0
    outputIndex := s.enc.outputIndex + 1 }

/-- R87 for one position `q`. -/
def seedAt (q : Nat) (s : State) : Run State := do
  let h ← fingerprintAt s q
  .ok (s.withHtab (s.htab.write (hashSlot h) (BitVec.ofNat 32 q)))

/-- R86, R87: no re-seed at the end of the input, else `p + 1` and then `p + 2`. -/
def reseed (s : State) : Run State :=
  if s.enc.inputIndex + 2 ≥ s.nIn then .ok s
  else do
    let s ← seedAt (s.enc.p + 1) s
    seedAt (s.enc.p + 2) s

/-- The match step in the order of R92: R81, R82, R83, R84, R85, R86, R87. -/
def matchStep (s : State) : Run State := do
  let s ← matchLength s
  let s ← matchRoom s
  let s ← closeRun s
  let s ← emitReference s
  reseed (advanceMatch s)

/-! ### One iteration, the tail -/

/-- `hval` at a step boundary (10_state R17): the fingerprint of the bytes at `input_index`, undefined,
hence free, with fewer than three bytes left. DESIGN CHOICE, notes/assumptions/18.md; safe. -/
def settleHval (s : State) : Run State :=
  if s.enc.inputIndex + 3 ≤ s.nIn then do
    let h ← fingerprintAt s s.enc.inputIndex
    .ok (s.withEnc { s.enc with hval := h })
  else .ok (s.withEnc { s.enc with hval := Config.freeHval s.freeCount }).nextFree

/-- After the verdict: the match step or the literal step (R76). -/
def matchOrLiteral (s : State) : Run State := if s.enc.valid then matchStep s else literalStep s

/-- One iteration of the main loop (R76). -/
def iteration (s : State) : Run State := do
  let s ← hashHere s
  let s ← judge (lookupSlot s)
  let s ← matchOrLiteral s
  settleHval s

/-- R89: `n` literals without a space test. -/
def tailLiterals : (n : Nat) → State → Run State
  | 0, s => .ok s
  | n + 1, s => do
    let s ← appendLiteral s
    tailLiterals n s

/-- R88 to R90: the pre-check, the last literals, the final close, `return output_index`. -/
def tail (s : State) : Run State :=
  if s.enc.outputIndex + 3 > s.nOut then raise .insufficientBuffer s
  else do
    let s ← tailLiterals (s.nIn - s.enc.inputIndex) s
    let s ← closeRun s
    .ok (returnOk s.enc.outputIndex s)

/-- One step in phase ENCODING: an iteration while three bytes are left (R76), else the tail. The exit of
R86 is this same condition being false. -/
def encodeStep (s : State) : Host.Outcome State Fault Refusal :=
  if s.enc.inputIndex + 3 ≤ s.nIn then (iteration s).outcome else (tail s).outcome

end Sys2Proof.Machine
end

