-- ==== Sys2Proof/Machine/Records.lean ====
section
/-! DEFINITION. The meanings of the records: LIT, REF3 to REF8, REFX (41_decoder R104 to R107). `step`
runs one only in phase DECODING with the record pointer at its control byte
(notes/assumptions/26.md). -/

namespace Sys2Proof.Machine

/-- LIT (41_decoder R104): room, payload, then the literals are copied and both indices advance. -/
def execLit (literals : List Byte) (s : State) : Host.Outcome State Fault Refusal :=
  Run.outcome do
    let s ← litTests (Instr.lit literals).control literals.length s
    let s ← putBytes s s.dec.outputIndex literals
    .ok (s.withDec { s.dec with
      inputIndex := s.dec.inputIndex + literals.length
      outputIndex := s.dec.outputIndex + literals.length })

/-- REF3 (41_decoder R105 with `len_hi = 1`). -/
def execRef3 (off : Off) (s : State) : Host.Outcome State Fault Refusal :=
  (runShortRef (Instr.ref3 off).control (offLo off) s).outcome

/-- REF4 (41_decoder R105 with `len_hi = 2`). -/
def execRef4 (off : Off) (s : State) : Host.Outcome State Fault Refusal :=
  (runShortRef (Instr.ref4 off).control (offLo off) s).outcome

/-- REF5 (41_decoder R105 with `len_hi = 3`). -/
def execRef5 (off : Off) (s : State) : Host.Outcome State Fault Refusal :=
  (runShortRef (Instr.ref5 off).control (offLo off) s).outcome

/-- REF6 (41_decoder R105 with `len_hi = 4`). -/
def execRef6 (off : Off) (s : State) : Host.Outcome State Fault Refusal :=
  (runShortRef (Instr.ref6 off).control (offLo off) s).outcome

/-- REF7 (41_decoder R105 with `len_hi = 5`). -/
def execRef7 (off : Off) (s : State) : Host.Outcome State Fault Refusal :=
  (runShortRef (Instr.ref7 off).control (offLo off) s).outcome

/-- REF8 (41_decoder R105 with `len_hi = 6`). -/
def execRef8 (off : Off) (s : State) : Host.Outcome State Fault Refusal :=
  (runShortRef (Instr.ref8 off).control (offLo off) s).outcome

/-- REFX (41_decoder R106): the extension byte comes before `off_lo`. -/
def execRefx (off : Off) (ext : Byte) (s : State) : Host.Outcome State Fault Refusal :=
  Run.outcome do
    let s ← refTests (Instr.refx off ext).control s
    let s ← takeExt ext s
    copyMatch (takeOffLo (offLo off) s)

/-- The end of the frame (41_decoder R109): DECODE returns `output_index`. -/
def endOfFrame (s : State) : State := returnOk s.dec.outputIndex s

end Sys2Proof.Machine
end

