-- ==== Sys2Proof/Machine/Commands.lean ====
section
/-! DEFINITION. The meanings of the two host commands: acceptance and start (42_commands R120 to R123,
40_encoder R71 to R73, 41_decoder R101). What follows is run by `step`, one iteration or record at a
time, as 00_scope R4 allows (notes/assumptions/1.md). -/

namespace Sys2Proof.Machine

/-- R72: clear the table if asked to. -/
def prepareTable (clear : BitVec 1) (s : State) : State :=
  if clear = 1#1 then s.withHtab HashTable.cleared else s

/-- R73: the initial cursor. -/
def startCursor (s : State) : State :=
  s.withEnc { s.enc with inputIndex := 0, outputIndex := 1, lit := 0 }

/-- R71: the opening tests in their order. -/
def startEncode (s : State) : Run State :=
  let s := prepareTable s.command.clearHtab s
  if s.nIn = 0 then .ok (returnOk 0 s)
  else if s.nOut = 0 then raise .insufficientBuffer s
  else settleHval (startCursor s)

/-- R101: the initial cursor and the empty frame. -/
def startDecode (s : State) : Run State :=
  let s := s.withDec { s.dec with inputIndex := 0, outputIndex := 0 }
  if s.nIn = 0 then .ok (returnOk 0 s) else .ok s

/-- ENCODE (42_commands R120). -/
def execEncode (nIn nOut : Word32) (clearHtab : BitVec 1) (s : State) : Host.Outcome State Fault Refusal :=
  acceptCommand { op := 0#1, nIn := nIn, nOut := nOut, clearHtab := clearHtab } .encoding startEncode s

/-- DECODE (42_commands R121). -/
def execDecode (nIn nOut : Word32) (clearHtab : BitVec 1) (s : State) : Host.Outcome State Fault Refusal :=
  acceptCommand { op := 1#1, nIn := nIn, nOut := nOut, clearHtab := clearHtab } .decoding startDecode s

end Sys2Proof.Machine
end

