-- ==== Sys2Proof/Machine/Dispatch.lean ====
section
/-! DEFINITION. One arm per instruction. -/

namespace Sys2Proof.Machine

def exec (i : Instr) (s : State) : Host.Outcome State Fault Refusal :=
  match i with
  -- records of a frame
  | .lit literals => Sys2Proof.Machine.execLit literals s
  | .ref3 off => Sys2Proof.Machine.execRef3 off s
  | .ref4 off => Sys2Proof.Machine.execRef4 off s
  | .ref5 off => Sys2Proof.Machine.execRef5 off s
  | .ref6 off => Sys2Proof.Machine.execRef6 off s
  | .ref7 off => Sys2Proof.Machine.execRef7 off s
  | .ref8 off => Sys2Proof.Machine.execRef8 off s
  | .refx off ext => Sys2Proof.Machine.execRefx off ext s
  -- host commands
  | .encode nIn nOut clearHtab => Sys2Proof.Machine.execEncode nIn nOut clearHtab s
  | .decode nIn nOut clearHtab => Sys2Proof.Machine.execDecode nIn nOut clearHtab s

end Sys2Proof.Machine
end

