-- ==== Sys2Proof/Machine/Fetch.lean ====
section
/-! DEFINITION. What `step` does next: the command the host presents when IDLE, the record at the record
pointer when DECODING, an iteration when ENCODING; and how a word of the opcode table is put where it is
fetched. -/

namespace Sys2Proof.Machine

/-- What the machine does next. -/
inductive Fetched where
  /-- IDLE and no command: the block does nothing (60_exceptions R142). -/
  | wait
  /-- A command accepted from the host (42_commands R122) or a record of the frame (41_decoder R102). -/
  | run (i : Instr)
  /-- An iteration or the tail of ENCODE. -/
  | encodeOn
  /-- A record whose bytes run out before `n_in` (30_encoding R59). -/
  | truncated (r : Reject)
  /-- `input_index = n_in` at a record boundary (41_decoder R109). -/
  | frameEnd
  deriving DecidableEq, Repr

/-- The frame bytes from the record pointer on, as many as the longest record has and the frame holds. -/
def recordWindow (s : State) : List Byte :=
  s.input.slice s.dec.inputIndex (min longestRecord (s.nIn - s.dec.inputIndex))

/-- The record at the record pointer (41_decoder R102, R103). -/
def fetchRecord (s : State) : Fetched :=
  if s.dec.inputIndex < s.nIn then
    match decodeRecord (recordWindow s) with
    | .ok (i, _) => .run i
    | .error r => .truncated r
  else .frameEnd

/-- What comes next in each phase (10_state R24). -/
def fetch (s : State) : Fetched :=
  match s.phase with
  | .idle =>
    match s.presented with
    | none => .wait
    | some r => .run (decodeCommand r)
  | .encoding => .encodeOn
  | .decoding => fetchRecord s

/-- Present this command to the IDLE block. -/
def placeCommand (r : CommandRecord) (s : State) : State := { s with phase := .idle, presented := some r }

/-- A DECODE runs and its frame is these bytes; the record pointer is at its start. -/
def placeFrame (bytes : List Byte) (s : State) : State :=
  { s with
    phase := .decoding
    input := Memory.ofBytes s.input.base bytes
    command := { s.command with op := 1#1, nIn := BitVec.ofNat 32 bytes.length }
    dec := { s.dec with inputIndex := 0 } }

/-- A word of the opcode table, put where the machine fetches it. -/
def placeWord (nbits w : Nat) (s : State) : State :=
  if isCommandWord nbits w then placeCommand (commandOfWord (w % 2 ^ nbits)) s
  else placeFrame (bytesOfWord longestRecord (w % 2 ^ nbits)) s

end Sys2Proof.Machine
end

