-- ==== Sys2Proof/Machine/Step.lean ====
section
/-! DEFINITION. One step of the machine (00_scope R4), and the host's way to put a word of the opcode
table where the next step fetches it. -/

namespace Sys2Proof.Machine

/-- One step: run what is fetched. -/
def step (s : State) : Host.Outcome State Fault Refusal :=
  match fetch s with
  | .wait => .next s
  | .run i => exec i s
  | .encodeOn => encodeStep s
  | .truncated r => (runTruncated r s).outcome
  | .frameEnd => .next (endOfFrame s)

/-- `s` with a word of the opcode table where `step` fetches next: a command presented to the IDLE block,
or a frame that a running DECODE is at the start of (notes/assumptions/13.md). -/
def State.withFetchWord (s : State) (nbits w : Nat) : State := placeWord nbits w s

end Sys2Proof.Machine
end

