-- ==== Sys2Proof/Machine/HostMoves.lean ====
section
/-! DEFINITION. What the host can do to the block between commands (70_reset R150 to R156, 42_commands
R122, R124), the helper it sizes OUT with (R125), and running a command to its end. None of this is part
of `step`. -/

namespace Sys2Proof.Machine

/-- R152 (a), (b): the host places the bytes of IN and sets aside OUT, whose contents do not matter and
are free here. While a command runs the host has no such move (R155, U7). The regions then stay lent,
stored apart, until the next lending: over extents that share a location a later command reads IN as
placed here, whatever an earlier one wrote there as OUT (DESIGN CHOICE, notes/assumptions/29.md; unsafe
for a claim about two commands over one such lending). -/
def hostLend (inBase : Nat) (bytes : List Byte) (outBase outExtent : Nat) (s : State) :
    Host.Outcome State Fault Refusal :=
  if s.phase = .idle then
    .next { s with
      input := Memory.ofBytes s.freeCount bytes
      output := { base := s.freeCount + 1, marks := [], cells := [] }
      inRegion := { base := inBase, extent := bytes.length }
      outRegion := { base := outBase, extent := outExtent }
      freeCount := s.freeCount + 2 }
  else .refused .hostTouchedRegion

/-- R152 (c): the host writes the command record. Presented while a command runs, it is not accepted and
has no effect on any state (42_commands R122). -/
def hostPresent (r : CommandRecord) (s : State) : State :=
  if s.phase = .idle then { s with presented := some r } else s

/-- R153: the host reads OUT after the response; during a command it has no such move (R155, U7). The
`none` answer is an index outside what the host may read. -/
def hostReadOut (a : Nat) (s : State) : Except Refusal (Option Byte) :=
  if s.phase = .idle then
    .ok (if s.response.status = .ok ∧ a < s.response.written.toNat then some (s.output.read a) else none)
  else .error .hostTouchedRegion

/-- Reset is asserted (R150, R151): HTAB becomes unspecified, and, if a command was running, it is
abandoned without a response of its own and every byte of OUT becomes unspecified. IN is not the block's
to reset. The unspecified registers and command record take the values State.reset names
(notes/assumptions/23.md; DESIGN CHOICE, unsafe). -/
def hostReset (s : State) : State :=
  { State.reset with
    input := s.input
    output := if s.phase = .idle then s.output else s.output.forget 0 s.nOut s.freeCount
    htab := HashTable.unspecified s.freeCount
    inRegion := s.inRegion
    outRegion := s.outRegion
    freeCount := s.freeCount + 1 }

/-- The buffer size the host may use for ENCODE, on integers (42_commands R125). Not hardware; it is not
always enough (90_conflicts C5). -/
def bound (n : Nat) : Nat := 104 * n / 100 + 1

/-- Steps until the block is IDLE, at most `fuel` of them: a command seen from the host, one transition
from the state at issue to the state at the response (00_scope R4). -/
def runToIdle : (fuel : Nat) → State → Host.Outcome State Fault Refusal
  | 0, s => .next s
  | fuel + 1, s =>
    if s.phase = .idle then .next s
    else
      match step s with
      | .next s' => runToIdle fuel s'
      | .fault f => .fault f
      | .refused r => .refused r

/-- A command from its issue: one step accepts it, further steps run it to its end. -/
def runCommand (fuel : Nat) (r : CommandRecord) (s : State) : Host.Outcome State Fault Refusal :=
  match step (hostPresent r s) with
  | .next s' => runToIdle fuel s'
  | .fault f => .fault f
  | .refused r => .refused r

end Sys2Proof.Machine
end

