-- ==== Sys2Proof/Safety.lean ====
section
/-! DEFINITION. The terms the claims use: the invariant of the machine, what a frame stands for, and the
encoder's search in the spec's words. -/

namespace Sys2Proof.Safety

open Sys2Proof.Machine

/-! ### The invariant -/

/-- Every memory is in its canonical form. -/
abbrev Canonical (s : State) : Prop := s.input.wf ∧ s.output.wf ∧ s.htab.wf

/-- Every free value of a region comes from an event before number `n`. -/
abbrev RegionFresh (m : Memory) (n : Nat) : Prop := m.base < n ∧ ∀ k ∈ m.marks, k.epoch < n

/-- Every free entry of the table comes from an event before number `n`. -/
def tableFresh (t : HashTable) (n : Nat) : Bool :=
  match t.base with
  | .zero => true
  | .free e => decide (e < n)

/-- The registers and temporaries fit the widths 10_state R14 to R21 give them. -/
abbrev WidthsHold (s : State) : Prop :=
  s.enc.inputIndex < 2 ^ 32 ∧ s.enc.outputIndex < 2 ^ 33 ∧ s.enc.lit < 2 ^ 6
    ∧ s.enc.maxlen < 2 ^ 9 ∧ s.enc.length < 2 ^ 9 ∧ s.enc.lenField < 2 ^ 9 ∧ s.enc.p < 2 ^ 32
    ∧ s.dec.inputIndex < 2 ^ 32 ∧ s.dec.outputIndex < 2 ^ 32
    ∧ s.dec.count < 2 ^ 6 ∧ s.dec.length < 2 ^ 9 ∧ s.dec.total < 2 ^ 9
    ∧ -(2 ^ 33 : Int) ≤ s.dec.ref ∧ s.dec.ref < (2 ^ 33 : Int)

/-- The latched command is legal (42_commands R123). -/
abbrev Legal (s : State) : Prop := lengthsTrue s s.nIn s.nOut = true ∧ overlap s s.nIn s.nOut = false

/-- The ranges of the encoder cursor at a step boundary of ENCODE (10_state R14 to R16). -/
abbrev EncoderRanges (s : State) : Prop :=
  0 < s.nIn ∧ 0 < s.nOut ∧ s.enc.inputIndex ≤ s.nIn ∧ s.enc.lit ≤ 31 ∧ s.enc.lit ≤ s.enc.inputIndex
    ∧ s.enc.lit + 1 ≤ s.enc.outputIndex ∧ s.enc.outputIndex ≤ s.nOut + 1
    ∧ (s.enc.outputIndex = s.nOut + 1 → s.enc.lit = 0)

/-- The ranges of the decoder cursor at a record boundary of DECODE (10_state R19, R20). -/
abbrev DecoderRanges (s : State) : Prop := s.dec.inputIndex ≤ s.nIn ∧ s.dec.outputIndex ≤ s.nOut

/-- The response names a status the block produces, `written` is 0 unless it is OK, and in IDLE it is at
most `n_out` (10_state R23, 60_exceptions R130, R133). -/
abbrev ResponseSound (s : State) : Prop :=
  s.response.status ≠ .unknown ∧ (s.response.status ≠ .ok → s.response.written = 0#32)
    ∧ (s.phase = .idle → s.response.written.toNat ≤ s.nOut)

/-- The fingerprint of the three bytes at `a` (40_encoder R74). -/
def fingerprintIn (s : State) (a : Nat) : Fingerprint :=
  fingerprintOf (s.input.read a) (s.input.read (a + 1)) (s.input.read (a + 2))

/-- While three bytes are left, `hval` is the fingerprint at the cursor (10_state R17). -/
abbrev HvalHere (s : State) : Prop :=
  s.enc.inputIndex + 3 ≤ s.nIn → s.enc.hval = fingerprintIn s s.enc.inputIndex

/-- What every step keeps. -/
structure MachineInv (s : State) : Prop where
  canonical : Canonical s
  inputFresh : RegionFresh s.input s.freeCount
  outputFresh : RegionFresh s.output s.freeCount
  tableFresh : tableFresh s.htab s.freeCount = true
  widths : WidthsHold s
  response : ResponseSound s
  busy : s.phase ≠ .idle → Legal s ∧ s.presented = none
  encoding : s.phase = .encoding → s.command.op = 0#1 ∧ EncoderRanges s ∧ HvalHere s
  decoding : s.phase = .decoding → s.command.op = 1#1 ∧ DecoderRanges s

/-! ### What a frame stands for -/

/-- The bytes so far, then `n` bytes from `distance` back, repeated if they overlap (20_memory R38); none
if the source lies before the start. -/
def expandMatch (out : List Byte) (off : Off) (n : Nat) : Option (List Byte) :=
  if distance off ≤ out.length then
    some (out ++ (List.range n).map fun k => out.getD (out.length - distance off + k % distance off) 0#8)
  else none

/-- The bytes so far and what this record produces (30_encoding R52 to R56). -/
def expandRecord (out : List Byte) (i : Instr) : Option (List Byte) :=
  match i with
  | .lit literals => some (out ++ literals)
  | .ref3 off => expandMatch out off 3
  | .ref4 off => expandMatch out off 4
  | .ref5 off => expandMatch out off 5
  | .ref6 off => expandMatch out off 6
  | .ref7 off => expandMatch out off 7
  | .ref8 off => expandMatch out off 8
  | .refx off ext => expandMatch out off (ext.toNat + 9)
  | .encode _ _ _ => none
  | .decode _ _ _ => none

/-- The byte string a sequence of records stands for, after `out`. -/
def expandFrame : List Instr → List Byte → Option (List Byte)
  | [], out => some out
  | i :: is, out =>
    match expandRecord out i with
    | some out' => expandFrame is out'
    | none => none

/-- A frame is a concatenation of records (30_encoding R50). -/
def frameBytes (is : List Instr) : List Byte := is.flatMap encodeRecord

/-- Well-formed records, no command. -/
abbrev Records (is : List Instr) : Prop := ∀ i ∈ is, i.isRecord = true ∧ i.wellFormed = true

/-- The bytes `frame` are a valid frame (30_encoding R59) that stands for `bytes`. -/
def StandsFor (frame bytes : List Byte) : Prop :=
  ∃ is, Records is ∧ frame = frameBytes is ∧ expandFrame is [] = some bytes

/-- 10_state R25: the open run's literals lie behind its slot, and all below the slot is a sequence of
records that stands for the input before those literals. -/
def EncodedPrefix (s : State) : Prop :=
  StandsFor (s.output.slice 0 (s.enc.outputIndex - s.enc.lit - 1))
      (s.input.slice 0 (s.enc.inputIndex - s.enc.lit))
    ∧ s.output.slice (s.enc.outputIndex - s.enc.lit) s.enc.lit
      = s.input.slice (s.enc.inputIndex - s.enc.lit) s.enc.lit

/-- 10_state R27: the records read so far stand for the output so far. -/
def DecodedPrefix (s : State) : Prop :=
  StandsFor (s.input.slice 0 s.dec.inputIndex) (s.output.slice 0 s.dec.outputIndex)

/-! ### The encoder's search in the spec's words -/

/-- The slot of the current position (R74). -/
def slotHere (s : State) : Slot := hashSlot (fingerprintIn s s.enc.inputIndex)

/-- The candidate of the current position: the entry at its slot (R77). -/
def candidate (s : State) : Nat := (s.htab.read (slotHere s)).toNat

/-- The candidate is valid (R78). -/
abbrev ValidMatch (s : State) : Prop :=
  0 < candidate s ∧ candidate s < s.enc.inputIndex ∧ s.enc.inputIndex - candidate s - 1 < 8192
    ∧ s.input.read (candidate s) = s.input.read s.enc.inputIndex
    ∧ s.input.read (candidate s + 1) = s.input.read (s.enc.inputIndex + 1)
    ∧ s.input.read (candidate s + 2) = s.input.read (s.enc.inputIndex + 2)

/-- `n` is the match length at the current position: as long as the bytes agree, at most
`min(n_in - input_index, 264)` (R81). -/
abbrev MatchLength (s : State) (n : Nat) : Prop :=
  3 ≤ n ∧ n ≤ min (s.nIn - s.enc.inputIndex) 264
    ∧ (∀ k, k < n → s.input.read (candidate s + k) = s.input.read (s.enc.inputIndex + k))
    ∧ (n = min (s.nIn - s.enc.inputIndex) 264
      ∨ s.input.read (candidate s + n) ≠ s.input.read (s.enc.inputIndex + n))

/-- HTAB after the lookup of the current position (R77). -/
def tableAfterLookup (s : State) : HashTable :=
  s.htab.write (slotHere s) (BitVec.ofNat 32 s.enc.inputIndex)

/-- HTAB after the re-seed of position `q` (R87). -/
def seeded (s : State) (q : Nat) (t : HashTable) : HashTable :=
  t.write (hashSlot (fingerprintIn s q)) (BitVec.ofNat 32 q)

/-- R82: the free place a match step must find, one more if an empty slot is reclaimed. -/
abbrev MatchHasRoom (s : State) : Prop := s.enc.outputIndex + 4 < s.nOut + (if s.enc.lit = 0 then 1 else 0)

/-! ### Errors -/

/-- The step from `s` to `t` ended a command with this status. -/
abbrev Ends (s t : State) (status : Status) : Prop :=
  ¬ (s.phase = .idle ∧ s.presented = none) ∧ t.phase = .idle ∧ t.response.status = status

/-- The causes of DataCorruption (60_exceptions R132 c1 to c4), each with the tests that come before it
(41_decoder R108). `c` is the control byte at the record pointer. -/
def DataCorruptionCause (s : State) : Prop :=
  let c := (s.input.read s.dec.inputIndex).toNat
  let b1 := (s.input.read (s.dec.inputIndex + 1)).toNat
  let b2 := (s.input.read (s.dec.inputIndex + 2)).toNat
  s.phase = .decoding
    ∧ ((s.dec.inputIndex < s.nIn ∧ c < 32 ∧ s.dec.outputIndex + (c + 1) ≤ s.nOut
        ∧ s.nIn < s.dec.inputIndex + 1 + (c + 1))
      ∨ (32 ≤ c ∧ s.nIn = s.dec.inputIndex + 1)
      ∨ (224 ≤ c ∧ s.nIn = s.dec.inputIndex + 2)
      ∨ (32 ≤ c ∧ c < 224 ∧ s.dec.inputIndex + 2 ≤ s.nIn ∧ s.dec.outputIndex + (c / 32 + 2) ≤ s.nOut
        ∧ s.dec.outputIndex < c % 32 * 256 + b1 + 1)
      ∨ (224 ≤ c ∧ s.dec.inputIndex + 3 ≤ s.nIn ∧ s.dec.outputIndex + (b1 + 9) ≤ s.nOut
        ∧ s.dec.outputIndex < c % 32 * 256 + b2 + 1))

/-- The causes of InsufficientBuffer (60_exceptions R131 e1 to e4, d1, d2), each with the tests that come
before it (40_encoder R71, 41_decoder R108). -/
def InsufficientBufferCause (s : State) : Prop :=
  let c := (s.input.read s.dec.inputIndex).toNat
  let b1 := (s.input.read (s.dec.inputIndex + 1)).toNat
  (s.phase = .idle ∧ ∃ r, s.presented = some r ∧ r.op = 0#1 ∧ r.nIn ≠ 0#32 ∧ r.nOut = 0#32)
    ∨ (s.phase = .encoding ∧ s.enc.inputIndex + 3 ≤ s.nIn ∧ ¬ ValidMatch s ∧ s.nOut ≤ s.enc.outputIndex)
    ∨ (s.phase = .encoding ∧ s.enc.inputIndex + 3 ≤ s.nIn ∧ ValidMatch s ∧ ¬ MatchHasRoom s)
    ∨ (s.phase = .encoding ∧ s.nIn < s.enc.inputIndex + 3 ∧ s.nOut < s.enc.outputIndex + 3)
    ∨ (s.phase = .decoding ∧ s.dec.inputIndex < s.nIn ∧ c < 32 ∧ s.nOut < s.dec.outputIndex + (c + 1))
    ∨ (s.phase = .decoding ∧ 32 ≤ c ∧ c < 224 ∧ s.dec.inputIndex + 2 ≤ s.nIn
      ∧ s.nOut < s.dec.outputIndex + (c / 32 + 2))
    ∨ (s.phase = .decoding ∧ 224 ≤ c ∧ s.dec.inputIndex + 3 ≤ s.nIn
      ∧ s.nOut < s.dec.outputIndex + (b1 + 9))

/-! ### Frames: what a step leaves alone -/

/-- The part of the state an iteration or the tail of ENCODE may touch is OUT, HTAB, the encoder
registers and the count of free values; all else is as in `s`. That the decoder registers are among the
rest is the model's two register sets (DESIGN CHOICE, notes/assumptions/2.md). -/
abbrev EncoderFrame (s t : State) : Prop :=
  t = { s with output := t.output, htab := t.htab, enc := t.enc, freeCount := t.freeCount }

/-- A record touches OUT and the decoder registers only. That the encoder registers are not among them is
the model's two register sets (DESIGN CHOICE, notes/assumptions/2.md). -/
abbrev RecordFrame (s t : State) : Prop := t = { s with output := t.output, dec := t.dec }

/-- Every byte of OUT outside `lo .. hi-1` reads as before. -/
abbrev OutputSameOutside (s t : State) (lo hi : Nat) : Prop :=
  ∀ a, a < lo ∨ hi ≤ a → t.output.read a = s.output.read a

/-- What the end of a command does (42_commands R122, 10_state R12): the response, IDLE, every byte of
OUT from `kept` up to `n_out` a free value, all else as in `s`. -/
abbrev EndsWith (s t : State) (status : Status) (written : Word32) (kept : Nat) : Prop :=
  t = { s with
      output := t.output, response := t.response, phase := t.phase, freeCount := t.freeCount }
    ∧ t.phase = .idle ∧ t.response.status = status ∧ t.response.written = written
    ∧ t.freeCount = s.freeCount + 1
    ∧ (∀ a, kept ≤ a → a < s.nOut → t.output.read a = Config.freeByte s.freeCount a)
    ∧ (∀ a, a < kept ∨ s.nOut ≤ a → t.output.read a = s.output.read a)

end Sys2Proof.Safety
end

