-- ==== Sys2Proof/Certificates/Slice0/Obligations.lean ====
section
/-! DEFINITION. The statements about the model, each a Prop; OBLIGATIONS.json names their tiers and the
rules of spec/ they rest on. -/

open Sys2Proof Sys2Proof.Machine Sys2Proof.Safety

/-! ### Encoding of records and commands -/

/-- Every well-formed record, followed by any bytes, decodes to itself and leaves those bytes; every
instruction, command or record, decodes from its words (30_encoding section 2, 10_state R22). -/
def Obligations.DecodeInvertsEncode : Prop :=
  ∀ (i : Instr) (rest : List Byte), i.wellFormed = true →
    (i.isRecord = true → decodeRecord (encodeRecord i ++ rest) = .ok (i, rest))
      ∧ decode (encode i) = .ok (i, [])

/-- What the record decoder accepts is a well-formed record whose words are the bytes read: no other
bytes decode to it (30_encoding sections 2 and 3). -/
def Obligations.EncodeInvertsDecode : Prop :=
  ∀ (bytes rest : List Byte) (i : Instr), decodeRecord bytes = .ok (i, rest) →
    i.isRecord = true ∧ i.wellFormed = true ∧ encodeRecord i ++ rest = bytes

/-- 30_encoding R51: the three classes partition the 256 control bytes. With its bytes present, a control
byte below 0x20 is a LIT of `c + 1` literals, 0x20 to 0xDF a REF by `c >> 5`, 0xE0 and up a REFX, and
`c & 0x1F` is the high part of the offset. -/
def Obligations.ControlByteSelectsRecord : Prop :=
  ∀ (c : Byte) (rest : List Byte),
    (c.toNat < 0x20 → c.toNat + 1 ≤ rest.length →
      decodeRecord (c :: rest) = .ok (.lit (rest.take (c.toNat + 1)), rest.drop (c.toNat + 1)))
    ∧ (∀ lo tail, rest = lo :: tail →
        let off := BitVec.ofNat 13 (c.toNat % 32 * 256 + lo.toNat)
        (0x20 ≤ c.toNat ∧ c.toNat ≤ 0x3F → decodeRecord (c :: rest) = .ok (.ref3 off, tail))
        ∧ (0x40 ≤ c.toNat ∧ c.toNat ≤ 0x5F → decodeRecord (c :: rest) = .ok (.ref4 off, tail))
        ∧ (0x60 ≤ c.toNat ∧ c.toNat ≤ 0x7F → decodeRecord (c :: rest) = .ok (.ref5 off, tail))
        ∧ (0x80 ≤ c.toNat ∧ c.toNat ≤ 0x9F → decodeRecord (c :: rest) = .ok (.ref6 off, tail))
        ∧ (0xA0 ≤ c.toNat ∧ c.toNat ≤ 0xBF → decodeRecord (c :: rest) = .ok (.ref7 off, tail))
        ∧ (0xC0 ≤ c.toNat ∧ c.toNat ≤ 0xDF → decodeRecord (c :: rest) = .ok (.ref8 off, tail)))
    ∧ (∀ ext lo tail, rest = ext :: lo :: tail → 0xE0 ≤ c.toNat →
        decodeRecord (c :: rest)
          = .ok (.refx (BitVec.ofNat 13 (c.toNat % 32 * 256 + lo.toNat)) ext, tail))

/-- A few words decode to what they stand for. The bits of the frame bytes are written out from the
spec's encodings (30_encoding R52 to R54, 95_test_vectors 2.4, 2.8); the numbering of those bytes in a
word, and the whole bit layout of the two 66-bit command words, are the model's own: DESIGN CHOICE,
notes/assumptions/14.md, since the command record has none (92_eei_decisions D2). -/
def Obligations.TableWordsDecode : Prop :=
  decodeTableWord 32 0x63626102 = some (.lit [0x61#8, 0x62#8, 0x63#8])
    ∧ decodeTableWord 16 0x0220 = some (.ref3 2#13)
    ∧ decodeTableWord 16 0x0340 = some (.ref4 3#13)
    ∧ decodeTableWord 16 0x0360 = some (.ref5 3#13)
    ∧ decodeTableWord 16 0x0280 = some (.ref6 2#13)
    ∧ decodeTableWord 16 0x01A0 = some (.ref7 1#13)
    ∧ decodeTableWord 16 0xFFDF = some (.ref8 8191#13)
    ∧ decodeTableWord 24 0x0519E1 = some (.refx 261#13 25#8)
    ∧ decodeTableWord 66 (2 ^ 65 + 2 ^ 33 * 9 + 2 * 5) = some (.encode 5#32 9#32 1#1)
    ∧ decodeTableWord 66 (2 ^ 33 * 2 + 2 * 3 + 1) = some (.decode 3#32 2#32 0#1)

/-- 30_encoding R56: a record produces `count`, `len_hi + 2` or `ext + 9` bytes; the encoder's length
field is `L = length - 2`, in `c[7:5]` of a REF if `L < 7`, else 7 there and `ext = L - 7`; and a match
length has exactly one encoding. -/
def Obligations.MatchLengthHasOneEncoding : Prop :=
  (∀ literals, (Instr.lit literals).wellFormed = true →
      produced (.lit literals) = (ctrlLow (Instr.lit literals).control).toNat + 1
        ∧ 1 ≤ produced (.lit literals) ∧ produced (.lit literals) ≤ 32)
    ∧ (∀ i off, i ∈ [Instr.ref3 off, .ref4 off, .ref5 off, .ref6 off, .ref7 off, .ref8 off] →
        produced i = (ctrlClass i.control).toNat + 2 ∧ 3 ≤ produced i ∧ produced i ≤ 8)
    ∧ (∀ off ext, produced (.refx off ext) = 7 + ext.toNat + 2 ∧ 9 ≤ produced (.refx off ext)
        ∧ produced (.refx off ext) ≤ 264)
    ∧ (∀ off length, 3 ≤ length → length ≤ 264 →
        produced (backReference off length) = length
          ∧ (length - 2 < 7 → (ctrlClass (backReference off length).control).toNat = length - 2)
          ∧ (7 ≤ length - 2 → ∃ ext : Byte, backReference off length = .refx off ext
              ∧ ext.toNat = length - 2 - 7 ∧ ctrlClass (backReference off length).control = 7#3)
          ∧ ∀ i, (i ∈ [Instr.ref3 off, .ref4 off, .ref5 off, .ref6 off, .ref7 off, .ref8 off]
              ∨ ∃ ext, i = .refx off ext) → produced i = length → i = backReference off length)

/-- 40_encoder R74: the hash on mathematical integers for every three bytes, and that every iteration
leaves in `slot` the hash of the three bytes at the position it looked up. -/
def Obligations.HashSlotFormula : Prop :=
  (∀ b0 b1 b2 : Byte,
    let hval := b0.toNat * 65536 + b1.toNat * 256 + b2.toNat
    (fingerprintOf b0 b1 b2).toNat = hval
      ∧ ((hashSlot (fingerprintOf b0 b1 b2)).toNat : Int) = ((hval / 1024 : Nat) - 5 * (hval : Int)) % 16384)
    ∧ (∀ s : State, MachineInv s → s.phase = .encoding → s.enc.inputIndex + 3 ≤ s.nIn →
        ∃ t, step s = .next t
          ∧ t.enc.slot = hashSlot (fingerprintOf (s.input.read s.enc.inputIndex)
              (s.input.read (s.enc.inputIndex + 1)) (s.input.read (s.enc.inputIndex + 2))))

/-- The spec's inference in 40_encoder R75: a 32-bit shift register gives the same slot in wrap-around
arithmetic, from its low 24 bits only. -/
def Obligations.WideHashRegisterSameSlot : Prop :=
  ∀ H : BitVec 32, hashSlot (H.setWidth 24) = ((H >>> 10) - 5#32 * H).setWidth 14

/-! ### The step and what it runs -/

/-- A step runs the decoded instruction and adds nothing around it: in DECODING the record that the frame
bytes from the record pointer up to `n_in` start with, in IDLE the presented command. Without one the
block does nothing (DEDUCED, notes/assumptions/12.md). -/
def Obligations.StepRunsDecodedInstruction : Prop :=
  (∀ (s : State) (i : Instr) (rest : List Byte), s.phase = .decoding → s.dec.inputIndex < s.nIn →
      decodeRecord (s.input.slice s.dec.inputIndex (s.nIn - s.dec.inputIndex)) = .ok (i, rest) →
      i.wellFormed = true ∧ step s = exec i s)
    ∧ (∀ (s : State) (r : CommandRecord), s.phase = .idle → s.presented = some r →
        step s = exec (decodeCommand r) s)
    ∧ (∀ s : State, s.phase = .idle → s.presented = none → step s = .next s)

/-- The host's way to put a word of the table where it is fetched: the next step runs what the word
decodes to (the model's own convention, notes/assumptions/13.md and 14.md). -/
def Obligations.FetchWordRuns : Prop :=
  ∀ (s : State) (nbits w : Nat) (i : Instr), decodeTableWord nbits w = some i →
    step (s.withFetchWord nbits w) = exec i (s.withFetchWord nbits w)

/-! ### The records -/

/-- LIT completes when room and payload suffice: the literals go to OUT at `output_index`, both indices
advance, nothing else changes (41_decoder R104). -/
def Obligations.LitCopiesLiterals : Prop :=
  ∀ (literals : List Byte) (s : State), (Instr.lit literals).wellFormed = true →
    s.dec.outputIndex + literals.length ≤ s.nOut →
    s.dec.inputIndex + 1 + literals.length ≤ s.nIn →
    ∃ t, exec (.lit literals) s = .next t ∧ RecordFrame s t
      ∧ t.dec = { s.dec with
          ctrl := BitVec.ofNat 8 (literals.length - 1)
          count := literals.length
          inputIndex := s.dec.inputIndex + 1 + literals.length
          outputIndex := s.dec.outputIndex + literals.length }
      ∧ (∀ (k : Nat) (h : k < literals.length), t.output.read (s.dec.outputIndex + k) = literals[k])
      ∧ OutputSameOutside s t s.dec.outputIndex (s.dec.outputIndex + literals.length)

/-- REF3 to REF8 complete when the offset byte is there, room suffices and the source is in the output:
`total` bytes are copied forward from `distance` back, repeating if they overlap; nothing else changes
(41_decoder R105, R107). -/
def Obligations.ShortRefsCopyMatch : Prop :=
  ∀ (off : Off) (s : State) (total : Nat) (i : Instr),
    (i, total) ∈ [(Instr.ref3 off, 3), (.ref4 off, 4), (.ref5 off, 5), (.ref6 off, 6), (.ref7 off, 7),
      (.ref8 off, 8)] →
    s.dec.inputIndex + 2 ≤ s.nIn → s.dec.outputIndex + total ≤ s.nOut →
    off.toNat + 1 ≤ s.dec.outputIndex →
    ∃ t, exec i s = .next t ∧ RecordFrame s t
      ∧ t.dec = { s.dec with
          ctrl := i.control
          length := total - 2
          offLo := BitVec.ofNat 8 off.toNat
          ref := (s.dec.outputIndex - (off.toNat + 1) : Nat)
          total := total
          inputIndex := s.dec.inputIndex + 2
          outputIndex := s.dec.outputIndex + total }
      ∧ (∀ k, k < total → t.output.read (s.dec.outputIndex + k)
          = s.output.read (s.dec.outputIndex - (off.toNat + 1) + k % (off.toNat + 1)))
      ∧ OutputSameOutside s t s.dec.outputIndex (s.dec.outputIndex + total)

/-- REFX completes when both operand bytes are there, room suffices and the source is in the output: as
the short form with `total = ext + 9` and three frame bytes (41_decoder R106, R107). -/
def Obligations.RefxCopiesMatch : Prop :=
  ∀ (off : Off) (ext : Byte) (s : State),
    s.dec.inputIndex + 3 ≤ s.nIn → s.dec.outputIndex + (ext.toNat + 9) ≤ s.nOut →
    off.toNat + 1 ≤ s.dec.outputIndex →
    ∃ t, exec (.refx off ext) s = .next t ∧ RecordFrame s t
      ∧ t.dec = { s.dec with
          ctrl := (Instr.refx off ext).control
          ext := ext
          length := 7 + ext.toNat
          offLo := BitVec.ofNat 8 off.toNat
          ref := (s.dec.outputIndex - (off.toNat + 1) : Nat)
          total := ext.toNat + 9
          inputIndex := s.dec.inputIndex + 3
          outputIndex := s.dec.outputIndex + (ext.toNat + 9) }
      ∧ (∀ k, k < ext.toNat + 9 → t.output.read (s.dec.outputIndex + k)
          = s.output.read (s.dec.outputIndex - (off.toNat + 1) + k % (off.toNat + 1)))
      ∧ OutputSameOutside s t s.dec.outputIndex (s.dec.outputIndex + (ext.toNat + 9))

/-- 41_decoder R104 at the record pointer, truncated or not: the room test first, then the payload test,
then `count` bytes of IN go to OUT. An error ends the command with the pointer just past the control
byte. -/
def Obligations.LiteralRecordAtPointer : Prop :=
  ∀ s : State, s.phase = .decoding → s.dec.inputIndex < s.nIn →
    let c := s.input.read s.dec.inputIndex
    let count := c.toNat + 1
    let begun := s.withDec { s.dec with ctrl := c, count := count, inputIndex := s.dec.inputIndex + 1 }
    c.toNat < 32 →
    (s.dec.outputIndex + count > s.nOut → step s = .next (errorEntry .insufficientBuffer begun))
    ∧ (s.dec.outputIndex + count ≤ s.nOut → s.dec.inputIndex + 1 + count > s.nIn →
        step s = .next (errorEntry .dataCorruption begun))
    ∧ (s.dec.outputIndex + count ≤ s.nOut → s.dec.inputIndex + 1 + count ≤ s.nIn →
        ∃ t, step s = .next t ∧ RecordFrame s t
          ∧ t.dec = { begun.dec with
              inputIndex := s.dec.inputIndex + 1 + count, outputIndex := s.dec.outputIndex + count }
          ∧ (∀ k, k < count → t.output.read (s.dec.outputIndex + k)
              = s.input.read (s.dec.inputIndex + 1 + k))
          ∧ OutputSameOutside s t s.dec.outputIndex (s.dec.outputIndex + count))

/-- 41_decoder R105 at the record pointer, with R107's copy: the offset byte, then room, then the source
position, each test before any byte is copied. -/
def Obligations.ShortReferenceAtPointer : Prop :=
  ∀ s : State, s.phase = .decoding → s.dec.inputIndex < s.nIn →
    let c := s.input.read s.dec.inputIndex
    let lo := s.input.read (s.dec.inputIndex + 1)
    let dist := c.toNat % 32 * 256 + lo.toNat + 1
    let total := c.toNat / 32 + 2
    let begun := s.withDec { s.dec with
      ctrl := c
      length := c.toNat / 32
      ref := (s.dec.outputIndex : Int) - (c.toNat % 32 * 256 : Nat) - 1
      inputIndex := s.dec.inputIndex + 1 }
    let whole := s.withDec { begun.dec with
      offLo := lo
      ref := (s.dec.outputIndex : Int) - (dist : Nat)
      inputIndex := s.dec.inputIndex + 2
      total := total }
    32 ≤ c.toNat → c.toNat < 224 →
    (s.dec.inputIndex + 1 ≥ s.nIn → step s = .next (errorEntry .dataCorruption begun))
    ∧ (s.dec.inputIndex + 1 < s.nIn → s.dec.outputIndex + total > s.nOut →
        step s = .next (errorEntry .insufficientBuffer whole))
    ∧ (s.dec.inputIndex + 1 < s.nIn → s.dec.outputIndex + total ≤ s.nOut → s.dec.outputIndex < dist →
        step s = .next (errorEntry .dataCorruption whole))
    ∧ (s.dec.inputIndex + 1 < s.nIn → s.dec.outputIndex + total ≤ s.nOut → dist ≤ s.dec.outputIndex →
        ∃ t, step s = .next t ∧ RecordFrame s t
          ∧ t.dec = { whole.dec with outputIndex := s.dec.outputIndex + total }
          ∧ (∀ k, k < total → t.output.read (s.dec.outputIndex + k)
              = s.output.read (s.dec.outputIndex - dist + k % dist))
          ∧ (∀ k, k < total → t.output.read (s.dec.outputIndex + k)
              = t.output.read (s.dec.outputIndex - dist + k))
          ∧ OutputSameOutside s t s.dec.outputIndex (s.dec.outputIndex + total))

/-- 41_decoder R106 at the record pointer, with R107's copy: the extension byte, the offset byte, room,
the source position, each test before any byte is copied. -/
def Obligations.LongReferenceAtPointer : Prop :=
  ∀ s : State, s.phase = .decoding → s.dec.inputIndex < s.nIn →
    let c := s.input.read s.dec.inputIndex
    let ext := s.input.read (s.dec.inputIndex + 1)
    let lo := s.input.read (s.dec.inputIndex + 2)
    let dist := c.toNat % 32 * 256 + lo.toNat + 1
    let total := ext.toNat + 9
    let begun := s.withDec { s.dec with
      ctrl := c
      length := 7
      ref := (s.dec.outputIndex : Int) - (c.toNat % 32 * 256 : Nat) - 1
      inputIndex := s.dec.inputIndex + 1 }
    let extended := s.withDec { begun.dec with
      ext := ext, length := 7 + ext.toNat, inputIndex := s.dec.inputIndex + 2 }
    let whole := s.withDec { extended.dec with
      offLo := lo
      ref := (s.dec.outputIndex : Int) - (dist : Nat)
      inputIndex := s.dec.inputIndex + 3
      total := total }
    224 ≤ c.toNat →
    (s.dec.inputIndex + 1 ≥ s.nIn → step s = .next (errorEntry .dataCorruption begun))
    ∧ (s.dec.inputIndex + 2 = s.nIn → step s = .next (errorEntry .dataCorruption extended))
    ∧ (s.dec.inputIndex + 2 < s.nIn → s.dec.outputIndex + total > s.nOut →
        step s = .next (errorEntry .insufficientBuffer whole))
    ∧ (s.dec.inputIndex + 2 < s.nIn → s.dec.outputIndex + total ≤ s.nOut → s.dec.outputIndex < dist →
        step s = .next (errorEntry .dataCorruption whole))
    ∧ (s.dec.inputIndex + 2 < s.nIn → s.dec.outputIndex + total ≤ s.nOut → dist ≤ s.dec.outputIndex →
        ∃ t, step s = .next t ∧ RecordFrame s t
          ∧ t.dec = { whole.dec with outputIndex := s.dec.outputIndex + total }
          ∧ (∀ k, k < total → t.output.read (s.dec.outputIndex + k)
              = s.output.read (s.dec.outputIndex - dist + k % dist))
          ∧ (∀ k, k < total → t.output.read (s.dec.outputIndex + k)
              = t.output.read (s.dec.outputIndex - dist + k))
          ∧ OutputSameOutside s t s.dec.outputIndex (s.dec.outputIndex + total))

/-- 41_decoder R109: at the end of the frame DECODE returns `output_index`: status OK, `written` is it,
and every byte of OUT below it, and every one outside OUT, is as it was. -/
def Obligations.FrameEndReturnsOutputIndex : Prop :=
  ∀ s : State, MachineInv s → s.phase = .decoding → s.dec.inputIndex = s.nIn →
    ∃ t, step s = .next t
      ∧ t = { s with
          output := t.output, response := t.response, phase := t.phase, freeCount := t.freeCount }
      ∧ t.phase = .idle ∧ t.response.status = .ok ∧ t.response.written.toNat = s.dec.outputIndex
      ∧ (∀ a, a < s.dec.outputIndex ∨ s.nOut ≤ a → t.output.read a = s.output.read a)

/-! ### The commands -/

/-- DECODE, presented to the IDLE block with a legal record, is accepted: the record is latched and both
indices are 0; an empty frame ends at once with `written = 0`, whatever `n_out` (41_decoder R101,
42_commands R121, R122). The free bytes of OUT where it ends at once are notes/assumptions/6.md, the
encoder's registers kept apart notes/assumptions/2.md (DESIGN CHOICE both). -/
def Obligations.DecodeStarts : Prop :=
  ∀ (nIn nOut : Word32) (c : BitVec 1) (s : State), s.phase = .idle →
    lengthsTrue s nIn.toNat nOut.toNat = true → overlap s nIn.toNat nOut.toNat = false →
    let begun : State := { s with
      command := { op := 1#1, nIn := nIn, nOut := nOut, clearHtab := c }
      phase := .decoding
      presented := none
      dec := { s.dec with inputIndex := 0, outputIndex := 0 } }
    (nIn ≠ 0#32 → exec (.decode nIn nOut c) s = .next begun)
    ∧ (nIn = 0#32 → ∃ t, exec (.decode nIn nOut c) s = .next t ∧ EndsWith begun t .ok 0#32 0)

/-- ENCODE, presented to the IDLE block with a legal record, is accepted and started: the table is
cleared first if asked, then an empty input ends at once with `written = 0`, then `n_out = 0` raises
InsufficientBuffer, else the cursor is `0, 1, 0` and the main loop is next (40_encoder R71 to R73,
42_commands R120, R122). No byte of IN or OUT changes in the last case. That `hval` is then written, as
the fingerprint at position 0 where three bytes exist (10_state R17, decision D13), is the model's
choice: DESIGN CHOICE, notes/assumptions/18.md. The free bytes of OUT where the command ends at once are
notes/assumptions/6.md, the decoder's registers kept apart notes/assumptions/2.md. -/
def Obligations.EncodeStarts : Prop :=
  ∀ (nIn nOut : Word32) (c : BitVec 1) (s : State), s.phase = .idle →
    lengthsTrue s nIn.toNat nOut.toNat = true → overlap s nIn.toNat nOut.toNat = false →
    let accepted : State := { s with
      command := { op := 0#1, nIn := nIn, nOut := nOut, clearHtab := c }
      phase := .encoding
      presented := none
      htab := if c = 1#1 then HashTable.cleared else s.htab }
    (nIn = 0#32 → ∃ t, exec (.encode nIn nOut c) s = .next t ∧ EndsWith accepted t .ok 0#32 0)
    ∧ (nIn ≠ 0#32 → nOut = 0#32 →
        exec (.encode nIn nOut c) s = .next (errorEntry .insufficientBuffer accepted))
    ∧ (nIn ≠ 0#32 → nOut ≠ 0#32 →
        ∃ t, exec (.encode nIn nOut c) s = .next t
          ∧ t = { accepted with enc := t.enc, freeCount := t.freeCount }
          ∧ t.enc = { s.enc with inputIndex := 0, outputIndex := 1, lit := 0, hval := t.enc.hval }
          ∧ (3 ≤ nIn.toNat → t.enc.hval = fingerprintIn s 0))

/-- 42_commands R122 (the spec's decision D15): a command presented while one runs is not accepted and
has no effect on any state. -/
def Obligations.BusyCommandHasNoEffect : Prop :=
  ∀ (s : State) (r : CommandRecord), s.phase ≠ .idle →
    hostPresent r s = s ∧ exec (decodeCommand r) s = .next s

/-- A command whose lengths are not those of the regions lent, or whose IN and OUT share a byte, is
refused (20_memory R32, 70_reset R156; the spec's decision D7, U6, U8): with true lengths it is refused
exactly when some location is in both regions. -/
def Obligations.IllegalCommandRefused : Prop :=
  ∀ (s : State) (r : CommandRecord), s.phase = .idle →
    ((s.inRegion.extent < r.nIn.toNat ∨ s.outRegion.extent < r.nOut.toNat) →
      exec (decodeCommand r) s = .refused .lengthBeyondRegion)
    ∧ (r.nIn.toNat ≤ s.inRegion.extent → r.nOut.toNat ≤ s.outRegion.extent →
        ((∃ x, s.inRegion.base ≤ x ∧ x < s.inRegion.base + r.nIn.toNat
            ∧ s.outRegion.base ≤ x ∧ x < s.outRegion.base + r.nOut.toNat)
          ↔ exec (decodeCommand r) s = .refused .regionsOverlap))

/-- 60_exceptions R137, with R136: after an error every byte of `OUT[0 .. n_out)` is unspecified (a free
value, notes/assumptions/6.md), no byte outside OUT and none of IN is written; the response is the status
with `written = 0` and the block is IDLE; HTAB and the registers keep what they held (R138). -/
def Obligations.ErrorLeavesOutUnspecified : Prop :=
  ∀ (e : Status) (s : State), EndsWith s (errorEntry e s) e 0#32 0

/-! ### The encoder, one step at a time -/

/-- 40_encoder R77: every iteration, whatever comes of it, reads the entry of the current position's slot
into `ref` and puts `input_index` there; only a match step that has room writes further entries. -/
def Obligations.EveryIterationLooksUp : Prop :=
  ∀ s : State, MachineInv s → s.phase = .encoding → s.enc.inputIndex + 3 ≤ s.nIn →
    ∃ t, step s = .next t
      ∧ t.enc.slot = slotHere s ∧ t.enc.ref = s.htab.read (slotHere s)
      ∧ (¬ (ValidMatch s ∧ MatchHasRoom s) →
          t.htab.read (slotHere s) = BitVec.ofNat 32 s.enc.inputIndex
            ∧ ∀ slot, slot ≠ slotHere s → t.htab.read slot = s.htab.read slot)
      ∧ (ValidMatch s → MatchHasRoom s →
          ∀ slot, slot ≠ hashSlot (fingerprintIn s (s.enc.inputIndex + 1)) →
            slot ≠ hashSlot (fingerprintIn s (s.enc.inputIndex + 2)) →
            t.htab.read slot
              = if slot = slotHere s then BitVec.ofNat 32 s.enc.inputIndex else s.htab.read slot)

/-- 40_encoder R79 and R80: with no valid match, the literal step fails if OUT is full, else the byte goes
to OUT and the three cursor registers advance by one; the 32nd literal closes the run: its control byte
becomes 31 and the next run's slot is reserved, unchecked and unwritten. -/
def Obligations.LiteralStepEffect : Prop :=
  ∀ s : State, s.phase = .encoding → s.enc.inputIndex + 3 ≤ s.nIn → ¬ ValidMatch s →
    (s.nOut ≤ s.enc.outputIndex →
      ∃ u, step s = .next (errorEntry .insufficientBuffer u)
        ∧ u = { s with htab := tableAfterLookup s, enc := u.enc })
    ∧ (s.enc.outputIndex < s.nOut → s.enc.lit < 31 →
      ∃ t, step s = .next t ∧ EncoderFrame s t
        ∧ t.enc.inputIndex = s.enc.inputIndex + 1 ∧ t.enc.outputIndex = s.enc.outputIndex + 1
        ∧ t.enc.lit = s.enc.lit + 1 ∧ t.enc.valid = false ∧ t.htab = tableAfterLookup s
        ∧ t.output.read s.enc.outputIndex = s.input.read s.enc.inputIndex
        ∧ OutputSameOutside s t s.enc.outputIndex (s.enc.outputIndex + 1))
    ∧ (s.enc.outputIndex < s.nOut → s.enc.lit = 31 → 32 ≤ s.enc.outputIndex →
      ∃ t, step s = .next t ∧ EncoderFrame s t
        ∧ t.enc.inputIndex = s.enc.inputIndex + 1 ∧ t.enc.outputIndex = s.enc.outputIndex + 2
        ∧ t.enc.lit = 0 ∧ t.enc.valid = false ∧ t.htab = tableAfterLookup s
        ∧ t.output.read (s.enc.outputIndex - 32) = 31#8
        ∧ t.output.read s.enc.outputIndex = s.input.read s.enc.inputIndex
        ∧ (∀ a, a ≠ s.enc.outputIndex - 32 → a ≠ s.enc.outputIndex → t.output.read a = s.output.read a))

/-- The match step in the order of 40_encoder R92, from R81 to R87: with room by R82, the open run is
closed or its empty slot withdrawn, the record of the match is written with its length by R81 and its
distance `input_index - ref`, the cursor moves past the match with a new slot reserved, and the table is
re-seeded at `p + 1`, `p + 2` unless at most two bytes are left. -/
def Obligations.MatchStepEffect : Prop :=
  ∀ (s : State) (n : Nat), s.phase = .encoding → s.enc.inputIndex + 3 ≤ s.nIn → ValidMatch s →
    MatchLength s n → s.enc.lit + 1 ≤ s.enc.outputIndex → MatchHasRoom s →
    let start := if s.enc.lit = 0 then s.enc.outputIndex - 1 else s.enc.outputIndex
    let record := encodeRecord (backReference (BitVec.ofNat 13 (s.enc.inputIndex - candidate s - 1)) n)
    ∃ t, step s = .next t ∧ EncoderFrame s t
      ∧ t.enc.inputIndex = s.enc.inputIndex + n ∧ t.enc.outputIndex = start + record.length + 1
      ∧ t.enc.lit = 0 ∧ t.enc.p = s.enc.inputIndex ∧ t.enc.valid = true
      ∧ t.enc.length = n ∧ t.enc.off.toNat = s.enc.inputIndex - candidate s - 1
      ∧ t.output.slice start record.length = record
      ∧ (0 < s.enc.lit →
          t.output.read (s.enc.outputIndex - s.enc.lit - 1) = BitVec.ofNat 8 (s.enc.lit - 1))
      ∧ (∀ a, a ≠ s.enc.outputIndex - s.enc.lit - 1 → a < start ∨ start + record.length ≤ a →
          t.output.read a = s.output.read a)
      ∧ t.htab = (if s.enc.inputIndex + n + 2 ≥ s.nIn then tableAfterLookup s
          else seeded s (s.enc.inputIndex + 2) (seeded s (s.enc.inputIndex + 1) (tableAfterLookup s)))

/-- 40_encoder R81 and R84: the match step takes `maxlen` and the length of the agreeing bytes, and writes
the back-reference where the open run ends (over its slot if it is empty): `L = length - 2`, one control
byte `(off >> 8) | (L << 5)` and `off & 0xFF` if `L < 7`, else `(off >> 8) | (7 << 5)`, `L - 7` and
`off & 0xFF`, counted in `output_index` before the next slot is reserved. -/
def Obligations.MatchRecordBytes : Prop :=
  ∀ s : State, MachineInv s → s.phase = .encoding → s.enc.inputIndex + 3 ≤ s.nIn → ValidMatch s →
    MatchHasRoom s →
    let start := if s.enc.lit = 0 then s.enc.outputIndex - 1 else s.enc.outputIndex
    let off := s.enc.inputIndex - candidate s - 1
    ∃ n t, step s = .next t ∧ MatchLength s n
      ∧ t.enc.maxlen = min (s.nIn - s.enc.inputIndex) 264 ∧ t.enc.length = n ∧ t.enc.lenField = n - 2
      ∧ (n - 2 < 7 →
          (t.output.read start).toNat = (off >>> 8 ||| ((n - 2) <<< 5))
            ∧ (t.output.read (start + 1)).toNat = off &&& 0xFF
            ∧ t.enc.outputIndex = start + 2 + 1)
      ∧ (7 ≤ n - 2 →
          (t.output.read start).toNat = (off >>> 8 ||| (7 <<< 5))
            ∧ (t.output.read (start + 1)).toNat = n - 2 - 7
            ∧ (t.output.read (start + 2)).toNat = off &&& 0xFF
            ∧ t.enc.outputIndex = start + 3 + 1)

/-- 40_encoder R82: the space test of a match step, which reclaims an empty reserved slot; it fails before
any byte is written, and the lookup's table write stays (R91). -/
def Obligations.MatchWithoutRoomFails : Prop :=
  ∀ s : State, s.phase = .encoding → s.enc.inputIndex + 3 ≤ s.nIn → ValidMatch s →
    ¬ MatchHasRoom s →
    ∃ u, step s = .next (errorEntry .insufficientBuffer u)
      ∧ u = { s with htab := tableAfterLookup s, enc := u.enc }

/-- 40_encoder R88: the tail raises InsufficientBuffer exactly when `output_index + 3 > n_out`, whatever
the number of bytes left; else it ends with OK. -/
def Obligations.TailPreCheck : Prop :=
  ∀ s : State, MachineInv s → s.phase = .encoding → s.nIn < s.enc.inputIndex + 3 →
    ∃ t, step s = .next t ∧ t.phase = .idle
      ∧ (s.enc.outputIndex + 3 > s.nOut → t.response.status = .insufficientBuffer)
      ∧ (s.enc.outputIndex + 3 ≤ s.nOut → t.response.status = .ok)

/-- 40_encoder R88 to R90: the tail fails without three bytes of slack, else appends the last bytes as
literals, closes the run (rolling at the 32nd literal) and returns `output_index`. -/
def Obligations.TailEffect : Prop :=
  ∀ s : State, s.phase = .encoding → s.nIn < s.enc.inputIndex + 3 →
    (s.nOut < s.enc.outputIndex + 3 → step s = .next (errorEntry .insufficientBuffer s))
    ∧ (s.enc.outputIndex + 3 ≤ s.nOut → s.enc.inputIndex ≤ s.nIn → s.enc.lit ≤ 31 →
        s.enc.lit + 1 ≤ s.enc.outputIndex →
        let left := s.nIn - s.enc.inputIndex
        let run := s.enc.lit + left
        let slot := s.enc.outputIndex - s.enc.lit - 1
        let w := if run = 0 then s.enc.outputIndex - 1
          else if run ≤ 32 then s.enc.outputIndex + left else s.enc.outputIndex + left + 1
        ∃ t, step s = .next t
          ∧ t = { s with
              output := t.output, enc := t.enc, response := t.response, phase := t.phase,
              freeCount := t.freeCount }
          ∧ t.phase = .idle ∧ t.response.status = .ok ∧ t.response.written.toNat = w
          ∧ t.enc.inputIndex = s.nIn ∧ t.enc.outputIndex = w
          ∧ (0 < run → t.output.read slot = BitVec.ofNat 8 (min run 32 - 1))
          ∧ (∀ k, k < left → s.enc.lit + k < 32 →
              t.output.read (s.enc.outputIndex + k) = s.input.read (s.enc.inputIndex + k))
          ∧ (run = 33 → t.output.read (s.enc.outputIndex + 1) = 0#8
              ∧ t.output.read (s.enc.outputIndex + 2) = s.input.read (s.enc.inputIndex + 1))
          ∧ (∀ a, a < w → a ≠ slot → a < s.enc.outputIndex → t.output.read a = s.output.read a)
          ∧ (∀ a, s.nOut ≤ a → t.output.read a = s.output.read a))

/-! ### Invariants and whole-machine rules -/

/-- The invariant holds right after reset, at the values the log names where the spec gives none
(notes/assumptions/3.md, 4.md). -/
def Obligations.ResetMeetsInvariant : Prop := MachineInv State.reset

/-- Every step keeps the invariant: canonical memories, register widths and ranges (10_state R14 to R21),
a sound response (R23), a legal latched command while one runs. The canonical forms, the numbers of the
free values and `hval` at a step boundary are the model's own (notes/assumptions/8.md, 21.md, 18.md). -/
def Obligations.StepKeepsInvariant : Prop :=
  ∀ s t : State, MachineInv s → step s = .next t → MachineInv t

/-- 60_exceptions R131, R132 and R133 with the order of 41_decoder R108: a step ends a command with
DataCorruption, or with InsufficientBuffer, exactly in the cases listed there, and never with Unknown. -/
def Obligations.EveryCauseOfError : Prop :=
  ∀ s t : State, MachineInv s → step s = .next t →
    (Ends s t .dataCorruption ↔ DataCorruptionCause s)
      ∧ (Ends s t .insufficientBuffer ↔ InsufficientBufferCause s)
      ∧ ¬ Ends s t .unknown

/-- 20_memory R43: the encoder never reads OUT. From a state that differs in OUT only, the same step is
made: the same registers, table and response, and every byte of OUT is the one written in both, or kept
in both. That both steps leave the same unspecified bytes of OUT and the same undefined `hval` is the
model's choice: DESIGN CHOICE, notes/assumptions/28.md. -/
def Obligations.EncoderNeverReadsOut : Prop :=
  ∀ (s t : State) (m : Memory), MachineInv s → s.phase = .encoding → step s = .next t →
    ∃ t', step (s.withOutput m) = .next t' ∧ t' = { t with output := t'.output }
      ∧ ∀ a, t'.output.read a = t.output.read a
        ∨ (t.output.read a = s.output.read a ∧ t'.output.read a = m.read a)

/-- 20_memory R39 (the spec's inference, with 40_encoder R95 and 41_decoder R112): from a state that
meets the invariant no access is out of range, so no step faults, and while a command runs every step
answers a next state. -/
def Obligations.NoAccessOutOfRange : Prop :=
  ∀ s : State, MachineInv s →
    (∀ f, step s ≠ .fault f) ∧ (s.phase ≠ .idle → ∃ t, step s = .next t)

/-- 10_state R25: the encoder's reserved-slot invariant holds at the start of ENCODE and is kept by every
step of it, and a command that ends with OK leaves a frame that stands for the whole input. (That the
part below the slot decodes is the spec's inference.) -/
def Obligations.EncodedPrefixKept : Prop :=
  (∀ s : State, s.enc.inputIndex = 0 → s.enc.outputIndex = 1 → s.enc.lit = 0 → EncodedPrefix s)
    ∧ ∀ s t : State, MachineInv s → s.phase = .encoding → EncodedPrefix s → step s = .next t →
      (t.phase = .encoding → EncodedPrefix t)
      ∧ (t.phase = .idle → t.response.status = .ok →
          StandsFor (t.output.slice 0 t.response.written.toNat) (s.input.slice 0 s.nIn))

/-- 10_state R27: at every record boundary OUT below `output_index` holds the bytes that the records read
so far produce, each back-reference inside what was produced before it: so at the start of DECODE, and
every step keeps it; a command that ends with OK leaves the bytes the frame stands for. -/
def Obligations.DecodedPrefixKept : Prop :=
  (∀ s : State, s.dec.inputIndex = 0 → s.dec.outputIndex = 0 → DecodedPrefix s)
    ∧ ∀ s t : State, MachineInv s → s.phase = .decoding → DecodedPrefix s → step s = .next t →
      (t.phase = .decoding → DecodedPrefix t)
      ∧ (t.phase = .idle → t.response.status = .ok →
          StandsFor (s.input.slice 0 s.nIn) (t.output.slice 0 t.response.written.toNat))

/-- 10_state R26: every entry written during the current ENCODE is below `input_index`; so is every entry,
or it is 0, when the command began with the table cleared; and a candidate that is not is never valid. -/
def Obligations.TableEntriesBelowCursor : Prop :=
  (∀ s t : State, MachineInv s → s.phase = .encoding → step s = .next t → t.phase = .encoding →
      ∀ slot, t.htab.read slot = s.htab.read slot ∨ (t.htab.read slot).toNat < t.enc.inputIndex)
    ∧ (∀ (nIn nOut : Word32) (s t : State), s.phase = .idle → exec (.encode nIn nOut 1#1) s = .next t →
        t.phase = .encoding → ∀ slot, t.htab.read slot = 0#32)
    ∧ (∀ s t : State, MachineInv s → s.phase = .encoding →
        (∀ slot, s.htab.read slot = 0#32 ∨ (s.htab.read slot).toNat < s.enc.inputIndex) →
        step s = .next t → t.phase = .encoding →
        ∀ slot, t.htab.read slot = 0#32 ∨ (t.htab.read slot).toNat < t.enc.inputIndex)
    ∧ (∀ s t : State, MachineInv s → s.phase = .encoding → s.enc.inputIndex + 3 ≤ s.nIn →
        (candidate s = 0 ∨ s.enc.inputIndex ≤ candidate s) → step s = .next t → t.enc.valid = false)

/-- 10_state R11: no step writes IN, whatever the state and however the step ends. That it holds of the
bytes lent from `n_in` up too is the model's choice where the lent extents share a location (DESIGN
CHOICE, notes/assumptions/29.md). -/
def Obligations.InputNeverWritten : Prop :=
  ∀ s t : State, step s = .next t → t.input = s.input

/-- 41_decoder R111: DECODE, from its acceptance to its end, leaves HTAB as it was. -/
def Obligations.DecodeLeavesHashTable : Prop :=
  (∀ (nIn nOut : Word32) (c : BitVec 1) (s t : State),
      exec (.decode nIn nOut c) s = .next t → t.htab = s.htab)
    ∧ (∀ s t : State, s.phase = .decoding → step s = .next t → t.htab = s.htab)

/-- 42_commands R124 (the spec's decision D3): the response stays until a command ends; a step that
changes it leaves the block IDLE. -/
def Obligations.ResponseStaysUntilEnd : Prop :=
  ∀ s t : State, step s = .next t → t.phase ≠ .idle → t.response = s.response

/-- While a command runs its latched record and the lent regions stay as they were and no command is
taken (10_state R22, R24, 42_commands R122). That the decoder's registers stay as they were during ENCODE
and the encoder's during DECODE is the model's choice of two register sets: DESIGN CHOICE,
notes/assumptions/2.md; 10_state R10 allows one set, and of a block with one these two clauses are
false. The fields `inRegion`, `outRegion` and `presented` are the model's own (DESIGN CHOICE,
notes/assumptions/9.md, 29.md and 10.md). -/
def Obligations.RunningCommandKeepsRecord : Prop :=
  ∀ s t : State, s.phase ≠ .idle → step s = .next t →
    t.command = s.command ∧ t.inRegion = s.inRegion ∧ t.outRegion = s.outRegion
      ∧ t.presented = s.presented ∧ (t.phase = s.phase ∨ t.phase = .idle)
      ∧ (s.phase = .encoding → t.dec = s.dec) ∧ (s.phase = .decoding → t.enc = s.enc)

/-! ### Whole commands -/

/-- 40_encoder R96 (the spec's inference): a running ENCODE ends after at most one step per input byte
left and one for the tail. -/
def Obligations.EncodeTerminates : Prop :=
  ∀ s : State, MachineInv s → s.phase = .encoding →
    ∃ t, runToIdle (s.nIn - s.enc.inputIndex + 1) s = .next t ∧ t.phase = .idle

/-- 41_decoder R113 (the spec's inference): a running DECODE ends after at most one record per two frame
bytes left and one step for the end. -/
def Obligations.DecodeTerminates : Prop :=
  ∀ s : State, MachineInv s → s.phase = .decoding →
    ∃ t, runToIdle ((s.nIn - s.dec.inputIndex) / 2 + 1) s = .next t ∧ t.phase = .idle

/-- The contract of DECODE (41_decoder section 1, R100), with OUT lent above IN: DECODE of any bytes ends
and leaves HTAB alone; on a valid frame it gives exactly the bytes the frame stands for if they fit in
OUT and InsufficientBuffer if not; on any other bytes it ends with an error. That it ends within one step
per two bytes and one more, and with DataCorruption where OUT has 88 bytes for each frame byte, so that
its room cannot run out, rests on 41_decoder section 4 (R113), which is the spec's inference. -/
def Obligations.DecodeMeetsContract : Prop :=
  ∀ (s : State) (frame : List Byte) (nOut : Word32) (c : BitVec 1) (inBase outBase : Nat),
    s.phase = .idle → frame.length ≤ Config.nMax → inBase + frame.length ≤ outBase →
    ∃ s1 t, hostLend inBase frame outBase nOut.toNat s = .next s1
      ∧ runCommand (frame.length / 2 + 1)
          { op := 1#1, nIn := BitVec.ofNat 32 frame.length, nOut := nOut, clearHtab := c } s1 = .next t
      ∧ t.phase = .idle ∧ t.htab = s.htab
      ∧ (∀ bytes, StandsFor frame bytes →
          (bytes.length ≤ nOut.toNat → t.response.status = .ok
            ∧ t.response.written.toNat = bytes.length ∧ t.output.slice 0 bytes.length = bytes)
          ∧ (nOut.toNat < bytes.length → t.response.status = .insufficientBuffer
            ∧ t.response.written = 0#32))
      ∧ ((¬ ∃ bytes, StandsFor frame bytes) →
          (t.response.status = .insufficientBuffer ∨ t.response.status = .dataCorruption)
            ∧ t.response.written = 0#32
            ∧ (88 * frame.length ≤ nOut.toNat → t.response.status = .dataCorruption))

/-- The block's main property (40_encoder R70 and R94), with OUT lent above IN: ENCODE of any input ends, whatever HTAB held,
whatever `clear_htab` and `n_out`, with InsufficientBuffer or with OK; with OK, OUT below `written` is a
valid frame for the input, and DECODE of it gives back the input exactly for every output length from
`n_in` up, and InsufficientBuffer below it. That ENCODE ends within one step per input byte and one more,
and DECODE within one per two frame bytes and one more, rests on 40_encoder section 6 (R96) and
41_decoder section 4 (R113), which are the spec's inference. -/
def Obligations.DecodeUndoesEncode : Prop :=
  ∀ (s : State) (input : List Byte) (nOut : Word32) (c : BitVec 1) (inBase outBase : Nat),
    s.phase = .idle → input.length ≤ Config.nMax → inBase + input.length ≤ outBase →
    ∃ s1 t, hostLend inBase input outBase nOut.toNat s = .next s1
      ∧ runCommand (input.length + 1)
          { op := 0#1, nIn := BitVec.ofNat 32 input.length, nOut := nOut, clearHtab := c } s1 = .next t
      ∧ t.phase = .idle
      ∧ ((t.response.status = .insufficientBuffer ∧ t.response.written = 0#32)
        ∨ (t.response.status = .ok
          ∧ StandsFor (t.output.slice 0 t.response.written.toNat) input
          ∧ ∀ (m : Word32) (c' : BitVec 1) (inBase' outBase' : Nat),
              inBase' + t.response.written.toNat ≤ outBase' →
              ∃ t1 u,
                hostLend inBase' (t.output.slice 0 t.response.written.toNat) outBase' m.toNat t = .next t1
                ∧ runCommand (t.response.written.toNat / 2 + 1)
                    { op := 1#1, nIn := t.response.written, nOut := m, clearHtab := c' } t1 = .next u
                ∧ u.phase = .idle
                ∧ (input.length ≤ m.toNat → u.response.status = .ok
                    ∧ u.response.written.toNat = input.length ∧ u.output.slice 0 input.length = input)
                ∧ (m.toNat < input.length → u.response.status = .insufficientBuffer
                    ∧ u.response.written = 0#32)))

/-- 41_decoder R114 (the spec's inference): the result of DECODE depends on the frame and `n_out` only,
not on what OUT or HTAB held, on the registers or on any earlier command. -/
def Obligations.DecodeDependsOnFrameOnly : Prop :=
  ∀ (s s' s1 s1' t t' : State) (frame : List Byte) (nOut : Word32) (c c' : BitVec 1)
    (inBase outBase inBase' outBase' fuel fuel' : Nat),
    frame.length ≤ Config.nMax →
    hostLend inBase frame outBase nOut.toNat s = .next s1 →
    hostLend inBase' frame outBase' nOut.toNat s' = .next s1' →
    runCommand fuel { op := 1#1, nIn := BitVec.ofNat 32 frame.length, nOut := nOut, clearHtab := c } s1
      = .next t →
    runCommand fuel' { op := 1#1, nIn := BitVec.ofNat 32 frame.length, nOut := nOut, clearHtab := c' } s1'
      = .next t' →
    t.phase = .idle → t'.phase = .idle →
    t.response = t'.response
      ∧ t.output.slice 0 t.response.written.toNat = t'.output.slice 0 t.response.written.toNat

/-- 40_encoder R93: the frame of a successful ENCODE depends on the input and on HTAB at the start of the
lookups only; `n_out` decides only whether it fails (the spec's inference); with `clear_htab = 1` it is a
function of the input alone. -/
def Obligations.EncodeDependsOnInputAndTable : Prop :=
  ∀ (s s' s1 s1' t t' : State) (input : List Byte) (nOut nOut' : Word32) (c : BitVec 1)
    (inBase outBase inBase' outBase' fuel fuel' : Nat),
    input.length ≤ Config.nMax →
    (c = 1#1 ∨ ∀ slot, s.htab.read slot = s'.htab.read slot) →
    hostLend inBase input outBase nOut.toNat s = .next s1 →
    hostLend inBase' input outBase' nOut'.toNat s' = .next s1' →
    runCommand fuel { op := 0#1, nIn := BitVec.ofNat 32 input.length, nOut := nOut, clearHtab := c } s1
      = .next t →
    runCommand fuel' { op := 0#1, nIn := BitVec.ofNat 32 input.length, nOut := nOut', clearHtab := c } s1'
      = .next t' →
    t.phase = .idle → t'.phase = .idle →
    (nOut = nOut' → t.response = t'.response)
      ∧ (t.response.status = .ok → t'.response.status = .ok →
          t.response = t'.response
            ∧ t.output.slice 0 t.response.written.toNat = t'.output.slice 0 t.response.written.toNat)

/-- 95_test_vectors T1 (the spec's inference): `n_in + floor(n_in / 32) + 4` bytes of OUT, lent above IN,
are always enough for ENCODE, for every input and every initial HTAB; it ends within the steps of
40_encoder R96 (the spec's inference too). -/
def Obligations.EncodeRoomAlwaysEnough : Prop :=
  ∀ (s : State) (input : List Byte) (nOut : Word32) (c : BitVec 1) (inBase outBase : Nat),
    s.phase = .idle → input.length ≤ Config.nMax → inBase + input.length ≤ outBase →
    input.length + input.length / 32 + 4 ≤ nOut.toNat →
    ∃ s1 t, hostLend inBase input outBase nOut.toNat s = .next s1
      ∧ runCommand (input.length + 1)
          { op := 0#1, nIn := BitVec.ofNat 32 input.length, nOut := nOut, clearHtab := c } s1 = .next t
      ∧ t.phase = .idle ∧ t.response.status = .ok

/-- 40_encoder R97 (the spec's inference): for an input in which no three bytes occur twice, no match is
ever valid, ENCODE succeeds exactly when `n_out ≥ 4 + k + floor(k / 32)` with `k = max(n_in - 2, 0)`, and
the frame has `n_in + ceil(n_in / 32)` bytes. OUT is lent above IN, and the steps are those of R96 (the
spec's inference too). -/
def Obligations.RoomWithoutMatches : Prop :=
  ∀ (s : State) (input : List Byte) (nOut : Word32) (c : BitVec 1) (inBase outBase : Nat),
    s.phase = .idle → input.length ≤ Config.nMax → inBase + input.length ≤ outBase →
    0 < input.length →
    (∀ i j, i < j → j + 3 ≤ input.length →
      (input.drop i).take 3 ≠ (input.drop j).take 3) →
    let k := input.length - 2
    ∃ s1 t, hostLend inBase input outBase nOut.toNat s = .next s1
      ∧ runCommand (input.length + 1)
          { op := 0#1, nIn := BitVec.ofNat 32 input.length, nOut := nOut, clearHtab := c } s1 = .next t
      ∧ t.phase = .idle
      ∧ (4 + k + k / 32 ≤ nOut.toNat → t.response.status = .ok
          ∧ t.response.written.toNat = input.length + (input.length + 31) / 32)
      ∧ (nOut.toNat < 4 + k + k / 32 → t.response.status = .insufficientBuffer)

/-! ### Reset, response codes, the host -/

/-- 10_state R29 and 70_reset R150 (the spec's decision D16): after reset the block is IDLE, the response
reads (0, 0), nothing is pending, and every entry of HTAB is a free value (notes/assumptions/5.md). -/
def Obligations.ResetValues : Prop :=
  State.reset.phase = .idle ∧ State.reset.response.status.code = 0#2
    ∧ State.reset.response.written = 0#32 ∧ State.reset.presented = none
    ∧ ∀ slot : Slot, ∃ e, State.reset.htab.read slot = Config.freeEntry e slot.toNat

/-- 70_reset R151 (the spec's decision D16): reset during a command abandons it: IDLE, the response as
after reset, HTAB and every byte of OUT unspecified, no byte outside OUT and none of IN written
(60_exceptions R137). The model's own are the free values of a new event that stand for what is
unspecified (DESIGN CHOICE, notes/assumptions/5.md and 6.md) and that all it holds of IN is kept (DESIGN
CHOICE, notes/assumptions/23.md; for the bytes of IN from `n_in` up, where the lent extents share a
location, 29.md, unsafe). -/
def Obligations.ResetAbandonsCommand : Prop :=
  ∀ s : State, s.phase ≠ .idle →
    (hostReset s).phase = .idle ∧ (hostReset s).presented = none
      ∧ (hostReset s).response = State.reset.response
      ∧ (∀ slot : Slot, (hostReset s).htab.read slot = Config.freeEntry s.freeCount slot.toNat)
      ∧ (∀ a, a < s.nOut → (hostReset s).output.read a = Config.freeByte s.freeCount a)
      ∧ (∀ a, s.nOut ≤ a → (hostReset s).output.read a = s.output.read a)
      ∧ (hostReset s).input = s.input

/-- 60_exceptions R130 (the spec's decision D4): the codes of the four statuses, and every code names
one. -/
def Obligations.StatusCodes : Prop :=
  Status.ok.code = 0#2 ∧ Status.insufficientBuffer.code = 1#2 ∧ Status.dataCorruption.code = 2#2
    ∧ Status.unknown.code = 3#2 ∧ (∀ st : Status, Status.ofCode st.code = st)
    ∧ ∀ code : BitVec 2, (Status.ofCode code).code = code

/-- 70_reset R155 (the spec's decision D7): while a command runs the host has no move on IN or OUT; when
it is over and OK it may read OUT below `written`, and nothing else (R153). -/
def Obligations.HostMovesOnlyWhenIdle : Prop :=
  (∀ (s : State) (inBase outBase extent a : Nat) (bytes : List Byte), s.phase ≠ .idle →
      hostLend inBase bytes outBase extent s = .refused .hostTouchedRegion
        ∧ hostReadOut a s = .error .hostTouchedRegion)
    ∧ (∀ (s : State) (a : Nat), s.phase = .idle →
        (s.response.status = .ok → a < s.response.written.toNat →
          hostReadOut a s = .ok (some (s.output.read a)))
        ∧ ((s.response.status ≠ .ok ∨ s.response.written.toNat ≤ a) → hostReadOut a s = .ok none))
end

