-- ==== Sys2Proof/Laws/State.lean ====
section
/-! SUPPORT. One lemma per field per named update of State, so that no proof unfolds a record update. -/

namespace Sys2Proof.Machine

variable (s : State)

/-! ### withOutput -/

@[simp] theorem State.withOutput_input (m : Memory) : (s.withOutput m).input = s.input := rfl
@[simp] theorem State.withOutput_output (m : Memory) : (s.withOutput m).output = m := rfl
@[simp] theorem State.withOutput_htab (m : Memory) : (s.withOutput m).htab = s.htab := rfl
@[simp] theorem State.withOutput_enc (m : Memory) : (s.withOutput m).enc = s.enc := rfl
@[simp] theorem State.withOutput_dec (m : Memory) : (s.withOutput m).dec = s.dec := rfl
@[simp] theorem State.withOutput_command (m : Memory) : (s.withOutput m).command = s.command := rfl
@[simp] theorem State.withOutput_response (m : Memory) : (s.withOutput m).response = s.response := rfl
@[simp] theorem State.withOutput_phase (m : Memory) : (s.withOutput m).phase = s.phase := rfl
@[simp] theorem State.withOutput_presented (m : Memory) : (s.withOutput m).presented = s.presented := rfl
@[simp] theorem State.withOutput_inRegion (m : Memory) : (s.withOutput m).inRegion = s.inRegion := rfl
@[simp] theorem State.withOutput_outRegion (m : Memory) : (s.withOutput m).outRegion = s.outRegion := rfl
@[simp] theorem State.withOutput_freeCount (m : Memory) : (s.withOutput m).freeCount = s.freeCount := rfl
@[simp] theorem State.withOutput_nIn (m : Memory) : (s.withOutput m).nIn = s.nIn := rfl
@[simp] theorem State.withOutput_nOut (m : Memory) : (s.withOutput m).nOut = s.nOut := rfl

/-! ### withHtab -/

@[simp] theorem State.withHtab_input (t : HashTable) : (s.withHtab t).input = s.input := rfl
@[simp] theorem State.withHtab_output (t : HashTable) : (s.withHtab t).output = s.output := rfl
@[simp] theorem State.withHtab_htab (t : HashTable) : (s.withHtab t).htab = t := rfl
@[simp] theorem State.withHtab_enc (t : HashTable) : (s.withHtab t).enc = s.enc := rfl
@[simp] theorem State.withHtab_dec (t : HashTable) : (s.withHtab t).dec = s.dec := rfl
@[simp] theorem State.withHtab_command (t : HashTable) : (s.withHtab t).command = s.command := rfl
@[simp] theorem State.withHtab_response (t : HashTable) : (s.withHtab t).response = s.response := rfl
@[simp] theorem State.withHtab_phase (t : HashTable) : (s.withHtab t).phase = s.phase := rfl
@[simp] theorem State.withHtab_presented (t : HashTable) : (s.withHtab t).presented = s.presented := rfl
@[simp] theorem State.withHtab_inRegion (t : HashTable) : (s.withHtab t).inRegion = s.inRegion := rfl
@[simp] theorem State.withHtab_outRegion (t : HashTable) : (s.withHtab t).outRegion = s.outRegion := rfl
@[simp] theorem State.withHtab_freeCount (t : HashTable) : (s.withHtab t).freeCount = s.freeCount := rfl
@[simp] theorem State.withHtab_nIn (t : HashTable) : (s.withHtab t).nIn = s.nIn := rfl
@[simp] theorem State.withHtab_nOut (t : HashTable) : (s.withHtab t).nOut = s.nOut := rfl

/-! ### withEnc -/

@[simp] theorem State.withEnc_input (e : EncoderRegs) : (s.withEnc e).input = s.input := rfl
@[simp] theorem State.withEnc_output (e : EncoderRegs) : (s.withEnc e).output = s.output := rfl
@[simp] theorem State.withEnc_htab (e : EncoderRegs) : (s.withEnc e).htab = s.htab := rfl
@[simp] theorem State.withEnc_enc (e : EncoderRegs) : (s.withEnc e).enc = e := rfl
@[simp] theorem State.withEnc_dec (e : EncoderRegs) : (s.withEnc e).dec = s.dec := rfl
@[simp] theorem State.withEnc_command (e : EncoderRegs) : (s.withEnc e).command = s.command := rfl
@[simp] theorem State.withEnc_response (e : EncoderRegs) : (s.withEnc e).response = s.response := rfl
@[simp] theorem State.withEnc_phase (e : EncoderRegs) : (s.withEnc e).phase = s.phase := rfl
@[simp] theorem State.withEnc_presented (e : EncoderRegs) : (s.withEnc e).presented = s.presented := rfl
@[simp] theorem State.withEnc_inRegion (e : EncoderRegs) : (s.withEnc e).inRegion = s.inRegion := rfl
@[simp] theorem State.withEnc_outRegion (e : EncoderRegs) : (s.withEnc e).outRegion = s.outRegion := rfl
@[simp] theorem State.withEnc_freeCount (e : EncoderRegs) : (s.withEnc e).freeCount = s.freeCount := rfl
@[simp] theorem State.withEnc_nIn (e : EncoderRegs) : (s.withEnc e).nIn = s.nIn := rfl
@[simp] theorem State.withEnc_nOut (e : EncoderRegs) : (s.withEnc e).nOut = s.nOut := rfl

/-! ### withDec -/

@[simp] theorem State.withDec_input (d : DecoderRegs) : (s.withDec d).input = s.input := rfl
@[simp] theorem State.withDec_output (d : DecoderRegs) : (s.withDec d).output = s.output := rfl
@[simp] theorem State.withDec_htab (d : DecoderRegs) : (s.withDec d).htab = s.htab := rfl
@[simp] theorem State.withDec_enc (d : DecoderRegs) : (s.withDec d).enc = s.enc := rfl
@[simp] theorem State.withDec_dec (d : DecoderRegs) : (s.withDec d).dec = d := rfl
@[simp] theorem State.withDec_command (d : DecoderRegs) : (s.withDec d).command = s.command := rfl
@[simp] theorem State.withDec_response (d : DecoderRegs) : (s.withDec d).response = s.response := rfl
@[simp] theorem State.withDec_phase (d : DecoderRegs) : (s.withDec d).phase = s.phase := rfl
@[simp] theorem State.withDec_presented (d : DecoderRegs) : (s.withDec d).presented = s.presented := rfl
@[simp] theorem State.withDec_inRegion (d : DecoderRegs) : (s.withDec d).inRegion = s.inRegion := rfl
@[simp] theorem State.withDec_outRegion (d : DecoderRegs) : (s.withDec d).outRegion = s.outRegion := rfl
@[simp] theorem State.withDec_freeCount (d : DecoderRegs) : (s.withDec d).freeCount = s.freeCount := rfl
@[simp] theorem State.withDec_nIn (d : DecoderRegs) : (s.withDec d).nIn = s.nIn := rfl
@[simp] theorem State.withDec_nOut (d : DecoderRegs) : (s.withDec d).nOut = s.nOut := rfl

/-! ### nextFree -/

@[simp] theorem State.nextFree_input : (s.nextFree).input = s.input := rfl
@[simp] theorem State.nextFree_output : (s.nextFree).output = s.output := rfl
@[simp] theorem State.nextFree_htab : (s.nextFree).htab = s.htab := rfl
@[simp] theorem State.nextFree_enc : (s.nextFree).enc = s.enc := rfl
@[simp] theorem State.nextFree_dec : (s.nextFree).dec = s.dec := rfl
@[simp] theorem State.nextFree_command : (s.nextFree).command = s.command := rfl
@[simp] theorem State.nextFree_response : (s.nextFree).response = s.response := rfl
@[simp] theorem State.nextFree_phase : (s.nextFree).phase = s.phase := rfl
@[simp] theorem State.nextFree_presented : (s.nextFree).presented = s.presented := rfl
@[simp] theorem State.nextFree_inRegion : (s.nextFree).inRegion = s.inRegion := rfl
@[simp] theorem State.nextFree_outRegion : (s.nextFree).outRegion = s.outRegion := rfl
@[simp] theorem State.nextFree_freeCount : (s.nextFree).freeCount = s.freeCount + 1 := rfl
@[simp] theorem State.nextFree_nIn : (s.nextFree).nIn = s.nIn := rfl
@[simp] theorem State.nextFree_nOut : (s.nextFree).nOut = s.nOut := rfl

@[simp] theorem State.withOutput_withOutput (x y : Memory) : (s.withOutput x).withOutput y = s.withOutput y := rfl
@[simp] theorem State.withHtab_withHtab (x y : HashTable) : (s.withHtab x).withHtab y = s.withHtab y := rfl
@[simp] theorem State.withEnc_withEnc (x y : EncoderRegs) : (s.withEnc x).withEnc y = s.withEnc y := rfl
@[simp] theorem State.withDec_withDec (x y : DecoderRegs) : (s.withDec x).withDec y = s.withDec y := rfl

end Sys2Proof.Machine
end

