-- ==== Sys2Proof/Laws/Memory.lean ====
section
/-! SUPPORT. The laws of the sparse memories: what a read gives after a write or after the bytes became
unspecified, and that every operation keeps the canonical form. -/

namespace Sys2Proof.Machine

variable {α : Type}

/-! ### Cell lists -/

@[simp] theorem lookupCell_nil (a : Nat) : lookupCell a ([] : List (Nat × α)) = none := rfl

@[simp] theorem lookupCell_insert_self (a : Nat) (v : α) (cells : List (Nat × α)) :
    lookupCell a (insertCell a v cells) = some v := by
  induction cells with
  | nil => simp [insertCell, lookupCell]
  | cons c t ih =>
    obtain ⟨b, w⟩ := c
    unfold insertCell
    split
    · simp [lookupCell]
    · split
      · simp [lookupCell]
      · simp [lookupCell, *]

theorem lookupCell_insert_of_ne {a b : Nat} (h : a ≠ b) (v : α) (cells : List (Nat × α)) :
    lookupCell a (insertCell b v cells) = lookupCell a cells := by
  induction cells with
  | nil => simp [insertCell, lookupCell, h]
  | cons c t ih =>
    obtain ⟨d, w⟩ := c
    unfold insertCell
    split
    · simp [lookupCell, h]
    · split
      · next _ hb => subst hb; simp [lookupCell, h]
      · simp [lookupCell, ih]

theorem lookupCell_keep (keep : Nat → Bool) (a : Nat) (cells : List (Nat × α)) :
    lookupCell a (keepCells keep cells) = if keep a then lookupCell a cells else none := by
  induction cells with
  | nil => simp [keepCells]
  | cons c t ih =>
    obtain ⟨b, w⟩ := c
    unfold keepCells at ih ⊢
    by_cases hb : keep b
    · rw [List.filter_cons_of_pos (by simpa using hb)]
      by_cases hab : a = b
      · subst hab; simp [lookupCell, hb]
      · simp [lookupCell, hab, ih]
    · rw [List.filter_cons_of_neg (by simpa using hb), ih]
      by_cases hab : a = b
      · subst hab; simp [hb]
      · simp [lookupCell, hab]

theorem insertCell_mem {a : Nat} {v : α} {cells : List (Nat × α)} {c : Nat × α}
    (h : c ∈ insertCell a v cells) : c = (a, v) ∨ c ∈ cells := by
  induction cells with
  | nil => simpa [insertCell] using h
  | cons d t ih =>
    obtain ⟨b, w⟩ := d
    unfold insertCell at h
    split at h
    · simpa using h
    · split at h
      · simp only [List.mem_cons] at h ⊢; tauto
      · simp only [List.mem_cons] at h ⊢
        rcases h with h | h
        · exact .inr (.inl h)
        · exact (ih h).imp_right .inr

theorem rising_insert (a : Nat) (v : α) {cells : List (Nat × α)} (h : Rising cells) :
    Rising (insertCell a v cells) := by
  induction cells with
  | nil => simp [insertCell, Rising]
  | cons c t ih =>
    obtain ⟨b, w⟩ := c
    have hc := List.pairwise_cons.mp h
    unfold insertCell
    split
    · next hab =>
      refine List.pairwise_cons.mpr ⟨fun d hd => ?_, h⟩
      rcases List.mem_cons.mp hd with rfl | hd
      · exact hab
      · exact hab.trans (hc.1 d hd)
    · split
      · next hab => subst hab; exact List.pairwise_cons.mpr ⟨hc.1, hc.2⟩
      · next hlt hne =>
        refine List.pairwise_cons.mpr ⟨fun d hd => ?_, ih hc.2⟩
        rcases insertCell_mem hd with rfl | hd
        · show b < a
          omega
        · exact hc.1 d hd

theorem rising_keep (keep : Nat → Bool) {cells : List (Nat × α)} (h : Rising cells) :
    Rising (keepCells keep cells) := List.Pairwise.sublist List.filter_sublist h

/-! ### Byte regions -/

@[simp] theorem Memory.read_write_self (m : Memory) (a : Nat) (v : Byte) : (m.write a v).read a = v := by
  simp [Memory.read, Memory.write]

theorem Memory.read_write_of_ne (m : Memory) {a b : Nat} (h : a ≠ b) (v : Byte) :
    (m.write b v).read a = m.read a := by
  simp [Memory.read, Memory.write, lookupCell_insert_of_ne h, Memory.unlisted, Memory.epochAt]

theorem Memory.read_write (m : Memory) (a b : Nat) (v : Byte) :
    (m.write b v).read a = if a = b then v else m.read a := by
  split
  · next h => subst h; simp
  · next h => exact m.read_write_of_ne h v

theorem Memory.read_forget (m : Memory) (lo hi e a : Nat) :
    (m.forget lo hi e).read a = if lo ≤ a ∧ a < hi then Config.freeByte e a else m.read a := by
  unfold Memory.forget
  split
  · next hlt =>
    by_cases ha : lo ≤ a ∧ a < hi
    · simp [Memory.read, lookupCell_keep, Memory.unlisted, Memory.epochAt, Mark.covers, ha]
      have h1 : ¬ (a < lo ∨ hi ≤ a) := by omega
      simp [h1]
    · have h1 : a < lo ∨ hi ≤ a := by omega
      have h2 : (decide (lo ≤ a) && decide (a < hi)) = false := by
        simpa [← Bool.decide_and] using ha
      simp [Memory.read, lookupCell_keep, Memory.unlisted, Memory.epochAt, Mark.covers, ha, h1, h2]
  · next hge => rw [if_neg (by omega)]

theorem Memory.read_forget_of_lt (m : Memory) {lo hi e a : Nat} (h : a < lo) :
    (m.forget lo hi e).read a = m.read a := by
  rw [Memory.read_forget, if_neg (by omega)]

theorem Memory.read_forget_of_ge (m : Memory) {lo hi e a : Nat} (h : hi ≤ a) :
    (m.forget lo hi e).read a = m.read a := by
  rw [Memory.read_forget, if_neg (by omega)]

theorem cellsFrom_key_ge {a : Nat} {vs : List Byte} {c : Host.Cell} (h : c ∈ cellsFrom a vs) : a ≤ c.1 := by
  induction vs generalizing a with
  | nil => simp [cellsFrom] at h
  | cons v t ih =>
    rcases List.mem_cons.mp h with rfl | h
    · exact Nat.le_refl _
    · have := ih h
      omega

theorem rising_cellsFrom (a : Nat) (vs : List Byte) : Rising (cellsFrom a vs) := by
  induction vs generalizing a with
  | nil => simp [cellsFrom, Rising]
  | cons v t ih =>
    exact List.pairwise_cons.mpr ⟨fun c hc => cellsFrom_key_ge hc, ih (a + 1)⟩

theorem lookupCell_cellsFrom (a k : Nat) (vs : List Byte) :
    lookupCell (a + k) (cellsFrom a vs) = vs[k]? := by
  induction vs generalizing a k with
  | nil => simp [cellsFrom]
  | cons v t ih =>
    cases k with
    | zero => simp [cellsFrom, lookupCell]
    | succ k =>
      have h := ih (a + 1) k
      rw [show a + 1 + k = a + (k + 1) by omega] at h
      simp [cellsFrom, lookupCell, h]

/-- A region the host filled reads back as the bytes it was filled with. -/
theorem Memory.read_ofBytes (base : Nat) (vs : List Byte) {k : Nat} (h : k < vs.length) :
    (Memory.ofBytes base vs).read k = vs[k] := by
  have := lookupCell_cellsFrom 0 k vs
  simp only [Nat.zero_add] at this
  simp [Memory.read, Memory.ofBytes, this, List.getElem?_eq_getElem h]

@[simp] theorem Memory.slice_length (m : Memory) (a n : Nat) : (m.slice a n).length = n := by
  simp [Memory.slice]

theorem Memory.slice_getElem (m : Memory) (a n k : Nat) (h : k < (m.slice a n).length) :
    (m.slice a n)[k] = m.read (a + k) := by
  simp [Memory.slice]

@[simp] theorem Memory.slice_zero (m : Memory) (a : Nat) : m.slice a 0 = [] := rfl

theorem Memory.slice_succ (m : Memory) (a n : Nat) : m.slice a (n + 1) = m.slice a n ++ [m.read (a + n)] := by
  simp [Memory.slice, List.range_succ]

theorem Memory.slice_cons (m : Memory) (a n : Nat) : m.slice a (n + 1) = m.read a :: m.slice (a + 1) n := by
  simp only [Memory.slice, List.range_succ_eq_map, List.map_cons, List.map_map, Nat.add_zero]
  congr 1
  apply List.map_congr_left
  intro k _
  simp [Nat.add_left_comm, Nat.add_comm]

theorem Memory.slice_add (m : Memory) (a n k : Nat) : m.slice a (n + k) = m.slice a n ++ m.slice (a + n) k := by
  induction k with
  | zero => simp
  | succ k ih => rw [← Nat.add_assoc, Memory.slice_succ, ih, Memory.slice_succ, List.append_assoc, Nat.add_assoc]

theorem Memory.slice_congr {m m' : Memory} {a n : Nat} (h : ∀ k, k < n → m.read (a + k) = m'.read (a + k)) :
    m.slice a n = m'.slice a n := by
  unfold Memory.slice
  exact List.map_congr_left fun k hk => h k (List.mem_range.mp hk)

/-- Bytes below those that became unspecified read as before. -/
theorem Memory.slice_forget (m : Memory) (lo hi e a n : Nat) (h : a + n ≤ lo) :
    (m.forget lo hi e).slice a n = m.slice a n :=
  Memory.slice_congr fun k hk => by rw [Memory.read_forget, if_neg (by omega)]

theorem Memory.slice_ofBytes (base : Nat) (vs : List Byte) :
    (Memory.ofBytes base vs).slice 0 vs.length = vs := by
  apply List.ext_getElem
  · simp
  · intro k h1 h2
    rw [Memory.slice_getElem, Nat.zero_add, Memory.read_ofBytes base vs h2]

theorem Memory.wf_write {m : Memory} (h : m.wf) (a : Nat) (v : Byte) : (m.write a v).wf :=
  ⟨rising_insert a v h.1, h.2⟩

theorem Memory.wf_forget {m : Memory} (h : m.wf) (lo hi e : Nat) : (m.forget lo hi e).wf := by
  unfold Memory.forget
  split
  · next hlt =>
    refine ⟨rising_keep (fun a => decide (a < lo) || decide (hi ≤ a)) h.1, fun k hk => ?_⟩
    rcases List.mem_cons.mp hk with rfl | hk
    · exact hlt
    · exact h.2 k hk
  · exact h

theorem Memory.wf_ofBytes (base : Nat) (vs : List Byte) : (Memory.ofBytes base vs).wf :=
  ⟨rising_cellsFrom 0 vs, by simp [Memory.ofBytes]⟩

/-! ### The hash table -/

theorem HashTable.isUnlisted_eq {t : HashTable} {v : Word32} (h : t.isUnlisted v = true) (s : Nat) :
    t.unlisted s = v := by
  cases hb : t.base <;> simp_all [HashTable.isUnlisted, HashTable.unlisted]

@[simp] theorem HashTable.write_base (t : HashTable) (s : Slot) (v : Word32) : (t.write s v).base = t.base := by
  unfold HashTable.write
  split <;> rfl

theorem HashTable.read_write (t : HashTable) (s s' : Slot) (v : Word32) :
    (t.write s v).read s' = if s' = s then v else t.read s' := by
  have hne : s' ≠ s → s'.toNat ≠ s.toNat := fun h hn => h (BitVec.eq_of_toNat_eq hn)
  unfold HashTable.write
  split
  · next hu =>
    by_cases h : s' = s
    · subst h
      simp only [HashTable.read, lookupCell_keep]
      simpa [HashTable.unlisted] using t.isUnlisted_eq hu s'.toNat
    · simp [HashTable.read, lookupCell_keep, hne h, h, HashTable.unlisted]
  · by_cases h : s' = s
    · subst h; simp [HashTable.read]
    · simp [HashTable.read, lookupCell_insert_of_ne (hne h), h, HashTable.unlisted]

@[simp] theorem HashTable.read_write_self (t : HashTable) (s : Slot) (v : Word32) :
    (t.write s v).read s = v := by simp [HashTable.read_write]

@[simp] theorem HashTable.read_cleared (s : Slot) : HashTable.cleared.read s = 0#32 := rfl

theorem HashTable.isUnlisted_write (t : HashTable) (s : Slot) (v w : Word32) :
    (t.write s v).isUnlisted w = t.isUnlisted w := by simp [HashTable.isUnlisted]

theorem HashTable.wf_write {t : HashTable} (h : t.wf) (s : Slot) (v : Word32) : (t.write s v).wf := by
  unfold HashTable.write
  split
  · refine ⟨rising_keep (fun a => decide (a ≠ s.toNat)) h.1, fun c hc => ?_⟩
    exact h.2 c (List.mem_of_mem_filter hc)
  · next hu =>
    refine ⟨rising_insert _ _ h.1, fun c hc => ?_⟩
    rcases insertCell_mem hc with rfl | hc
    · exact ⟨s.isLt, by simpa [HashTable.isUnlisted] using hu⟩
    · exact h.2 c hc

theorem HashTable.wf_cleared : HashTable.cleared.wf := by simp [HashTable.cleared, HashTable.wf, Rising]

theorem HashTable.wf_unspecified (e : Nat) : (HashTable.unspecified e).wf := by
  simp [HashTable.unspecified, HashTable.wf, Rising]

/-! ### Equal contents are equal data -/

theorem lookupCell_of_mem {cells : List (Nat × α)} (h : Rising cells) {c : Nat × α} (hc : c ∈ cells) :
    lookupCell c.1 cells = some c.2 := by
  induction cells with
  | nil => simp at hc
  | cons d t ih =>
    obtain ⟨b, w⟩ := d
    have hd := List.pairwise_cons.mp h
    rcases List.mem_cons.mp hc with rfl | hc
    · simp [lookupCell]
    · have hlt : b < c.1 := hd.1 c hc
      have hne : c.1 ≠ b := by omega
      simp [lookupCell, hne, ih hd.2 hc]

theorem lookupCell_mem {cells : List (Nat × α)} {a : Nat} {v : α} (h : lookupCell a cells = some v) :
    (a, v) ∈ cells := by
  induction cells with
  | nil => simp at h
  | cons d t ih =>
    obtain ⟨b, w⟩ := d
    unfold lookupCell at h
    split at h
    · next hab => subst hab; simp_all
    · exact List.mem_cons_of_mem _ (ih h)

/-- Two lists in canonical form that list the same values at the same keys are the same list. -/
theorem rising_ext {cells cells' : List (Nat × α)} (h : Rising cells) (h' : Rising cells')
    (heq : ∀ a, lookupCell a cells = lookupCell a cells') : cells = cells' := by
  have nodup : ∀ {l : List (Nat × α)}, Rising l → l.Nodup := fun hl =>
    hl.imp fun {c d} hcd hne => by subst hne; exact Nat.lt_irrefl _ hcd
  have perm : cells.Perm cells' := (List.perm_ext_iff_of_nodup (nodup h) (nodup h')).mpr fun c => by
    constructor
    · intro hc
      exact lookupCell_mem ((heq c.1).symm.trans (lookupCell_of_mem h hc))
    · intro hc
      exact lookupCell_mem ((heq c.1).trans (lookupCell_of_mem h' hc))
  exact perm.eq_of_pairwise (fun c d _ _ hcd hdc => absurd hcd (by omega)) h h'

end Sys2Proof.Machine
end

