-- ==== Sys2Proof/Laws/Decode.lean ====
section
/-! SUPPORT. The laws of the fields of a record, and of the decoder: how a field reads back, what one
control byte selects, and that 33 bytes are enough to see a record. -/

namespace Sys2Proof

/-! ### Fields -/

/-- The two fields of a control byte read back, and make it up again. -/
theorem ctrl_fields :
    (∀ (hi : BitVec 3) (low : BitVec 5), ctrlClass (ctrlByte hi low) = hi ∧ ctrlLow (ctrlByte hi low) = low)
      ∧ ∀ c : Byte, ctrlByte (ctrlClass c) (ctrlLow c) = c := by decide

@[simp] theorem ctrlClass_ctrlByte (hi : BitVec 3) (low : BitVec 5) : ctrlClass (ctrlByte hi low) = hi :=
  (ctrl_fields.1 hi low).1

@[simp] theorem ctrlLow_ctrlByte (hi : BitVec 3) (low : BitVec 5) : ctrlLow (ctrlByte hi low) = low :=
  (ctrl_fields.1 hi low).2

@[simp] theorem ctrlByte_split (c : Byte) : ctrlByte (ctrlClass c) (ctrlLow c) = c := ctrl_fields.2 c

theorem ctrlClass_toNat (c : Byte) : (ctrlClass c).toNat = c.toNat / 32 := by
  unfold ctrlClass
  rw [BitVec.extractLsb'_toNat, Nat.shiftRight_eq_div_pow]
  have := c.isLt
  omega

theorem ctrlLow_toNat (c : Byte) : (ctrlLow c).toNat = c.toNat % 32 := by
  unfold ctrlLow
  rw [BitVec.extractLsb'_toNat, Nat.shiftRight_zero]

/-- The class of a control byte, as a division. -/
theorem ctrlClass_eq_iff (c : Byte) (k : Nat) (hk : k < 8) :
    ctrlClass c = BitVec.ofNat 3 k ↔ c.toNat / 32 = k := by
  rw [← BitVec.toNat_inj, ctrlClass_toNat, BitVec.toNat_ofNat]
  omega

theorem litCount_eq (c : Byte) : litCount c = c.toNat % 32 + 1 := by rw [litCount, ctrlLow_toNat]

theorem joinOff_toNat (hi : BitVec 5) (lo : Byte) : (joinOff hi lo).toNat = hi.toNat * 256 + lo.toNat := by
  unfold joinOff
  rw [BitVec.toNat_append, ← Nat.shiftLeft_add_eq_or_of_lt lo.isLt, Nat.shiftLeft_eq]

theorem offHi_toNat (off : Off) : (offHi off).toNat = off.toNat / 256 := by
  unfold offHi
  rw [BitVec.extractLsb'_toNat, Nat.shiftRight_eq_div_pow]
  have := off.isLt
  omega

theorem offLo_toNat (off : Off) : (offLo off).toNat = off.toNat % 256 := by
  unfold offLo
  rw [BitVec.extractLsb'_toNat, Nat.shiftRight_zero]

@[simp] theorem joinOff_split (off : Off) : joinOff (offHi off) (offLo off) = off := by
  apply BitVec.eq_of_toNat_eq
  rw [joinOff_toNat, offHi_toNat, offLo_toNat]
  omega

@[simp] theorem offHi_joinOff (hi : BitVec 5) (lo : Byte) : offHi (joinOff hi lo) = hi := by
  apply BitVec.eq_of_toNat_eq
  rw [offHi_toNat, joinOff_toNat]
  have := lo.isLt
  omega

@[simp] theorem offLo_joinOff (hi : BitVec 5) (lo : Byte) : offLo (joinOff hi lo) = lo := by
  apply BitVec.eq_of_toNat_eq
  rw [offLo_toNat, joinOff_toNat]
  have := lo.isLt
  omega

/-- `off` of a control byte and `off_lo`, as a number. -/
theorem joinOff_ctrlLow (c lo : Byte) :
    joinOff (ctrlLow c) lo = BitVec.ofNat 13 (c.toNat % 32 * 256 + lo.toNat) := by
  apply BitVec.eq_of_toNat_eq
  rw [joinOff_toNat, ctrlLow_toNat, BitVec.toNat_ofNat]
  have := lo.isLt
  omega

theorem wellFormed_lit (ls : List Byte) :
    (Instr.lit ls).wellFormed = true ↔ 1 ≤ ls.length ∧ ls.length ≤ 32 := by
  show (decide (1 ≤ ls.length) && decide (ls.length ≤ 32)) = true ↔ _
  simp

/-! ### The record decoder -/

/-- One equation for every control byte. -/
theorem decodeRecord_cons (c : Byte) (rest : List Byte) : decodeRecord (c :: rest) =
    if ctrlClass c = 0#3 then
      if rest.length < litCount c then .error (.literalsMissing c)
      else .ok (.lit (rest.take (litCount c)), rest.drop (litCount c))
    else if ctrlClass c = 7#3 then
      match rest with
      | [] => .error (.extensionMissing c)
      | [ext] => .error (.longOffsetMissing c ext)
      | ext :: lo :: rest' => .ok (.refx (joinOff (ctrlLow c) lo) ext, rest')
    else
      match rest with
      | [] => .error (.offsetMissing c)
      | lo :: rest' => .ok (shortRef (ctrlClass c) (joinOff (ctrlLow c) lo), rest') := by
  cases rest <;> rfl

/-- Cutting the bytes behind the longest record changes neither the record read nor the rejection. -/
theorem decodeRecord_take (bytes : List Byte) (n : Nat) (hn : longestRecord ≤ n) :
    (decodeRecord (bytes.take n)).map Prod.fst = (decodeRecord bytes).map Prod.fst := by
  obtain ⟨n, rfl⟩ : ∃ m, n = m + 3 := ⟨n - 3, by unfold longestRecord at hn; omega⟩
  cases bytes with
  | nil => rfl
  | cons c rest =>
    rw [List.take_succ_cons, decodeRecord_cons, decodeRecord_cons]
    split
    · have hc : litCount c ≤ n + 2 := by
        rw [litCount_eq]
        unfold longestRecord at hn
        omega
      rw [List.length_take, List.take_take, Nat.min_eq_left hc]
      by_cases hl : rest.length < litCount c
      · rw [if_pos hl, if_pos (by omega)]
      · rw [if_neg hl, if_neg (by omega)]
        rfl
    · split
      · match rest with
        | [] => rfl
        | [ext] => rfl
        | ext :: lo :: rest' => rfl
      · match rest with
        | [] => rfl
        | lo :: rest' => rfl

namespace Machine

/-- The bytes the decoder is shown are the frame's from the record pointer on, cut behind the longest
record. -/
theorem recordWindow_eq (s : State) :
    recordWindow s = (s.input.slice s.dec.inputIndex (s.nIn - s.dec.inputIndex)).take longestRecord := by
  unfold recordWindow Memory.slice
  rw [← List.map_take, List.take_range]

/-- What is fetched when the frame goes on. -/
theorem fetchRecord_eq (s : State) (h : s.dec.inputIndex < s.nIn) :
    fetchRecord s
      = match decodeRecord (s.input.slice s.dec.inputIndex (s.nIn - s.dec.inputIndex)) with
        | .ok (i, _) => .run i
        | .error r => .truncated r := by
  unfold fetchRecord
  rw [if_pos h, recordWindow_eq]
  have hmap := decodeRecord_take (s.input.slice s.dec.inputIndex (s.nIn - s.dec.inputIndex)) longestRecord
    (Nat.le_refl _)
  revert hmap
  cases decodeRecord ((s.input.slice s.dec.inputIndex (s.nIn - s.dec.inputIndex)).take longestRecord) <;>
    cases decodeRecord (s.input.slice s.dec.inputIndex (s.nIn - s.dec.inputIndex)) <;>
    simp [Except.map]

end Machine

end Sys2Proof
end

