-- ==== Sys2Proof/Laws/Ops.lean ====
section
/-! SUPPORT. What each shared operation can do, said once: checked accesses, the copy engine, the end and
the acceptance of a command, the parts of a record. -/

namespace Sys2Proof.Machine

/-! ### Runs -/

@[simp] theorem run_ok_bind {α β : Type} (x : α) (f : α → Run β) : ((Except.ok x : Run α) >>= f) = f x := rfl

@[simp] theorem run_error_bind {α β : Type} (h : Halt) (f : α → Run β) :
    ((Except.error h : Run α) >>= f) = Except.error h := rfl

@[simp] theorem outcome_ok (s : State) : Run.outcome (.ok s) = .next s := rfl

@[simp] theorem outcome_ended (s : State) : Run.outcome (.error (.ended s)) = .next s := rfl

@[simp] theorem outcome_fault (f : Fault) : Run.outcome (.error (.fault f)) = .fault f := rfl

@[simp] theorem outcome_raise (e : Status) (s : State) : Run.outcome (raise e s) = .next (errorEntry e s) := rfl

@[simp] theorem raise_bind {α β : Type} (e : Status) (s : State) (f : α → Run β) :
    (raise e s >>= f) = raise e s := rfl

/-! ### The free-value count and the lengths are the record's -/

@[simp] theorem nIn_withCommand (s : State) : s.command.nIn.toNat = s.nIn := rfl

theorem State.nIn_lt (s : State) : s.nIn < 2 ^ 32 := s.command.nIn.isLt

theorem State.nOut_lt (s : State) : s.nOut < 2 ^ 32 := s.command.nOut.isLt

/-! ### Checked accesses -/

theorem inAt_of_lt {s : State} {a : Nat} (h : a < s.nIn) : inAt s a = .ok (s.input.read a) := by
  simp [inAt, h]

theorem outAt_of_lt {s : State} {a : Nat} (h : a < s.nOut) : outAt s a = .ok (s.output.read a) := by
  have h' : (a : Int) < s.nOut := by exact_mod_cast h
  simp [outAt, h']

theorem putOut_of_lt {s : State} {a : Nat} (v : Byte) (h : a < s.nOut) :
    putOut s a v = .ok (s.withOutput (s.output.write a v)) := by
  have h' : (a : Int) < s.nOut := by exact_mod_cast h
  simp [putOut, h']

/-- A write either changes one byte of OUT or is out of range. -/
theorem putOut_cases (s : State) (a : Int) (v : Byte) :
    (∃ n : Nat, a = n ∧ n < s.nOut ∧ putOut s a v = .ok (s.withOutput (s.output.write n v)))
      ∨ (¬ (0 ≤ a ∧ a < (s.nOut : Int)) ∧ putOut s a v = .error (.fault .outputIndexOutside)) := by
  by_cases h : 0 ≤ a ∧ a < (s.nOut : Int)
  · refine .inl ⟨a.toNat, by omega, by omega, ?_⟩
    simp [putOut, h]
  · exact .inr ⟨h, by simp [putOut, h]⟩

/-- `putBytes` in range writes its bytes and nothing else. -/
theorem putBytes_spec (vs : List Byte) (s : State) (a : Nat) (h : a + vs.length ≤ s.nOut) :
    ∃ m, putBytes s a vs = .ok (s.withOutput m)
      ∧ (∀ (k : Nat) (hk : k < vs.length), m.read (a + k) = vs[k])
      ∧ (∀ b, b < a ∨ a + vs.length ≤ b → m.read b = s.output.read b)
      ∧ (s.output.wf → m.wf) ∧ m.base = s.output.base ∧ m.marks = s.output.marks := by
  induction vs generalizing s a with
  | nil => exact ⟨s.output, rfl, by simp, by simp, id, rfl, rfl⟩
  | cons v t ih =>
    simp only [List.length_cons] at h
    obtain ⟨m, hm, hread, hother, hwf, hb, hk⟩ :=
      ih (s.withOutput (s.output.write a v)) (a + 1) (by simp; omega)
    refine ⟨m, ?_, ?_, ?_, ?_, ?_, ?_⟩
    · rw [putBytes, putOut_of_lt v (by omega), run_ok_bind]
      simpa using hm
    · intro k hk
      cases k with
      | zero =>
        rw [Nat.add_zero, hother a (by omega)]
        simp
      | succ k =>
        have := hread k (by simpa using hk)
        rw [show a + 1 + k = a + (k + 1) by omega] at this
        simpa using this
    · intro b hb
      simp only [List.length_cons] at hb
      rw [hother b (by omega)]
      simp [Memory.read_write_of_ne _ (show b ≠ a by omega)]
    · exact fun h => hwf (Memory.wf_write h a v)
    · simpa [Memory.write] using hb
    · simpa [Memory.write] using hk

theorem succ_mod_distance (k : Nat) {d : Nat} (hd : 0 < d) :
    (k + 1) % d = if k % d + 1 = d then 0 else k % d + 1 := by
  have hlt : k % d < d := Nat.mod_lt _ hd
  have hk := Nat.div_add_mod k d
  split
  · next h =>
    have : k + 1 = d * (k / d + 1) := by rw [Nat.mul_add, Nat.mul_one]; omega
    rw [this, Nat.mul_mod_right]
  · next h =>
    have : k + 1 = (k % d + 1) + d * (k / d) := by omega
    rw [this, Nat.add_mul_mod_self_left, Nat.mod_eq_of_lt (by omega)]

/-- The copy engine in range: byte `k` is the byte that stood at `src + k mod distance` before the copy
(20_memory R38, 41_decoder R107), and no other byte changes. -/
theorem copyForward_spec (total : Nat) (s : State) (src dst : Nat) (hsrc : src < dst)
    (h : dst + total ≤ s.nOut) :
    ∃ m, copyForward s src dst total = .ok (s.withOutput m)
      ∧ (∀ k, k < total → m.read (dst + k) = s.output.read (src + k % (dst - src)))
      ∧ (∀ b, b < dst ∨ dst + total ≤ b → m.read b = s.output.read b)
      ∧ (s.output.wf → m.wf) ∧ m.base = s.output.base ∧ m.marks = s.output.marks := by
  induction total generalizing s src dst with
  | zero => exact ⟨s.output, rfl, by simp, by simp, id, rfl, rfl⟩
  | succ n ih =>
    obtain ⟨m, hm, hread, hother, hwf, hb, hk⟩ :=
      ih (s.withOutput (s.output.write dst (s.output.read src))) (src + 1) (dst + 1) (by omega)
        (by simp; omega)
    refine ⟨m, ?_, ?_, ?_, ?_, ?_, ?_⟩
    · rw [copyForward, outAt_of_lt (by omega), run_ok_bind, putOut_of_lt _ (by omega), run_ok_bind]
      simpa using hm
    · intro k hk
      cases k with
      | zero =>
        rw [Nat.add_zero, hother dst (by omega)]
        simp
      | succ k =>
        have := hread k (by omega)
        rw [show dst + 1 + k = dst + (k + 1) by omega, show dst + 1 - (src + 1) = dst - src by omega] at this
        rw [this]
        have hlt : k % (dst - src) < dst - src := Nat.mod_lt _ (by omega)
        simp only [State.withOutput_output, Memory.read_write]
        rw [succ_mod_distance k (show 0 < dst - src by omega)]
        split
        · rw [if_pos (by omega), Nat.add_zero]
        · rw [if_neg (by omega)]
          congr 1
          omega
    · intro b hb
      rw [hother b (by omega)]
      simp [Memory.read_write_of_ne _ (show b ≠ dst by omega)]
    · exact fun h => hwf (Memory.wf_write h dst _)
    · simpa [Memory.write] using hb
    · simpa [Memory.write] using hk

/-! ### The end of a command -/

section EndCommand
variable (st : Status) (w : Word32) (kept : Nat) (s : State)

@[simp] theorem endCommand_input : (endCommand st w kept s).input = s.input := rfl
@[simp] theorem endCommand_output :
    (endCommand st w kept s).output = s.output.forget kept s.nOut s.freeCount := rfl
@[simp] theorem endCommand_htab : (endCommand st w kept s).htab = s.htab := rfl
@[simp] theorem endCommand_enc : (endCommand st w kept s).enc = s.enc := rfl
@[simp] theorem endCommand_dec : (endCommand st w kept s).dec = s.dec := rfl
@[simp] theorem endCommand_command : (endCommand st w kept s).command = s.command := rfl
@[simp] theorem endCommand_response : (endCommand st w kept s).response = ⟨st, w⟩ := rfl
@[simp] theorem endCommand_phase : (endCommand st w kept s).phase = .idle := rfl
@[simp] theorem endCommand_presented : (endCommand st w kept s).presented = s.presented := rfl
@[simp] theorem endCommand_inRegion : (endCommand st w kept s).inRegion = s.inRegion := rfl
@[simp] theorem endCommand_outRegion : (endCommand st w kept s).outRegion = s.outRegion := rfl
@[simp] theorem endCommand_freeCount : (endCommand st w kept s).freeCount = s.freeCount + 1 := rfl
@[simp] theorem endCommand_nIn : (endCommand st w kept s).nIn = s.nIn := rfl
@[simp] theorem endCommand_nOut : (endCommand st w kept s).nOut = s.nOut := rfl

end EndCommand

theorem errorEntry_eq (e : Status) (s : State) : errorEntry e s = endCommand e 0#32 0 s := rfl

theorem returnOk_eq (v : Nat) (s : State) : returnOk v s = endCommand .ok (BitVec.ofNat 32 v) v s := rfl

/-! ### Acceptance -/

section Latch
variable (r : CommandRecord) (p : Phase) (s : State)

@[simp] theorem latch_input : (latch r p s).input = s.input := rfl
@[simp] theorem latch_output : (latch r p s).output = s.output := rfl
@[simp] theorem latch_htab : (latch r p s).htab = s.htab := rfl
@[simp] theorem latch_enc : (latch r p s).enc = s.enc := rfl
@[simp] theorem latch_dec : (latch r p s).dec = s.dec := rfl
@[simp] theorem latch_command : (latch r p s).command = r := rfl
@[simp] theorem latch_response : (latch r p s).response = s.response := rfl
@[simp] theorem latch_phase : (latch r p s).phase = p := rfl
@[simp] theorem latch_presented : (latch r p s).presented = none := rfl
@[simp] theorem latch_inRegion : (latch r p s).inRegion = s.inRegion := rfl
@[simp] theorem latch_outRegion : (latch r p s).outRegion = s.outRegion := rfl
@[simp] theorem latch_freeCount : (latch r p s).freeCount = s.freeCount := rfl
@[simp] theorem latch_nIn : (latch r p s).nIn = r.nIn.toNat := rfl
@[simp] theorem latch_nOut : (latch r p s).nOut = r.nOut.toNat := rfl

end Latch

/-- Everything a presented command can meet. -/
theorem acceptCommand_cases (r : CommandRecord) (p : Phase) (start : State → Run State) (s : State) :
    (s.phase ≠ .idle ∧ acceptCommand r p start s = .next s)
      ∨ (s.phase = .idle ∧ lengthsTrue s r.nIn.toNat r.nOut.toNat = false
          ∧ acceptCommand r p start s = .refused .lengthBeyondRegion)
      ∨ (s.phase = .idle ∧ lengthsTrue s r.nIn.toNat r.nOut.toNat = true
          ∧ overlap s r.nIn.toNat r.nOut.toNat = true
          ∧ acceptCommand r p start s = .refused .regionsOverlap)
      ∨ (s.phase = .idle ∧ lengthsTrue s r.nIn.toNat r.nOut.toNat = true
          ∧ overlap s r.nIn.toNat r.nOut.toNat = false
          ∧ acceptCommand r p start s = (start (latch r p s)).outcome) := by
  unfold acceptCommand
  by_cases hp : s.phase = .idle
  · cases hl : lengthsTrue s r.nIn.toNat r.nOut.toNat
    · simp [hp]
    · cases ho : overlap s r.nIn.toNat r.nOut.toNat <;> simp [hp]
  · simp [hp]

/-! ### The tests and parts of a record -/

theorem needRoom_ok {n : Nat} {s : State} (h : s.dec.outputIndex + n ≤ s.nOut) : needRoom n s = .ok s := by
  simp [needRoom, Nat.not_lt.mpr h]

theorem needRoom_fail {n : Nat} {s : State} (h : s.nOut < s.dec.outputIndex + n) :
    needRoom n s = raise .insufficientBuffer s := by
  simp [needRoom, h]

theorem needInput_ok {n : Nat} {s : State} (h : s.dec.inputIndex + n ≤ s.nIn) : needInput n s = .ok s := by
  simp [needInput, Nat.not_lt.mpr h]

theorem needInput_fail {n : Nat} {s : State} (h : s.nIn < s.dec.inputIndex + n) :
    needInput n s = raise .dataCorruption s := by
  simp [needInput, h]

theorem needSource_ok {s : State} (h : 0 ≤ s.dec.ref) : needSource s = .ok s := by
  simp [needSource, Int.not_lt.mpr h]

theorem needSource_fail {s : State} (h : s.dec.ref < 0) : needSource s = raise .dataCorruption s := by
  simp [needSource, h]

/-- The tests of a LIT, in order. -/
theorem litTests_eq (ctrl : Byte) (count : Nat) (s : State) :
    litTests ctrl count s =
      if s.nOut < s.dec.outputIndex + count then raise .insufficientBuffer (litBegun ctrl count s)
      else if s.nIn < s.dec.inputIndex + 1 + count then raise .dataCorruption (litBegun ctrl count s)
      else .ok (litBegun ctrl count s) := by
  show (needRoom count (litBegun ctrl count s) >>= needInput count) = _
  split
  · next h => rw [needRoom_fail (by simpa [litBegun, takeCtrl] using h)]; rfl
  · next h =>
    rw [needRoom_ok (by simpa [litBegun, takeCtrl] using h), run_ok_bind]
    split
    · next h' => rw [needInput_fail (by simpa [litBegun, takeCtrl] using h')]
    · next h' => rw [needInput_ok (by simpa [litBegun, takeCtrl] using h')]

theorem refTests_eq (ctrl : Byte) (s : State) :
    refTests ctrl s =
      if s.nIn < s.dec.inputIndex + 2 then raise .dataCorruption (refBegun ctrl s)
      else .ok (refBegun ctrl s) := by
  show needInput 1 (refBegun ctrl s) = _
  split
  · next h => rw [needInput_fail (by simp [refBegun, takeCtrl]; omega)]
  · next h => rw [needInput_ok (by simp [refBegun, takeCtrl]; omega)]

theorem takeExt_eq (ext : Byte) (s : State) :
    takeExt ext s =
      if s.nIn < s.dec.inputIndex + 2 then raise .dataCorruption (extTaken ext s)
      else .ok (extTaken ext s) := by
  show needInput 1 (extTaken ext s) = _
  split
  · next h => rw [needInput_fail (by simp [extTaken]; omega)]
  · next h => rw [needInput_ok (by simp [extTaken]; omega)]

/-- The rest of a back-reference: room, source, then the whole copy. -/
theorem copyMatch_cases (s : State) (hn : s.dec.ref < s.dec.outputIndex) :
    (s.nOut < s.dec.outputIndex + s.dec.total ∧ copyMatch s = raise .insufficientBuffer s)
      ∨ (s.dec.outputIndex + s.dec.total ≤ s.nOut ∧ s.dec.ref < 0 ∧ copyMatch s = raise .dataCorruption s)
      ∨ (s.dec.outputIndex + s.dec.total ≤ s.nOut ∧ 0 ≤ s.dec.ref ∧ ∃ m,
          copyMatch s = .ok ((s.withOutput m).withDec { s.dec with
            outputIndex := s.dec.outputIndex + s.dec.total })
          ∧ (∀ k, k < s.dec.total → m.read (s.dec.outputIndex + k)
              = s.output.read (s.dec.ref.toNat + k % (s.dec.outputIndex - s.dec.ref.toNat)))
          ∧ (∀ b, b < s.dec.outputIndex ∨ s.dec.outputIndex + s.dec.total ≤ b →
              m.read b = s.output.read b)
          ∧ (s.output.wf → m.wf) ∧ m.base = s.output.base ∧ m.marks = s.output.marks) := by
  by_cases hroom : s.nOut < s.dec.outputIndex + s.dec.total
  · exact .inl ⟨hroom, by simp [copyMatch, needRoom_fail hroom]⟩
  · by_cases hsrc : s.dec.ref < 0
    · exact .inr (.inl ⟨by omega, hsrc, by
        simp [copyMatch, needRoom_ok (Nat.not_lt.mp hroom), needSource_fail hsrc]⟩)
    · obtain ⟨m, hm, hread, hother, hwf, hb, hk⟩ :=
        copyForward_spec s.dec.total s s.dec.ref.toNat s.dec.outputIndex (by omega) (by omega)
      refine .inr (.inr ⟨by omega, by omega, m, ?_, hread, hother, hwf, hb, hk⟩)
      have hr : ((s.dec.ref.toNat : Nat) : Int) = s.dec.ref := by omega
      rw [hr] at hm
      simp [copyMatch, needRoom_ok (Nat.not_lt.mp hroom), needSource_ok (Int.not_lt.mp hsrc), hm]

end Sys2Proof.Machine
end

