-- ==== Sys2Proof/Laws/Records.lean ====
section
/-! SUPPORT. What one record of a frame can do, said once: its tests in order, and the state after its
copy. -/

namespace Sys2Proof.Machine

open Sys2Proof.Safety

/-! ### LIT -/

/-- The state after a LIT whose tests pass, `m` being OUT after the copy. -/
def afterLit (ctrl : Byte) (count : Nat) (s : State) (m : Memory) : State :=
  { s with
    output := m
    dec := { s.dec with
      ctrl := ctrl
      count := count
      inputIndex := s.dec.inputIndex + 1 + count
      outputIndex := s.dec.outputIndex + count } }

theorem execLit_noRoom {ls : List Byte} {s : State} (h : s.nOut < s.dec.outputIndex + ls.length) :
    execLit ls s
      = .next (errorEntry .insufficientBuffer (litBegun (Instr.lit ls).control ls.length s)) := by
  unfold execLit
  rw [litTests_eq, if_pos h]
  rfl

theorem execLit_noInput {ls : List Byte} {s : State} (h : s.dec.outputIndex + ls.length ≤ s.nOut)
    (hi : s.nIn < s.dec.inputIndex + 1 + ls.length) :
    execLit ls s
      = .next (errorEntry .dataCorruption (litBegun (Instr.lit ls).control ls.length s)) := by
  unfold execLit
  rw [litTests_eq, if_neg (by omega), if_pos hi]
  rfl

theorem execLit_ok {ls : List Byte} {s : State} (h : s.dec.outputIndex + ls.length ≤ s.nOut)
    (hi : s.dec.inputIndex + 1 + ls.length ≤ s.nIn) :
    ∃ m, execLit ls s = .next (afterLit (Instr.lit ls).control ls.length s m)
      ∧ (∀ (k : Nat) (hk : k < ls.length), m.read (s.dec.outputIndex + k) = ls[k])
      ∧ (∀ b, b < s.dec.outputIndex ∨ s.dec.outputIndex + ls.length ≤ b → m.read b = s.output.read b)
      ∧ (s.output.wf → m.wf) ∧ m.base = s.output.base ∧ m.marks = s.output.marks := by
  obtain ⟨m, hm, rest⟩ :=
    putBytes_spec ls (litBegun (Instr.lit ls).control ls.length s) s.dec.outputIndex h
  refine ⟨m, ?_, rest⟩
  have hm' : putBytes (litBegun (Instr.lit ls).control ls.length s)
      (litBegun (Instr.lit ls).control ls.length s).dec.outputIndex ls
      = .ok ((litBegun (Instr.lit ls).control ls.length s).withOutput m) := hm
  unfold execLit
  rw [litTests_eq, if_neg (by omega), if_neg (by omega), run_ok_bind, hm', run_ok_bind]
  rfl

/-! ### Back-references -/

/-- The state of a short back-reference when `off_lo` is taken. -/
def shortTaken (ctrl lo : Byte) (s : State) : State := takeOffLo lo (refBegun ctrl s)

/-- The state of a long back-reference when `off_lo` is taken. -/
def longTaken (ctrl ext lo : Byte) (s : State) : State := takeOffLo lo (extTaken ext (refBegun ctrl s))

/-- How far back the source lies, from the control byte and `off_lo` (30_encoding R55). -/
def distanceOf (ctrl lo : Byte) : Nat := ctrl.toNat % 32 * 256 + lo.toNat + 1

theorem partialRef_eq (ctrl : Byte) (out : Nat) :
    (out : Int) - ((ctrlLow ctrl).toNat <<< 8 : Nat) - 1 = (out : Int) - (ctrl.toNat % 32 * 256 : Nat) - 1 := by
  rw [ctrlLow_toNat, Nat.shiftLeft_eq]

theorem refBegun_dec (ctrl : Byte) (s : State) :
    (refBegun ctrl s).dec = { s.dec with
      ctrl := ctrl
      length := ctrl.toNat / 32
      ref := (s.dec.outputIndex : Int) - (ctrl.toNat % 32 * 256 : Nat) - 1
      inputIndex := s.dec.inputIndex + 1 } := by
  unfold refBegun
  rw [partialRef_eq, ctrlClass_toNat]
  rfl

theorem shortTaken_dec (ctrl lo : Byte) (s : State) :
    (shortTaken ctrl lo s).dec = { s.dec with
      ctrl := ctrl
      length := ctrl.toNat / 32
      offLo := lo
      ref := (s.dec.outputIndex : Int) - (distanceOf ctrl lo : Nat)
      inputIndex := s.dec.inputIndex + 2
      total := ctrl.toNat / 32 + 2 } := by
  unfold shortTaken takeOffLo
  rw [State.withDec_dec, refBegun_dec]
  have href : (s.dec.outputIndex : Int) - (ctrl.toNat % 32 * 256 : Nat) - 1 - (lo.toNat : Nat)
      = (s.dec.outputIndex : Int) - (distanceOf ctrl lo : Nat) := by
    unfold distanceOf
    omega
  simp only [href]

theorem longTaken_dec (ctrl ext lo : Byte) (s : State) :
    (longTaken ctrl ext lo s).dec = { s.dec with
      ctrl := ctrl
      ext := ext
      length := ctrl.toNat / 32 + ext.toNat
      offLo := lo
      ref := (s.dec.outputIndex : Int) - (distanceOf ctrl lo : Nat)
      inputIndex := s.dec.inputIndex + 3
      total := ctrl.toNat / 32 + ext.toNat + 2 } := by
  unfold longTaken takeOffLo extTaken
  simp only [State.withDec_dec]
  rw [refBegun_dec]
  have href : (s.dec.outputIndex : Int) - (ctrl.toNat % 32 * 256 : Nat) - 1 - (lo.toNat : Nat)
      = (s.dec.outputIndex : Int) - (distanceOf ctrl lo : Nat) := by
    unfold distanceOf
    omega
  simp only [href]

/-- `m` is OUT after a match of `total` bytes from `dist` back was copied in state `s`. -/
structure Copied (s : State) (dist total : Nat) (m : Memory) : Prop where
  bytes : ∀ k, k < total → m.read (s.dec.outputIndex + k)
    = s.output.read (s.dec.outputIndex - dist + k % dist)
  others : ∀ b, b < s.dec.outputIndex ∨ s.dec.outputIndex + total ≤ b → m.read b = s.output.read b
  wf : s.output.wf → m.wf
  base : m.base = s.output.base
  marks : m.marks = s.output.marks

/-- Read forward, the copy is its own source (20_memory R38). -/
theorem Copied.self {s : State} {dist total : Nat} {m : Memory} (h : Copied s dist total m) (hd : 0 < dist)
    (hle : dist ≤ s.dec.outputIndex) (k : Nat) (hk : k < total) :
    m.read (s.dec.outputIndex + k) = m.read (s.dec.outputIndex - dist + k) := by
  rw [h.bytes k hk]
  by_cases hlt : k < dist
  · rw [Nat.mod_eq_of_lt hlt, h.others _ (by omega)]
  · rw [show s.dec.outputIndex - dist + k = s.dec.outputIndex + (k - dist) by omega,
      h.bytes (k - dist) (by omega), Nat.mod_eq_sub_mod (by omega)]

/-- The tests and the copy of a back-reference whose operands are taken. -/
theorem copyMatch_taken {s u : State} {dist total : Nat} (hd : 0 < dist)
    (hout : u.output = s.output) (hcmd : u.command = s.command)
    (ho : u.dec.outputIndex = s.dec.outputIndex) (ht : u.dec.total = total)
    (hr : u.dec.ref = (s.dec.outputIndex : Int) - (dist : Nat)) :
    (s.nOut < s.dec.outputIndex + total → copyMatch u = raise .insufficientBuffer u)
      ∧ (s.dec.outputIndex + total ≤ s.nOut → s.dec.outputIndex < dist →
          copyMatch u = raise .dataCorruption u)
      ∧ (s.dec.outputIndex + total ≤ s.nOut → dist ≤ s.dec.outputIndex →
          ∃ m, Copied s dist total m
            ∧ copyMatch u = .ok ((u.withOutput m).withDec { u.dec with
                outputIndex := s.dec.outputIndex + total })) := by
  have hn : u.nOut = s.nOut := by unfold State.nOut; rw [hcmd]
  rcases copyMatch_cases u (by omega) with ⟨h1, h⟩ | ⟨h1, h2, h⟩ | ⟨h1, h2, m, h, hbytes, hothers, hwf, hb, hk⟩
  · exact ⟨fun _ => h, fun h' => by omega, fun h' => by omega⟩
  · exact ⟨fun h' => by omega, fun _ _ => h, fun _ h' => by omega⟩
  · refine ⟨fun h' => by omega, fun _ h' => by omega, fun _ hle => ⟨m, ⟨?_, ?_, ?_, ?_, ?_⟩, ?_⟩⟩
    · intro k hk
      have := hbytes k (by omega)
      rw [ho, hout, hr] at this
      rw [this, show ((s.dec.outputIndex : Int) - (dist : Nat)).toNat = s.dec.outputIndex - dist by omega,
        show s.dec.outputIndex - (s.dec.outputIndex - dist) = dist by omega]
    · intro b hb
      rw [hothers b (by omega), hout]
    · exact fun hw => hwf (hout ▸ hw)
    · rw [hb, hout]
    · rw [hk, hout]
    · rw [h, ho, ht]

theorem distanceOf_pos (ctrl lo : Byte) : 0 < distanceOf ctrl lo := Nat.succ_pos _

/-- The state after a back-reference, `u` being the state with its operands taken. -/
def afterRef (u : State) (m : Memory) : State :=
  (u.withOutput m).withDec { u.dec with outputIndex := u.dec.outputIndex + u.dec.total }

/-- A short back-reference. -/
theorem runShortRef_spec (ctrl lo : Byte) (s : State) :
    (s.nIn < s.dec.inputIndex + 2 → runShortRef ctrl lo s = raise .dataCorruption (refBegun ctrl s))
      ∧ (s.dec.inputIndex + 2 ≤ s.nIn → s.nOut < s.dec.outputIndex + (ctrl.toNat / 32 + 2) →
          runShortRef ctrl lo s = raise .insufficientBuffer (shortTaken ctrl lo s))
      ∧ (s.dec.inputIndex + 2 ≤ s.nIn → s.dec.outputIndex + (ctrl.toNat / 32 + 2) ≤ s.nOut →
          s.dec.outputIndex < distanceOf ctrl lo →
          runShortRef ctrl lo s = raise .dataCorruption (shortTaken ctrl lo s))
      ∧ (s.dec.inputIndex + 2 ≤ s.nIn → s.dec.outputIndex + (ctrl.toNat / 32 + 2) ≤ s.nOut →
          distanceOf ctrl lo ≤ s.dec.outputIndex →
          ∃ m, Copied s (distanceOf ctrl lo) (ctrl.toNat / 32 + 2) m
            ∧ runShortRef ctrl lo s = .ok (afterRef (shortTaken ctrl lo s) m)) := by
  have hdec := shortTaken_dec ctrl lo s
  obtain ⟨h1, h2, h3⟩ := copyMatch_taken (s := s) (u := shortTaken ctrl lo s)
    (dist := distanceOf ctrl lo) (total := ctrl.toNat / 32 + 2) (distanceOf_pos ctrl lo) rfl rfl
    (by rw [hdec]) (by rw [hdec]) (by rw [hdec])
  have run : s.dec.inputIndex + 2 ≤ s.nIn → runShortRef ctrl lo s = copyMatch (shortTaken ctrl lo s) := by
    intro h
    unfold runShortRef
    rw [refTests_eq, if_neg (by omega), run_ok_bind]
    rfl
  refine ⟨fun h => ?_, fun h hr => ?_, fun h hr hs => ?_, fun h hr hs => ?_⟩
  · unfold runShortRef
    rw [refTests_eq, if_pos h]
    rfl
  · rw [run h, h1 hr]
  · rw [run h, h2 hr hs]
  · obtain ⟨m, hc, hm⟩ := h3 hr hs
    refine ⟨m, hc, ?_⟩
    rw [run h, hm, afterRef]
    simp only [hdec]

/-- A long back-reference whose bytes are all there. -/
theorem execRefx_run (off : Off) (ext : Byte) (s : State) (h : s.dec.inputIndex + 3 ≤ s.nIn) :
    execRefx off ext s = (copyMatch (longTaken (Instr.refx off ext).control ext (offLo off) s)).outcome := by
  unfold execRefx
  rw [refTests_eq, if_neg (by omega), run_ok_bind, takeExt_eq, if_neg, run_ok_bind]
  · rfl
  · have h1 : (refBegun (Instr.refx off ext).control s).dec.inputIndex = s.dec.inputIndex + 1 := by
      rw [refBegun_dec]
    have h2 : (refBegun (Instr.refx off ext).control s).nIn = s.nIn := rfl
    omega

/-- A long back-reference. -/
theorem copyMatch_long (ctrl ext lo : Byte) (s : State) :
    (s.nOut < s.dec.outputIndex + (ctrl.toNat / 32 + ext.toNat + 2) →
        copyMatch (longTaken ctrl ext lo s) = raise .insufficientBuffer (longTaken ctrl ext lo s))
      ∧ (s.dec.outputIndex + (ctrl.toNat / 32 + ext.toNat + 2) ≤ s.nOut →
          s.dec.outputIndex < distanceOf ctrl lo →
          copyMatch (longTaken ctrl ext lo s) = raise .dataCorruption (longTaken ctrl ext lo s))
      ∧ (s.dec.outputIndex + (ctrl.toNat / 32 + ext.toNat + 2) ≤ s.nOut →
          distanceOf ctrl lo ≤ s.dec.outputIndex →
          ∃ m, Copied s (distanceOf ctrl lo) (ctrl.toNat / 32 + ext.toNat + 2) m
            ∧ copyMatch (longTaken ctrl ext lo s) = .ok (afterRef (longTaken ctrl ext lo s) m)) := by
  have hdec := longTaken_dec ctrl ext lo s
  obtain ⟨h1, h2, h3⟩ := copyMatch_taken (s := s) (u := longTaken ctrl ext lo s)
    (dist := distanceOf ctrl lo) (total := ctrl.toNat / 32 + ext.toNat + 2) (distanceOf_pos ctrl lo) rfl rfl
    (by rw [hdec]) (by rw [hdec]) (by rw [hdec])
  refine ⟨h1, h2, fun hr hs => ?_⟩
  obtain ⟨m, hc, hm⟩ := h3 hr hs
  refine ⟨m, hc, ?_⟩
  rw [hm, afterRef]
  simp only [hdec]

end Sys2Proof.Machine
end

