-- ==== Sys2Proof/Laws/Encoder.lean ====
section
/-! SUPPORT. What each sub-step of ENCODE can do, said once: the lookup and its verdict, a literal, the
scan, closing a run, emitting a reference, re-seeding, the settling of `hval`. -/

namespace Sys2Proof.Machine

open Sys2Proof.Safety

/-! ### The search -/

theorem fingerprintAt_eq {s : State} {a : Nat} (h : a + 3 ≤ s.nIn) :
    fingerprintAt s a = .ok (fingerprintIn s a) := by
  simp [fingerprintAt, inAt_of_lt (show a < s.nIn by omega), inAt_of_lt (show a + 1 < s.nIn by omega),
    inAt_of_lt (show a + 2 < s.nIn by omega), fingerprintIn]

/-- The state after R74 and R77. -/
def lookedUp (s : State) : State :=
  (s.withEnc { s.enc with
    hval := fingerprintIn s s.enc.inputIndex
    slot := slotHere s
    ref := s.htab.read (slotHere s) }).withHtab (tableAfterLookup s)

/-- The state after R78 with this verdict. -/
def judged (s : State) (valid : Bool) : State := setVerdict valid (lookedUp s)

theorem agreeAt_eq {s : State} {a b : Nat} (ha : a < s.nIn) (hb : b < s.nIn) :
    agreeAt s a b = .ok (s.input.read a == s.input.read b) := by
  simp [agreeAt, inAt_of_lt ha, inAt_of_lt hb]

theorem threeAgree_eq {s : State} {a b : Nat} (ha : a + 3 ≤ s.nIn) (hb : b + 3 ≤ s.nIn) :
    threeAgree s a b = .ok (decide (s.input.read a = s.input.read b
      ∧ s.input.read (a + 1) = s.input.read (b + 1) ∧ s.input.read (a + 2) = s.input.read (b + 2))) := by
  unfold threeAgree
  rw [agreeAt_eq (by omega) (by omega), run_ok_bind]
  by_cases h0 : s.input.read a = s.input.read b
  · rw [agreeAt_eq (by omega) (by omega)]
    by_cases h1 : s.input.read (a + 1) = s.input.read (b + 1)
    · rw [agreeAt_eq (by omega) (by omega)]
      simp only [h0, h1, beq_self_eq_true, if_true, run_ok_bind, true_and]
      congr 1
    · simp [h0, h1]
  · simp [h0]

/-- R74, R77, R78 in one equation. -/
theorem search_eq {s : State} (h : s.enc.inputIndex + 3 ≤ s.nIn) :
    (hashHere s >>= fun u => judge (lookupSlot u)) = .ok (judged s (decide (ValidMatch s))) := by
  have hl : (hashHere s >>= fun u => judge (lookupSlot u)) = judge (lookedUp s) := by
    unfold hashHere
    rw [fingerprintAt_eq h]
    rfl
  have htests : offsetTests (lookedUp s) = decide (0 < candidate s ∧ candidate s < s.enc.inputIndex
      ∧ s.enc.inputIndex - candidate s - 1 < 8192) := by
    rw [Bool.decide_and, Bool.decide_and, ← Bool.and_assoc]
    rfl
  rw [hl]
  unfold judge
  rw [htests]
  by_cases ht : 0 < candidate s ∧ candidate s < s.enc.inputIndex
      ∧ s.enc.inputIndex - candidate s - 1 < 8192
  · have hthree : threeAgree (lookedUp s) (lookedUp s).enc.ref.toNat (lookedUp s).enc.inputIndex
        = .ok (decide (s.input.read (candidate s) = s.input.read s.enc.inputIndex
          ∧ s.input.read (candidate s + 1) = s.input.read (s.enc.inputIndex + 1)
          ∧ s.input.read (candidate s + 2) = s.input.read (s.enc.inputIndex + 2))) := by
      have h1 : (lookedUp s).enc.ref.toNat + 3 ≤ (lookedUp s).nIn := by
        have : candidate s + 3 ≤ s.nIn := by omega
        exact this
      exact threeAgree_eq h1 h
    rw [if_pos (by simpa using ht), hthree, run_ok_bind]
    have hv : ValidMatch s ↔ (s.input.read (candidate s) = s.input.read s.enc.inputIndex
        ∧ s.input.read (candidate s + 1) = s.input.read (s.enc.inputIndex + 1)
        ∧ s.input.read (candidate s + 2) = s.input.read (s.enc.inputIndex + 2)) :=
      ⟨fun hv => hv.2.2.2, fun hb => ⟨ht.1, ht.2.1, ht.2.2, hb⟩⟩
    rw [decide_eq_decide.mpr hv]
    rfl
  · have hv : ¬ ValidMatch s := fun hv => ht ⟨hv.1, hv.2.1, hv.2.2.1⟩
    rw [if_neg (by simpa using ht), decide_eq_false hv]
    rfl

theorem iteration_eq {s : State} (h : s.enc.inputIndex + 3 ≤ s.nIn) :
    iteration s = (if ValidMatch s then matchStep (judged s true) else literalStep (judged s false))
      >>= settleHval := by
  have assoc : iteration s
      = ((hashHere s >>= fun u => judge (lookupSlot u)) >>= fun v => matchOrLiteral v >>= settleHval) := by
    unfold iteration
    cases hashHere s <;> rfl
  rw [assoc, search_eq h, run_ok_bind]
  by_cases hv : ValidMatch s
  · rw [decide_eq_true hv, if_pos hv]
    rfl
  · rw [decide_eq_false hv, if_neg hv]
    rfl

section Judged
variable (s : State) (v : Bool)
@[simp] theorem judged_input : (judged s v).input = s.input := rfl
@[simp] theorem judged_output : (judged s v).output = s.output := rfl
@[simp] theorem judged_htab : (judged s v).htab = tableAfterLookup s := rfl
@[simp] theorem judged_dec : (judged s v).dec = s.dec := rfl
@[simp] theorem judged_command : (judged s v).command = s.command := rfl
@[simp] theorem judged_response : (judged s v).response = s.response := rfl
@[simp] theorem judged_phase : (judged s v).phase = s.phase := rfl
@[simp] theorem judged_presented : (judged s v).presented = s.presented := rfl
@[simp] theorem judged_freeCount : (judged s v).freeCount = s.freeCount := rfl
@[simp] theorem judged_nIn : (judged s v).nIn = s.nIn := rfl
@[simp] theorem judged_nOut : (judged s v).nOut = s.nOut := rfl
@[simp] theorem judged_inputIndex : (judged s v).enc.inputIndex = s.enc.inputIndex := rfl
@[simp] theorem judged_outputIndex : (judged s v).enc.outputIndex = s.enc.outputIndex := rfl
@[simp] theorem judged_lit : (judged s v).enc.lit = s.enc.lit := rfl
@[simp] theorem judged_valid : (judged s v).enc.valid = v := rfl
@[simp] theorem judged_slot : (judged s v).enc.slot = slotHere s := rfl
@[simp] theorem judged_ref : (judged s v).enc.ref.toNat = candidate s := rfl
end Judged

/-! ### Literals -/

/-- One literal inside a run. -/
theorem appendLiteral_open {s : State} (hi : s.enc.inputIndex < s.nIn) (ho : s.enc.outputIndex < s.nOut)
    (hl : s.enc.lit ≠ 31) :
    appendLiteral s = .ok ((s.withOutput
        (s.output.write s.enc.outputIndex (s.input.read s.enc.inputIndex))).withEnc { s.enc with
      outputIndex := s.enc.outputIndex + 1
      inputIndex := s.enc.inputIndex + 1
      lit := s.enc.lit + 1 }) := by
  unfold appendLiteral
  rw [inAt_of_lt hi, run_ok_bind, putOut_of_lt _ ho, run_ok_bind, rollIfFull, if_neg]
  · rfl
  · show ¬ s.enc.lit + 1 = 32
    omega

/-- The 32nd literal of a run. -/
theorem appendLiteral_full {s : State} (hi : s.enc.inputIndex < s.nIn) (ho : s.enc.outputIndex < s.nOut)
    (hl : s.enc.lit = 31) (hs : 32 ≤ s.enc.outputIndex) :
    appendLiteral s = .ok ((s.withOutput
        ((s.output.write s.enc.outputIndex (s.input.read s.enc.inputIndex)).write
          (s.enc.outputIndex - 32) 31#8)).withEnc { s.enc with
      outputIndex := s.enc.outputIndex + 2
      inputIndex := s.enc.inputIndex + 1
      lit := 0 }) := by
  unfold appendLiteral
  rw [inAt_of_lt hi, run_ok_bind, putOut_of_lt _ ho, run_ok_bind, rollIfFull, if_pos]
  · have hslot : ((pastLiteral (s.withOutput (s.output.write s.enc.outputIndex
        (s.input.read s.enc.inputIndex)))).enc.outputIndex : Int) - 33
        = ((s.enc.outputIndex - 32 : Nat) : Int) := by
      show ((s.enc.outputIndex + 1 : Nat) : Int) - 33 = _
      omega
    have hlt : s.enc.outputIndex - 32 < (pastLiteral (s.withOutput (s.output.write s.enc.outputIndex
        (s.input.read s.enc.inputIndex)))).nOut := by
      show s.enc.outputIndex - 32 < s.nOut
      omega
    rw [roll, hslot, putOut_of_lt _ hlt]
    rfl
  · show s.enc.lit + 1 = 32
    omega

/-! ### The scan of R81 -/

/-- The scan stops at the first difference or when its fuel is used up. -/
theorem scanMatch_spec (s : State) (fuel len : Nat) (hr : s.enc.ref.toNat < s.enc.inputIndex)
    (hb : s.enc.inputIndex + (len + fuel) ≤ s.nIn) :
    ∃ n, scanMatch s fuel len = .ok n ∧ len ≤ n ∧ n ≤ len + fuel
      ∧ (∀ k, len ≤ k → k < n →
          s.input.read (s.enc.ref.toNat + k) = s.input.read (s.enc.inputIndex + k))
      ∧ (n = len + fuel ∨ s.input.read (s.enc.ref.toNat + n) ≠ s.input.read (s.enc.inputIndex + n)) := by
  induction fuel generalizing len with
  | zero => exact ⟨len, rfl, Nat.le_refl _, Nat.le_refl _, fun k _ _ => by omega, .inl rfl⟩
  | succ f ih =>
    rw [scanMatch, agreeAt_eq (by omega) (by omega), run_ok_bind]
    by_cases he : s.input.read (s.enc.ref.toNat + len) = s.input.read (s.enc.inputIndex + len)
    · obtain ⟨n, hn, h1, h2, h3, h4⟩ := ih (len + 1) (by omega)
      refine ⟨n, by simpa [he] using hn, by omega, by omega, fun k hk hkn => ?_, ?_⟩
      · rcases Nat.eq_or_lt_of_le hk with rfl | hk
        · exact he
        · exact h3 k hk hkn
      · rcases h4 with h4 | h4
        · exact .inl (by omega)
        · exact .inr h4
    · exact ⟨len, by simp [he], Nat.le_refl _, by omega, fun k _ _ => by omega, .inr he⟩

/-- R81 after a valid verdict gives the match length. -/
theorem matchLength_eq {s : State} (h : s.enc.inputIndex + 3 ≤ s.nIn) (hv : ValidMatch s) :
    ∃ n, MatchLength s n ∧ matchLength (judged s true) = .ok (setLength n (setMaxlen (judged s true))) := by
  obtain ⟨n, hn, h1, h2, h3, h4⟩ := scanMatch_spec (setMaxlen (judged s true))
    (min (s.nIn - s.enc.inputIndex) 264 - 3) 3 hv.2.1
    (by show s.enc.inputIndex + (3 + (min (s.nIn - s.enc.inputIndex) 264 - 3)) ≤ s.nIn; omega)
  refine ⟨n, ⟨h1, by omega, fun k hk => ?_, ?_⟩, ?_⟩
  · rcases Nat.lt_or_ge k 3 with hk3 | hk3
    · obtain ⟨-, -, -, e0, e1, e2⟩ := hv
      have hk' : k = 0 ∨ k = 1 ∨ k = 2 := by omega
      rcases hk' with rfl | rfl | rfl
      · exact e0
      · exact e1
      · exact e2
    · exact h3 k hk3 hk
  · rcases h4 with h4 | h4
    · exact .inl (by omega)
    · exact .inr h4
  · unfold matchLength
    have hn' : scanMatch (setMaxlen (judged s true))
        ((setMaxlen (judged s true)).enc.maxlen - Config.minRef) Config.minRef = .ok n := hn
    rw [hn', run_ok_bind]

/-- There is one match length. -/
theorem MatchLength_unique {s : State} {n n' : Nat} (h : MatchLength s n) (h' : MatchLength s n') :
    n = n' := by
  obtain ⟨-, h2, h3, h4⟩ := h
  obtain ⟨-, h2', h3', h4'⟩ := h'
  rcases Nat.lt_trichotomy n n' with hlt | heq | hgt
  · rcases h4 with h4 | h4
    · omega
    · exact absurd (h3' n hlt) h4
  · exact heq
  · rcases h4' with h4' | h4'
    · omega
    · exact absurd (h3 n' hgt) h4'

/-! ### The space test, closing, emitting, re-seeding -/

theorem matchRoom_ok {s : State} (h : s.enc.outputIndex + 4 < s.nOut + (if s.enc.lit = 0 then 1 else 0)) :
    matchRoom s = .ok s := by
  unfold matchRoom
  split at h <;> rw [if_neg] <;> simp_all <;> omega

theorem matchRoom_fail {s : State}
    (h : s.nOut + (if s.enc.lit = 0 then 1 else 0) ≤ s.enc.outputIndex + 4) :
    matchRoom s = raise .insufficientBuffer s := by
  unfold matchRoom
  split at h <;> rw [if_pos] <;> simp_all <;> omega

/-- Closing a run with literals fills in its control byte. -/
theorem closeRun_lit {s : State} (hl : 0 < s.enc.lit) (hs : s.enc.lit + 1 ≤ s.enc.outputIndex)
    (hn : s.enc.outputIndex - s.enc.lit - 1 < s.nOut) :
    closeRun s = .ok (s.withOutput
      (s.output.write (s.enc.outputIndex - s.enc.lit - 1) (BitVec.ofNat 8 (s.enc.lit - 1)))) := by
  unfold closeRun
  rw [if_pos hl, show ((s.enc.outputIndex : Int) - s.enc.lit - 1)
    = ((s.enc.outputIndex - s.enc.lit - 1 : Nat) : Int) by omega]
  exact putOut_of_lt _ hn

/-- Closing an empty run withdraws its slot. -/
theorem closeRun_empty {s : State} (hl : s.enc.lit = 0) (hs : 1 ≤ s.enc.outputIndex) :
    closeRun s = .ok (s.withEnc { s.enc with outputIndex := s.enc.outputIndex - 1 }) := by
  unfold closeRun
  rw [if_neg (by omega), if_neg (by omega)]

theorem emitByte_eq {s : State} (v : Byte) (h : s.enc.outputIndex < s.nOut) :
    emitByte v s = .ok ((s.withOutput (s.output.write s.enc.outputIndex v)).withEnc
      { s.enc with outputIndex := s.enc.outputIndex + 1 }) := by
  simp [emitByte, putOut_of_lt v h]

theorem shortRef_length (l : BitVec 3) (off : Off) : (encodeRecord (shortRef l off)).length = 2 := by
  unfold shortRef
  split_ifs <;> rfl

/-- The length of the back-reference's record: two or three bytes. -/
theorem backReference_length (off : Off) (n : Nat) :
    (encodeRecord (backReference off n)).length = if n < 9 then 2 else 3 := by
  by_cases h : n < 9
  · rw [backReference, if_pos h, if_pos h, shortRef_length]
  · rw [backReference, if_neg h, if_neg h]
    rfl

/-- The control byte of R84 is the encoder's control byte. -/
theorem refControl_eq (off : Off) (l : Nat) (h : l < 8) :
    refControl off l = ctrlByte (BitVec.ofNat 3 l) (offHi off) := by
  unfold refControl ctrlByte offHi
  apply BitVec.eq_of_toNat_eq
  have ho := off.isLt
  have hsh : off.toNat >>> 8 < 2 ^ 5 := by rw [Nat.shiftRight_eq_div_pow]; omega
  have hx : (BitVec.extractLsb' 8 5 off).toNat = off.toNat >>> 8 := by
    rw [BitVec.extractLsb'_toNat, Nat.mod_eq_of_lt hsh]
  have hl : (BitVec.ofNat 3 l).toNat = l := by rw [BitVec.toNat_ofNat, Nat.mod_eq_of_lt (by omega)]
  have hlt : l <<< 5 + off.toNat >>> 8 < 2 ^ 8 := by rw [Nat.shiftLeft_eq]; omega
  rw [BitVec.toNat_append, hx, hl, BitVec.toNat_ofNat, Nat.or_comm,
    ← Nat.shiftLeft_add_eq_or_of_lt hsh, Nat.mod_eq_of_lt hlt]

theorem offLo_eq (off : Off) : BitVec.ofNat 8 (off.toNat &&& 0xFF) = offLo off := by
  apply BitVec.eq_of_toNat_eq
  have hm : off.toNat &&& 0xFF = off.toNat % 2 ^ 8 := Nat.and_two_pow_sub_one_eq_mod off.toNat 8
  rw [hm, BitVec.toNat_ofNat, Nat.mod_mod, offLo, BitVec.extractLsb'_toNat, Nat.shiftRight_zero]

/-- R84 writes exactly the words of the back-reference. -/
theorem emitReference_spec {s : State} (h3 : 3 ≤ s.enc.length) (h264 : s.enc.length ≤ 264)
    (hroom : s.enc.outputIndex + 3 ≤ s.nOut) :
    ∃ m, emitReference s = .ok ((s.withOutput m).withEnc { s.enc with
        lenField := s.enc.length - 2
        outputIndex := s.enc.outputIndex
          + (encodeRecord (backReference s.enc.off s.enc.length)).length })
      ∧ m.slice s.enc.outputIndex (encodeRecord (backReference s.enc.off s.enc.length)).length
        = encodeRecord (backReference s.enc.off s.enc.length)
      ∧ (∀ a, a < s.enc.outputIndex
          ∨ s.enc.outputIndex + (encodeRecord (backReference s.enc.off s.enc.length)).length ≤ a →
          m.read a = s.output.read a)
      ∧ (s.output.wf → m.wf) ∧ m.base = s.output.base ∧ m.marks = s.output.marks := by
  rw [backReference_length]
  by_cases hs : s.enc.length < 9
  · rw [if_pos hs]
    refine ⟨(s.output.write s.enc.outputIndex (refControl s.enc.off (s.enc.length - 2))).write
      (s.enc.outputIndex + 1) (offLo s.enc.off), ?_, ?_, ?_, ?_, rfl, rfl⟩
    · rw [emitReference, if_pos (by omega), emitShort,
        emitByte_eq _ (by show s.enc.outputIndex < s.nOut; omega), run_ok_bind,
        emitByte_eq _ (by show s.enc.outputIndex + 1 < s.nOut; omega)]
      show Except.ok (State.withEnc (s.withOutput ((s.output.write s.enc.outputIndex
        (refControl s.enc.off (s.enc.length - 2))).write (s.enc.outputIndex + 1)
        (BitVec.ofNat 8 (s.enc.off.toNat &&& 0xFF)))) _) = _
      rw [offLo_eq]
      rfl
    · have hrec : encodeRecord (backReference s.enc.off s.enc.length)
          = [refControl s.enc.off (s.enc.length - 2), offLo s.enc.off] := by
        rw [refControl_eq _ _ (by omega)]
        unfold backReference shortRef
        rw [if_pos hs]
        have hcase : s.enc.length - 2 = 1 ∨ s.enc.length - 2 = 2 ∨ s.enc.length - 2 = 3
          ∨ s.enc.length - 2 = 4 ∨ s.enc.length - 2 = 5 ∨ s.enc.length - 2 = 6 := by omega
        rcases hcase with h | h | h | h | h | h <;> rw [h] <;> rfl
      rw [hrec]
      simp [Memory.slice, List.range_succ, Memory.read_write]
    · intro a ha
      rw [Memory.read_write_of_ne _ (by omega), Memory.read_write_of_ne _ (by omega)]
    · exact fun h => Memory.wf_write (Memory.wf_write h _ _) _ _
  · rw [if_neg hs]
    refine ⟨((s.output.write s.enc.outputIndex (refControl s.enc.off 7)).write
      (s.enc.outputIndex + 1) (BitVec.ofNat 8 (s.enc.length - 2 - 7))).write
      (s.enc.outputIndex + 2) (offLo s.enc.off), ?_, ?_, ?_, ?_, rfl, rfl⟩
    · rw [emitReference, if_neg (by omega), emitLong,
        emitByte_eq _ (by show s.enc.outputIndex < s.nOut; omega), run_ok_bind,
        emitByte_eq _ (by show s.enc.outputIndex + 1 < s.nOut; omega), run_ok_bind,
        emitByte_eq _ (by show s.enc.outputIndex + 2 < s.nOut; omega)]
      show Except.ok (State.withEnc (s.withOutput (((s.output.write s.enc.outputIndex
        (refControl s.enc.off 7)).write (s.enc.outputIndex + 1)
        (BitVec.ofNat 8 (s.enc.length - 2 - 7))).write (s.enc.outputIndex + 2)
        (BitVec.ofNat 8 (s.enc.off.toNat &&& 0xFF)))) _) = _
      rw [offLo_eq]
      rfl
    · have hrec : encodeRecord (backReference s.enc.off s.enc.length)
          = [refControl s.enc.off 7, BitVec.ofNat 8 (s.enc.length - 2 - 7), offLo s.enc.off] := by
        rw [refControl_eq _ _ (by omega)]
        unfold backReference
        rw [if_neg hs, show s.enc.length - 2 - 7 = s.enc.length - 9 by omega]
        rfl
      rw [hrec]
      simp [Memory.slice, List.range_succ, Memory.read_write]
    · intro a ha
      rw [Memory.read_write_of_ne _ (by omega), Memory.read_write_of_ne _ (by omega),
        Memory.read_write_of_ne _ (by omega)]
    · exact fun h => Memory.wf_write (Memory.wf_write (Memory.wf_write h _ _) _ _) _ _

theorem seedAt_eq {s : State} {q : Nat} (h : q + 3 ≤ s.nIn) :
    seedAt q s = .ok (s.withHtab (seeded s q s.htab)) := by
  simp [seedAt, fingerprintAt_eq h, seeded]

/-- R86, R87. -/
theorem reseed_eq {s : State} (hp : s.enc.p + 3 ≤ s.enc.inputIndex) :
    reseed s = .ok (s.withHtab (if s.enc.inputIndex + 2 ≥ s.nIn then s.htab
      else seeded s (s.enc.p + 2) (seeded s (s.enc.p + 1) s.htab))) := by
  unfold reseed
  split
  · rfl
  · rw [seedAt_eq (by omega), run_ok_bind, seedAt_eq (by simp; omega)]
    rfl

/-- What `hval` settles to with the cursor at `a` (10_state R17). -/
def hvalAt (s : State) (a : Nat) : Fingerprint :=
  if a + 3 ≤ s.nIn then fingerprintIn s a else Config.freeHval s.freeCount

/-- The count of free values after `hval` settled with the cursor at `a`. -/
def countAt (s : State) (a : Nat) : Nat := if a + 3 ≤ s.nIn then s.freeCount else s.freeCount + 1

theorem countAt_ge (s : State) (a : Nat) : s.freeCount ≤ countAt s a := by
  unfold countAt
  split <;> omega

/-- `hval` at a step boundary, and the free value it may use up. -/
theorem settleHval_eq (s : State) :
    settleHval s = .ok { s with
      enc := { s.enc with hval := hvalAt s s.enc.inputIndex }, freeCount := countAt s s.enc.inputIndex } := by
  unfold settleHval hvalAt countAt
  split
  · next h =>
    rw [fingerprintAt_eq h, run_ok_bind]
    rfl
  · rfl

end Sys2Proof.Machine
end

