-- ==== Sys2Proof/Laws/EncodeStep.lean ====
section
/-! SUPPORT. What one step of ENCODE can do, said once: six cases, from which the claims about the encoder
follow without unfolding its sub-steps again. -/

namespace Sys2Proof.Machine

open Sys2Proof.Safety

/-- The state after the literal step inside a run (R79). -/
def afterLiteral (s : State) : State :=
  { s with
    output := s.output.write s.enc.outputIndex (s.input.read s.enc.inputIndex)
    htab := tableAfterLookup s
    enc := { (judged s false).enc with
      hval := hvalAt s (s.enc.inputIndex + 1)
      outputIndex := s.enc.outputIndex + 1
      inputIndex := s.enc.inputIndex + 1
      lit := s.enc.lit + 1 }
    freeCount := countAt s (s.enc.inputIndex + 1) }

/-- The state after the literal step that completes a run (R80). -/
def afterRoll (s : State) : State :=
  { s with
    output := (s.output.write s.enc.outputIndex (s.input.read s.enc.inputIndex)).write
      (s.enc.outputIndex - 32) 31#8
    htab := tableAfterLookup s
    enc := { (judged s false).enc with
      hval := hvalAt s (s.enc.inputIndex + 1)
      outputIndex := s.enc.outputIndex + 2
      inputIndex := s.enc.inputIndex + 1
      lit := 0 }
    freeCount := countAt s (s.enc.inputIndex + 1) }

/-- Where the record of a match goes: over the withdrawn slot if the run is empty (R83). -/
def recordStart (s : State) : Nat := if s.enc.lit = 0 then s.enc.outputIndex - 1 else s.enc.outputIndex

/-- OUT after closing the run before a match (R83). -/
def closedOutput (s : State) : Memory :=
  if s.enc.lit = 0 then s.output
  else s.output.write (s.enc.outputIndex - s.enc.lit - 1) (BitVec.ofNat 8 (s.enc.lit - 1))

/-- The words of the match at the current position (R84). -/
def matchRecord (s : State) (n : Nat) : List Byte :=
  encodeRecord (backReference (BitVec.ofNat 13 (s.enc.inputIndex - candidate s - 1)) n)

/-- HTAB after the match step (R77, R86, R87). -/
def tableAfterMatch (s : State) (n : Nat) : HashTable :=
  if s.enc.inputIndex + n + 2 ≥ s.nIn then tableAfterLookup s
  else seeded s (s.enc.inputIndex + 2) (seeded s (s.enc.inputIndex + 1) (tableAfterLookup s))

/-- The state after the match step. -/
def afterMatch (s : State) (n : Nat) (m : Memory) : State :=
  { s with
    output := m
    htab := tableAfterMatch s n
    enc := { (judged s true).enc with
      maxlen := min (s.nIn - s.enc.inputIndex) 264
      length := n
      lenField := n - 2
      p := s.enc.inputIndex
      hval := hvalAt s (s.enc.inputIndex + n)
      inputIndex := s.enc.inputIndex + n
      lit := 0
      outputIndex := recordStart s + (matchRecord s n).length + 1 }
    freeCount := countAt s (s.enc.inputIndex + n) }

theorem literalStep_full {s : State} (h : s.nOut ≤ s.enc.outputIndex) :
    literalStep s = raise .insufficientBuffer s := by simp [literalStep, h]

theorem literalStep_room {s : State} (h : s.enc.outputIndex < s.nOut) : literalStep s = appendLiteral s := by
  simp [literalStep, Nat.not_le.mpr h]

/-- An iteration without a valid match and without room. -/
theorem iteration_literal_full {s : State} (h3 : s.enc.inputIndex + 3 ≤ s.nIn) (hv : ¬ ValidMatch s)
    (ho : s.nOut ≤ s.enc.outputIndex) : iteration s = raise .insufficientBuffer (judged s false) := by
  rw [iteration_eq h3, if_neg hv, literalStep_full (s := judged s false) ho, raise_bind]

theorem iteration_literal {s : State} (h3 : s.enc.inputIndex + 3 ≤ s.nIn) (hv : ¬ ValidMatch s)
    (ho : s.enc.outputIndex < s.nOut) (hl : s.enc.lit ≠ 31) : iteration s = .ok (afterLiteral s) := by
  rw [iteration_eq h3, if_neg hv, literalStep_room (s := judged s false) ho,
    appendLiteral_open (s := judged s false) (by show s.enc.inputIndex < s.nIn; omega) ho hl, run_ok_bind,
    settleHval_eq]
  rfl

theorem iteration_roll {s : State} (h3 : s.enc.inputIndex + 3 ≤ s.nIn) (hv : ¬ ValidMatch s)
    (ho : s.enc.outputIndex < s.nOut) (hl : s.enc.lit = 31) (hs : 32 ≤ s.enc.outputIndex) :
    iteration s = .ok (afterRoll s) := by
  rw [iteration_eq h3, if_neg hv, literalStep_room (s := judged s false) ho,
    appendLiteral_full (s := judged s false) (by show s.enc.inputIndex < s.nIn; omega) ho hl hs, run_ok_bind,
    settleHval_eq]
  rfl

theorem iteration_match_full {s : State} (h3 : s.enc.inputIndex + 3 ≤ s.nIn) (hv : ValidMatch s)
    (hroom : s.nOut + (if s.enc.lit = 0 then 1 else 0) ≤ s.enc.outputIndex + 4) :
    ∃ n, MatchLength s n
      ∧ iteration s = raise .insufficientBuffer (setLength n (setMaxlen (judged s true))) := by
  obtain ⟨n, hn, hm⟩ := matchLength_eq h3 hv
  refine ⟨n, hn, ?_⟩
  have hf : matchRoom (setLength n (setMaxlen (judged s true)))
      = raise .insufficientBuffer (setLength n (setMaxlen (judged s true))) := matchRoom_fail hroom
  rw [iteration_eq h3, if_pos hv, matchStep, hm, run_ok_bind, hf, raise_bind, raise_bind]

/-- The state after R83. -/
def runClosed (s : State) : State :=
  (s.withOutput (closedOutput s)).withEnc { s.enc with outputIndex := recordStart s }

/-- Closing the run before a match, in both its forms. -/
theorem closeRun_beforeMatch {s : State} (hl : s.enc.lit + 1 ≤ s.enc.outputIndex)
    (hn : s.enc.outputIndex - s.enc.lit - 1 < s.nOut) :
    closeRun s = .ok (runClosed s) := by
  unfold runClosed closedOutput recordStart
  by_cases h0 : s.enc.lit = 0
  · rw [closeRun_empty h0 (by omega), if_pos h0, if_pos h0]
    rfl
  · rw [closeRun_lit (by omega) hl hn, if_neg h0, if_neg h0]
    rfl

/-- The state after R84 to R87, `s` being the state after R83 and `m` OUT after R84. -/
def emitted (s : State) (m : Memory) : State :=
  { s with
    output := m
    htab := if s.enc.inputIndex + s.enc.length + 2 ≥ s.nIn then s.htab
      else seeded s (s.enc.inputIndex + 2) (seeded s (s.enc.inputIndex + 1) s.htab)
    enc := { s.enc with
      lenField := s.enc.length - 2
      p := s.enc.inputIndex
      inputIndex := s.enc.inputIndex + s.enc.length
      lit := 0
      outputIndex := s.enc.outputIndex
        + (encodeRecord (backReference s.enc.off s.enc.length)).length + 1 } }

/-- R84 to R87. -/
theorem emitAndSeed {s : State} (h3 : 3 ≤ s.enc.length) (h264 : s.enc.length ≤ 264)
    (hroom : s.enc.outputIndex + 3 ≤ s.nOut) :
    ∃ m, (do let u ← emitReference s; reseed (advanceMatch u)) = .ok (emitted s m)
      ∧ m.slice s.enc.outputIndex (encodeRecord (backReference s.enc.off s.enc.length)).length
        = encodeRecord (backReference s.enc.off s.enc.length)
      ∧ (∀ a, a < s.enc.outputIndex
          ∨ s.enc.outputIndex + (encodeRecord (backReference s.enc.off s.enc.length)).length ≤ a →
          m.read a = s.output.read a)
      ∧ (s.output.wf → m.wf) ∧ m.base = s.output.base ∧ m.marks = s.output.marks := by
  obtain ⟨m, hemit, rest⟩ := emitReference_spec h3 h264 hroom
  refine ⟨m, ?_, rest⟩
  rw [hemit, run_ok_bind, reseed_eq (by
    show s.enc.inputIndex + 3 ≤ s.enc.inputIndex + s.enc.length
    omega)]
  rfl

/-- R82 to R87. -/
theorem matchStep_afterLength {s : State} (h3 : 3 ≤ s.enc.length) (h264 : s.enc.length ≤ 264)
    (hl : s.enc.lit + 1 ≤ s.enc.outputIndex)
    (hroom : s.enc.outputIndex + 4 < s.nOut + (if s.enc.lit = 0 then 1 else 0)) :
    ∃ m, (do
        let u ← matchRoom s
        let u ← closeRun u
        let u ← emitReference u
        reseed (advanceMatch u)) = .ok (emitted (runClosed s) m)
      ∧ m.slice (recordStart s) (encodeRecord (backReference s.enc.off s.enc.length)).length
        = encodeRecord (backReference s.enc.off s.enc.length)
      ∧ (∀ a, a < recordStart s
          ∨ recordStart s + (encodeRecord (backReference s.enc.off s.enc.length)).length ≤ a →
          m.read a = (closedOutput s).read a)
      ∧ (s.output.wf → m.wf) ∧ m.base = s.output.base ∧ m.marks = s.output.marks := by
  have hstart : recordStart s + 3 ≤ s.nOut := by
    unfold recordStart
    split at hroom <;> simp_all <;> omega
  obtain ⟨m, hm, hslice, hother, hwf, hb, hk⟩ := emitAndSeed (s := runClosed s) h3 h264 hstart
  have hwf' : s.output.wf → (closedOutput s).wf := fun hw => by
    unfold closedOutput
    split
    · exact hw
    · exact Memory.wf_write hw _ _
  have hb' : (closedOutput s).base = s.output.base := by unfold closedOutput; split <;> rfl
  have hk' : (closedOutput s).marks = s.output.marks := by unfold closedOutput; split <;> rfl
  refine ⟨m, ?_, hslice, hother, fun hw => hwf (hwf' hw), hb.trans hb', hk.trans hk'⟩
  rw [matchRoom_ok hroom, run_ok_bind,
    closeRun_beforeMatch hl (by split at hroom <;> omega), run_ok_bind]
  exact hm

/-- What a match step wrote, `m` being OUT after it. -/
structure MatchOutput (s : State) (n : Nat) (m : Memory) : Prop where
  record : m.slice (recordStart s) (matchRecord s n).length = matchRecord s n
  others : ∀ a, a < recordStart s ∨ recordStart s + (matchRecord s n).length ≤ a →
    m.read a = (closedOutput s).read a
  wf : s.output.wf → m.wf
  base : m.base = s.output.base
  marks : m.marks = s.output.marks

theorem iteration_match {s : State} {n : Nat} (h3 : s.enc.inputIndex + 3 ≤ s.nIn) (hv : ValidMatch s)
    (hn : MatchLength s n) (hl : s.enc.lit + 1 ≤ s.enc.outputIndex)
    (hroom : s.enc.outputIndex + 4 < s.nOut + (if s.enc.lit = 0 then 1 else 0)) :
    ∃ m, iteration s = .ok (afterMatch s n m) ∧ MatchOutput s n m := by
  obtain ⟨n', hn', hm⟩ := matchLength_eq h3 hv
  obtain rfl := MatchLength_unique hn hn'
  obtain ⟨m, hstep, hslice, hother, hwf, hb, hk⟩ := matchStep_afterLength
    (s := setLength n (setMaxlen (judged s true))) hn.1 (by
      show n ≤ 264
      have := hn.2.1
      omega) hl hroom
  refine ⟨m, ?_, hslice, hother, hwf, hb, hk⟩
  have hmatch : matchStep (judged s true)
      = .ok (emitted (runClosed (setLength n (setMaxlen (judged s true)))) m) := by
    rw [matchStep, hm, run_ok_bind]
    exact hstep
  rw [iteration_eq h3, if_pos hv, hmatch, run_ok_bind, settleHval_eq]
  rfl

end Sys2Proof.Machine
end

