-- ==== Sys2Proof/Laws/Tail.lean ====
section
/-! SUPPORT. What the tail of ENCODE can do, said once (40_encoder R88 to R90). -/

namespace Sys2Proof.Machine

open Sys2Proof.Safety

/-- How many literals the last run and the bytes left make together. -/
def lastRun (s : State) : Nat := s.enc.lit + (s.nIn - s.enc.inputIndex)

/-- `written` of a successful ENCODE, from the state before its tail. -/
def tailWritten (s : State) : Nat :=
  if lastRun s = 0 then s.enc.outputIndex - 1
  else if lastRun s ≤ 32 then s.enc.outputIndex + (s.nIn - s.enc.inputIndex)
  else s.enc.outputIndex + (s.nIn - s.enc.inputIndex) + 1

/-- `lit` when the tail is done. -/
def tailLit (s : State) : Nat := if lastRun s < 32 then lastRun s else lastRun s - 32

/-- `m` is OUT after the tail ran from `s`, before the bytes from `written` up become unspecified. -/
structure TailOutput (s : State) (m : Memory) : Prop where
  slot : 0 < lastRun s →
    m.read (s.enc.outputIndex - s.enc.lit - 1) = BitVec.ofNat 8 (min (lastRun s) 32 - 1)
  literals : ∀ k, k < s.nIn - s.enc.inputIndex → s.enc.lit + k < 32 →
    m.read (s.enc.outputIndex + k) = s.input.read (s.enc.inputIndex + k)
  rolled : lastRun s = 33 → m.read (s.enc.outputIndex + 1) = 0#8
    ∧ m.read (s.enc.outputIndex + 2) = s.input.read (s.enc.inputIndex + 1)
  below : ∀ a, a < s.enc.outputIndex → a ≠ s.enc.outputIndex - s.enc.lit - 1 →
    m.read a = s.output.read a
  above : ∀ a, s.enc.outputIndex + 3 ≤ a → m.read a = s.output.read a
  wf : s.output.wf → m.wf
  base : m.base = s.output.base
  marks : m.marks = s.output.marks

theorem tail_noRoom {s : State} (h : s.nOut < s.enc.outputIndex + 3) :
    tail s = raise .insufficientBuffer s := by
  unfold tail
  rw [if_pos h]

/-- The state when the tail's literals are appended and its run closed. -/
def tailDone (s : State) (m : Memory) : State :=
  (s.withOutput m).withEnc { s.enc with
    inputIndex := s.nIn
    outputIndex := tailWritten s
    lit := tailLit s }

/-- The literals of the tail and its close, without the return. -/
def tailBody (s : State) : Run State := do
  let s ← tailLiterals (s.nIn - s.enc.inputIndex) s
  closeRun s

theorem tail_room {s : State} (h : s.enc.outputIndex + 3 ≤ s.nOut) :
    tail s = tailBody s >>= fun u => .ok (returnOk u.enc.outputIndex u) := by
  unfold tail tailBody
  rw [if_neg (by omega)]
  cases tailLiterals (s.nIn - s.enc.inputIndex) s <;> rfl

theorem tailLiterals_zero (s : State) : tailLiterals 0 s = .ok s := rfl

theorem tailLiterals_one (s : State) : tailLiterals 1 s = appendLiteral s := by
  unfold tailLiterals
  cases appendLiteral s <;> rfl

theorem tailLiterals_two (s : State) : tailLiterals 2 s = appendLiteral s >>= appendLiteral := by
  show appendLiteral s >>= tailLiterals 1 = _
  rw [funext tailLiterals_one]

theorem tail_ok {s : State} (hroom : s.enc.outputIndex + 3 ≤ s.nOut) (h3 : s.nIn < s.enc.inputIndex + 3)
    (hi : s.enc.inputIndex ≤ s.nIn) (hl : s.enc.lit ≤ 31) (hs : s.enc.lit + 1 ≤ s.enc.outputIndex) :
    ∃ m, tail s = .ok (returnOk (tailWritten s) (tailDone s m)) ∧ TailOutput s m := by
  suffices hb : ∃ m lit, lit = tailLit s ∧ tailBody s = .ok ((s.withOutput m).withEnc { s.enc with
      inputIndex := s.nIn, outputIndex := tailWritten s, lit := lit }) ∧ TailOutput s m by
    obtain ⟨m, lit, rfl, h, hm⟩ := hb
    exact ⟨m, by rw [tail_room hroom, h]; rfl, hm⟩
  have hleft : s.nIn - s.enc.inputIndex = 0 ∨ s.nIn - s.enc.inputIndex = 1
      ∨ s.nIn - s.enc.inputIndex = 2 := by omega
  unfold tailBody
  rcases hleft with hn | hn | hn
  · -- nothing left
    rw [hn]
    have hin : s.nIn = s.enc.inputIndex := by omega
    by_cases h0 : s.enc.lit = 0
    · refine ⟨s.output, 0, by unfold tailLit lastRun; split <;> omega,
        ?_, ⟨?_, ?_, ?_, ?_, ?_, id, rfl, rfl⟩⟩
      · rw [tailLiterals_zero, run_ok_bind, closeRun_empty h0 (by omega)]
        have hw : tailWritten s = s.enc.outputIndex - 1 := by
          unfold tailWritten lastRun
          rw [if_pos (by omega)]
        rw [hw, hin, ← h0]
        rfl
      · unfold lastRun; omega
      · intro k hk; omega
      · unfold lastRun; omega
      · intros; rfl
      · intros; rfl
    · refine ⟨s.output.write (s.enc.outputIndex - s.enc.lit - 1) (BitVec.ofNat 8 (s.enc.lit - 1)),
        s.enc.lit, by unfold tailLit lastRun; split <;> omega,
        ?_, ⟨?_, ?_, ?_, ?_, ?_, fun hw => Memory.wf_write hw _ _, rfl, rfl⟩⟩
      · rw [tailLiterals_zero, run_ok_bind, closeRun_lit (by omega) hs (by omega)]
        have hw : tailWritten s = s.enc.outputIndex := by
          unfold tailWritten lastRun
          rw [if_neg (by omega), if_pos (by omega), hn]
          rfl
        rw [hw, hin]
        rfl
      · intro _
        rw [Memory.read_write_self, show min (lastRun s) 32 = s.enc.lit by unfold lastRun; omega]
      · intro k hk; omega
      · unfold lastRun; omega
      · intro a _ h; exact Memory.read_write_of_ne _ h _
      · intro a h; exact Memory.read_write_of_ne _ (by omega) _
  · -- one literal
    rw [hn]
    have hin : s.nIn = s.enc.inputIndex + 1 := by omega
    by_cases h31 : s.enc.lit = 31
    · refine ⟨(s.output.write s.enc.outputIndex (s.input.read s.enc.inputIndex)).write
        (s.enc.outputIndex - 32) 31#8, 0, by unfold tailLit lastRun; split <;> omega,
        ?_, ⟨?_, ?_, ?_, ?_, ?_,
        fun hw => Memory.wf_write (Memory.wf_write hw _ _) _ _, rfl, rfl⟩⟩
      · rw [tailLiterals_one, appendLiteral_full (by omega) (by omega) h31 (by omega), run_ok_bind,
          closeRun_empty rfl (by
            show 1 ≤ s.enc.outputIndex + 2
            omega)]
        have hw : tailWritten s = s.enc.outputIndex + 1 := by
          unfold tailWritten lastRun
          rw [if_neg (by omega), if_pos (by omega), hn]
        rw [hw, hin]
        rfl
      · intro _
        rw [show s.enc.outputIndex - s.enc.lit - 1 = s.enc.outputIndex - 32 by omega,
          Memory.read_write_self, show min (lastRun s) 32 = 32 by unfold lastRun; omega]
      · intro k hk _
        obtain rfl : k = 0 := by omega
        rw [Memory.read_write_of_ne _ (by omega)]
        exact Memory.read_write_self _ _ _
      · unfold lastRun; omega
      · intro a ha h
        rw [Memory.read_write_of_ne _ (by omega), Memory.read_write_of_ne _ (by omega)]
      · intro a h
        rw [Memory.read_write_of_ne _ (by omega), Memory.read_write_of_ne _ (by omega)]
    · refine ⟨(s.output.write s.enc.outputIndex (s.input.read s.enc.inputIndex)).write
        (s.enc.outputIndex - s.enc.lit - 1) (BitVec.ofNat 8 s.enc.lit), s.enc.lit + 1, by unfold tailLit lastRun; split <;> omega,
        ?_,
        ⟨?_, ?_, ?_, ?_, ?_, fun hw => Memory.wf_write (Memory.wf_write hw _ _) _ _, rfl, rfl⟩⟩
      · rw [tailLiterals_one, appendLiteral_open (by omega) (by omega) h31, run_ok_bind,
          closeRun_lit (by show 0 < s.enc.lit + 1; omega)
            (by show s.enc.lit + 1 + 1 ≤ s.enc.outputIndex + 1; omega)
            (by show s.enc.outputIndex + 1 - (s.enc.lit + 1) - 1 < s.nOut; omega)]
        have hw : tailWritten s = s.enc.outputIndex + 1 := by
          unfold tailWritten lastRun
          rw [if_neg (by omega), if_pos (by omega), hn]
        have hslot : s.enc.outputIndex + 1 - (s.enc.lit + 1) - 1 = s.enc.outputIndex - s.enc.lit - 1 := by
          omega
        rw [hw, hin]
        simp only [State.withEnc_enc, hslot]
        rfl
      · intro _
        rw [Memory.read_write_self, show min (lastRun s) 32 - 1 = s.enc.lit by unfold lastRun; omega]
      · intro k hk _
        obtain rfl : k = 0 := by omega
        rw [Memory.read_write_of_ne _ (by omega)]
        exact Memory.read_write_self _ _ _
      · unfold lastRun; omega
      · intro a ha h
        rw [Memory.read_write_of_ne _ h, Memory.read_write_of_ne _ (by omega)]
      · intro a h
        rw [Memory.read_write_of_ne _ (by omega), Memory.read_write_of_ne _ (by omega)]
  · -- two literals
    rw [hn]
    have hin : s.nIn = s.enc.inputIndex + 2 := by omega
    by_cases h31 : s.enc.lit = 31
    · refine ⟨(((s.output.write s.enc.outputIndex (s.input.read s.enc.inputIndex)).write
        (s.enc.outputIndex - 32) 31#8).write (s.enc.outputIndex + 2)
          (s.input.read (s.enc.inputIndex + 1))).write (s.enc.outputIndex + 1) 0#8, 1, by unfold tailLit lastRun; split <;> omega,
        ?_,
        ⟨?_, ?_, ?_, ?_, ?_, fun hw => Memory.wf_write (Memory.wf_write (Memory.wf_write
          (Memory.wf_write hw _ _) _ _) _ _) _ _, rfl, rfl⟩⟩
      · rw [tailLiterals_two, appendLiteral_full (by omega) (by omega) h31 (by omega), run_ok_bind,
          appendLiteral_open (by show s.enc.inputIndex + 1 < s.nIn; omega)
            (by show s.enc.outputIndex + 2 < s.nOut; omega) (by show (0 : Nat) ≠ 31; omega),
          run_ok_bind, closeRun_lit (by show 0 < 0 + 1; omega)
            (by show 0 + 1 + 1 ≤ s.enc.outputIndex + 2 + 1; omega)
            (by show s.enc.outputIndex + 2 + 1 - (0 + 1) - 1 < s.nOut; omega)]
        have hw : tailWritten s = s.enc.outputIndex + 3 := by
          unfold tailWritten lastRun
          rw [if_neg (by omega), if_neg (by omega), hn]
        rw [hw, hin]
        rfl
      · intro _
        rw [show s.enc.outputIndex - s.enc.lit - 1 = s.enc.outputIndex - 32 by omega,
          Memory.read_write_of_ne _ (by omega), Memory.read_write_of_ne _ (by omega),
          Memory.read_write_self, show min (lastRun s) 32 = 32 by unfold lastRun; omega]
      · intro k hk hk'
        obtain rfl : k = 0 := by omega
        rw [Memory.read_write_of_ne _ (by omega), Memory.read_write_of_ne _ (by omega),
          Memory.read_write_of_ne _ (by omega)]
        exact Memory.read_write_self _ _ _
      · intro _
        refine ⟨Memory.read_write_self _ _ _, ?_⟩
        rw [Memory.read_write_of_ne _ (by omega)]
        exact Memory.read_write_self _ _ _
      · intro a ha h
        rw [Memory.read_write_of_ne _ (by omega), Memory.read_write_of_ne _ (by omega),
          Memory.read_write_of_ne _ (by omega), Memory.read_write_of_ne _ (by omega)]
      · intro a h
        rw [Memory.read_write_of_ne _ (by omega), Memory.read_write_of_ne _ (by omega),
          Memory.read_write_of_ne _ (by omega), Memory.read_write_of_ne _ (by omega)]
    · by_cases h30 : s.enc.lit = 30
      · refine ⟨((s.output.write s.enc.outputIndex (s.input.read s.enc.inputIndex)).write
          (s.enc.outputIndex + 1) (s.input.read (s.enc.inputIndex + 1))).write
            (s.enc.outputIndex - 31) 31#8, 0, by unfold tailLit lastRun; split <;> omega,
        ?_,
          ⟨?_, ?_, ?_, ?_, ?_, fun hw => Memory.wf_write (Memory.wf_write
            (Memory.wf_write hw _ _) _ _) _ _, rfl, rfl⟩⟩
        · rw [tailLiterals_two, appendLiteral_open (by omega) (by omega) h31,
            run_ok_bind, appendLiteral_full (by show s.enc.inputIndex + 1 < s.nIn; omega)
              (by show s.enc.outputIndex + 1 < s.nOut; omega) (by show s.enc.lit + 1 = 31; omega)
              (by show 32 ≤ s.enc.outputIndex + 1; omega),
            run_ok_bind, closeRun_empty rfl (by
              show 1 ≤ s.enc.outputIndex + 1 + 2
              omega)]
          have hw : tailWritten s = s.enc.outputIndex + 2 := by
            unfold tailWritten lastRun
            rw [if_neg (by omega), if_pos (by omega), hn]
          rw [hw, hin]
          simp only [State.withEnc_enc, show s.enc.outputIndex + 1 - 32 = s.enc.outputIndex - 31 by omega]
          rfl
        · intro _
          rw [show s.enc.outputIndex - s.enc.lit - 1 = s.enc.outputIndex - 31 by omega,
            Memory.read_write_self, show min (lastRun s) 32 = 32 by unfold lastRun; omega]
        · intro k hk _
          have hk' : k = 0 ∨ k = 1 := by omega
          rcases hk' with rfl | rfl
          · rw [Memory.read_write_of_ne _ (by omega), Memory.read_write_of_ne _ (by omega)]
            exact Memory.read_write_self _ _ _
          · rw [Memory.read_write_of_ne _ (by omega)]
            exact Memory.read_write_self _ _ _
        · unfold lastRun; omega
        · intro a ha h
          rw [Memory.read_write_of_ne _ (by omega), Memory.read_write_of_ne _ (by omega),
            Memory.read_write_of_ne _ (by omega)]
        · intro a h
          rw [Memory.read_write_of_ne _ (by omega), Memory.read_write_of_ne _ (by omega),
            Memory.read_write_of_ne _ (by omega)]
      · refine ⟨((s.output.write s.enc.outputIndex (s.input.read s.enc.inputIndex)).write
          (s.enc.outputIndex + 1) (s.input.read (s.enc.inputIndex + 1))).write
            (s.enc.outputIndex - s.enc.lit - 1) (BitVec.ofNat 8 (s.enc.lit + 1)), s.enc.lit + 2, by unfold tailLit lastRun; split <;> omega,
        ?_,
          ⟨?_, ?_, ?_, ?_, ?_, fun hw => Memory.wf_write (Memory.wf_write
            (Memory.wf_write hw _ _) _ _) _ _, rfl, rfl⟩⟩
        · rw [tailLiterals_two, appendLiteral_open (by omega) (by omega) h31,
            run_ok_bind, appendLiteral_open (by show s.enc.inputIndex + 1 < s.nIn; omega)
              (by show s.enc.outputIndex + 1 < s.nOut; omega) (by show s.enc.lit + 1 ≠ 31; omega),
            run_ok_bind, closeRun_lit (by show 0 < s.enc.lit + 1 + 1; omega)
              (by show s.enc.lit + 1 + 1 + 1 ≤ s.enc.outputIndex + 1 + 1; omega)
              (by show s.enc.outputIndex + 1 + 1 - (s.enc.lit + 1 + 1) - 1 < s.nOut; omega)]
          have hw : tailWritten s = s.enc.outputIndex + 2 := by
            unfold tailWritten lastRun
            rw [if_neg (by omega), if_pos (by omega), hn]
          have hslot : s.enc.outputIndex + 1 + 1 - (s.enc.lit + 1 + 1) - 1
              = s.enc.outputIndex - s.enc.lit - 1 := by omega
          rw [hw, hin]
          simp only [State.withEnc_enc, hslot]
          rfl
        · intro _
          rw [Memory.read_write_self, show min (lastRun s) 32 - 1 = s.enc.lit + 1 by unfold lastRun; omega]
        · intro k hk _
          have hk' : k = 0 ∨ k = 1 := by omega
          rcases hk' with rfl | rfl
          · rw [Memory.read_write_of_ne _ (by omega), Memory.read_write_of_ne _ (by omega)]
            exact Memory.read_write_self _ _ _
          · rw [Memory.read_write_of_ne _ (by omega)]
            exact Memory.read_write_self _ _ _
        · unfold lastRun; omega
        · intro a ha h
          rw [Memory.read_write_of_ne _ (by omega), Memory.read_write_of_ne _ (by omega),
            Memory.read_write_of_ne _ (by omega)]
        · intro a h
          rw [Memory.read_write_of_ne _ (by omega), Memory.read_write_of_ne _ (by omega),
            Memory.read_write_of_ne _ (by omega)]

end Sys2Proof.Machine
end

