-- ==== Sys2Proof/Laws/Step.lean ====
section
/-! SUPPORT. What one step can do in each phase, said once: the fetch is resolved and the outcome is one
of the named after-states. -/

namespace Sys2Proof.Machine

open Sys2Proof.Safety

/-! ### The step in each phase -/

theorem step_idle_wait {s : State} (hp : s.phase = .idle) (h : s.presented = none) : step s = .next s := by
  simp [step, fetch, hp, h]

theorem step_idle_run {s : State} {r : CommandRecord} (hp : s.phase = .idle) (h : s.presented = some r) :
    step s = exec (decodeCommand r) s := by
  simp [step, fetch, hp, h]

theorem step_encoding {s : State} (hp : s.phase = .encoding) : step s = encodeStep s := by
  simp [step, fetch, hp]

theorem step_frameEnd {s : State} (hp : s.phase = .decoding) (h : s.nIn ≤ s.dec.inputIndex) :
    step s = .next (endOfFrame s) := by
  simp [step, fetch, hp, fetchRecord, Nat.not_lt.mpr h]

theorem step_record {s : State} (hp : s.phase = .decoding) (h : s.dec.inputIndex < s.nIn) :
    step s = match decodeRecord (s.input.slice s.dec.inputIndex (s.nIn - s.dec.inputIndex)) with
      | .ok (i, _) => exec i s
      | .error r => (runTruncated r s).outcome := by
  unfold step fetch
  rw [hp]
  simp only [fetchRecord_eq s h]
  cases decodeRecord (s.input.slice s.dec.inputIndex (s.nIn - s.dec.inputIndex)) <;> rfl

/-- The frame bytes left, when there are some. -/
theorem frameLeft_cons {s : State} (h : s.dec.inputIndex < s.nIn) :
    s.input.slice s.dec.inputIndex (s.nIn - s.dec.inputIndex)
      = s.input.read s.dec.inputIndex
        :: s.input.slice (s.dec.inputIndex + 1) (s.nIn - s.dec.inputIndex - 1) := by
  obtain ⟨n, hn⟩ : ∃ n, s.nIn - s.dec.inputIndex = n + 1 := ⟨s.nIn - s.dec.inputIndex - 1, by omega⟩
  rw [hn, Memory.slice_cons, Nat.add_sub_cancel]

/-! ### A record at the record pointer -/

theorem step_lit {s : State} (hp : s.phase = .decoding) (h : s.dec.inputIndex < s.nIn)
    (hc : (s.input.read s.dec.inputIndex).toNat < 32) :
    let c := s.input.read s.dec.inputIndex
    let count := c.toNat + 1
    (s.nOut < s.dec.outputIndex + count →
        step s = .next (errorEntry .insufficientBuffer (litBegun c count s)))
      ∧ (s.dec.outputIndex + count ≤ s.nOut → s.nIn < s.dec.inputIndex + 1 + count →
          step s = .next (errorEntry .dataCorruption (litBegun c count s)))
      ∧ (s.dec.outputIndex + count ≤ s.nOut → s.dec.inputIndex + 1 + count ≤ s.nIn →
          ∃ m, step s = .next (afterLit c count s m)
            ∧ (∀ k, k < count → m.read (s.dec.outputIndex + k) = s.input.read (s.dec.inputIndex + 1 + k))
            ∧ (∀ b, b < s.dec.outputIndex ∨ s.dec.outputIndex + count ≤ b → m.read b = s.output.read b)
            ∧ (s.output.wf → m.wf) ∧ m.base = s.output.base ∧ m.marks = s.output.marks) := by
  intro c count
  replace hc : c.toNat < 32 := hc
  have hcl : ctrlClass c = 0#3 := (ctrlClass_eq_iff c 0 (by omega)).mpr (by omega)
  have hcount : litCount c = count := by rw [litCount_eq]; omega
  have hst := step_record hp h
  rw [frameLeft_cons h, decodeRecord_cons, if_pos hcl, Memory.slice_length, hcount] at hst
  by_cases hfit : s.nIn - s.dec.inputIndex - 1 < count
  · rw [if_pos hfit] at hst
    have hst : step s = (litTests c (litCount c) s >>= fun _ =>
      (Except.error (Halt.fault Fault.inputIndexOutside) : Run State)).outcome := hst
    rw [litTests_eq, hcount] at hst
    refine ⟨fun ho => ?_, fun ho hi => ?_, fun ho hi => by omega⟩
    · rw [hst, if_pos ho]
      rfl
    · rw [hst, if_neg (by omega), if_pos hi]
      rfl
  · rw [if_neg hfit] at hst
    have hlen : ((s.input.slice (s.dec.inputIndex + 1) (s.nIn - s.dec.inputIndex - 1)).take count).length
        = count := by
      rw [List.length_take, Memory.slice_length]
      omega
    have hst : step s = execLit
      ((s.input.slice (s.dec.inputIndex + 1) (s.nIn - s.dec.inputIndex - 1)).take count) s := hst
    generalize hls : (s.input.slice (s.dec.inputIndex + 1) (s.nIn - s.dec.inputIndex - 1)).take count = ls
      at hst hlen
    have hctl : (Instr.lit ls).control = c := by
      show ctrlByte 0#3 (BitVec.ofNat 5 (ls.length - 1)) = c
      have hlow : ctrlLow c = BitVec.ofNat 5 (ls.length - 1) := by
        apply BitVec.eq_of_toNat_eq
        rw [ctrlLow_toNat, BitVec.toNat_ofNat, hlen]
        omega
      rw [← hcl, ← hlow, ctrlByte_split]
    refine ⟨fun ho => ?_, fun ho hi => by omega, fun ho hi => ?_⟩
    · rw [hst, execLit_noRoom (by omega), hctl, hlen]
    · obtain ⟨m, hm, hread, hother, hrest⟩ := execLit_ok (ls := ls) (s := s) (by omega) (by omega)
      rw [hctl, hlen] at hm
      rw [hlen] at hother
      refine ⟨m, hst.trans hm, fun k hk => ?_, hother, hrest⟩
      rw [hread k (by omega)]
      simp only [← hls, List.getElem_take, Memory.slice_getElem]

theorem step_short {s : State} (hp : s.phase = .decoding) (h : s.dec.inputIndex < s.nIn)
    (hc : 32 ≤ (s.input.read s.dec.inputIndex).toNat) (hc' : (s.input.read s.dec.inputIndex).toNat < 224) :
    let c := s.input.read s.dec.inputIndex
    let lo := s.input.read (s.dec.inputIndex + 1)
    (s.nIn < s.dec.inputIndex + 2 → step s = .next (errorEntry .dataCorruption (refBegun c s)))
      ∧ (s.dec.inputIndex + 2 ≤ s.nIn → step s = (runShortRef c lo s).outcome) := by
  intro c lo
  replace hc : 32 ≤ c.toNat := hc
  replace hc' : c.toNat < 224 := hc'
  have hst := step_record hp h
  have hn0 : ¬ ctrlClass c = 0#3 := fun h => by
    have := (ctrlClass_eq_iff c 0 (by omega)).mp h
    omega
  have hn7 : ¬ ctrlClass c = 7#3 := fun h => by
    have := (ctrlClass_eq_iff c 7 (by omega)).mp h
    omega
  rw [frameLeft_cons h, decodeRecord_cons, if_neg hn0, if_neg hn7] at hst
  refine ⟨fun hi => ?_, fun hi => ?_⟩
  · rw [show s.nIn - s.dec.inputIndex - 1 = 0 by omega, Memory.slice_zero] at hst
    have hst : step s = (refTests c s >>= fun _ =>
      (Except.error (Halt.fault Fault.inputIndexOutside) : Run State)).outcome := hst
    rw [refTests_eq, if_pos hi] at hst
    exact hst
  · rw [show s.nIn - s.dec.inputIndex - 1 = (s.nIn - s.dec.inputIndex - 2) + 1 by omega,
      Memory.slice_cons] at hst
    have hst : step s = exec (shortRef (ctrlClass c) (joinOff (ctrlLow c) lo)) s := hst
    rw [hst]
    have key : ∀ k, k < 7 → c.toNat / 32 = k →
        ctrlByte (BitVec.ofNat 3 k) (offHi (joinOff (ctrlLow c) lo)) = c := by
      intro k _ hk
      rw [offHi_joinOff, ← (ctrlClass_eq_iff c k (by omega)).mpr hk, ctrlByte_split]
    have hcs : c.toNat / 32 = 1 ∨ c.toNat / 32 = 2 ∨ c.toNat / 32 = 3 ∨ c.toNat / 32 = 4
      ∨ c.toNat / 32 = 5 ∨ c.toNat / 32 = 6 := by omega
    rcases hcs with h | h | h | h | h | h
    all_goals
      have hk := key _ (by omega) h
      rw [(ctrlClass_eq_iff c _ (by omega)).mpr h]
      show (runShortRef (ctrlByte _ _) (offLo (joinOff (ctrlLow c) lo)) s).outcome = _
      rw [hk, offLo_joinOff]

theorem step_long {s : State} (hp : s.phase = .decoding) (h : s.dec.inputIndex < s.nIn)
    (hc : 224 ≤ (s.input.read s.dec.inputIndex).toNat) :
    let c := s.input.read s.dec.inputIndex
    let ext := s.input.read (s.dec.inputIndex + 1)
    let lo := s.input.read (s.dec.inputIndex + 2)
    (s.nIn < s.dec.inputIndex + 2 → step s = .next (errorEntry .dataCorruption (refBegun c s)))
      ∧ (s.nIn = s.dec.inputIndex + 2 →
          step s = .next (errorEntry .dataCorruption (extTaken ext (refBegun c s))))
      ∧ (s.dec.inputIndex + 3 ≤ s.nIn → step s = (copyMatch (longTaken c ext lo s)).outcome) := by
  intro c ext lo
  replace hc : 224 ≤ c.toNat := hc
  have hst := step_record hp h
  have hlt := c.isLt
  have hn0 : ¬ ctrlClass c = 0#3 := fun h => by
    have := (ctrlClass_eq_iff c 0 (by omega)).mp h
    omega
  have h7 : ctrlClass c = 7#3 := (ctrlClass_eq_iff c 7 (by omega)).mpr (by omega)
  rw [frameLeft_cons h, decodeRecord_cons, if_neg hn0, if_pos h7] at hst
  refine ⟨fun hi => ?_, fun hi => ?_, fun hi => ?_⟩
  · rw [show s.nIn - s.dec.inputIndex - 1 = 0 by omega, Memory.slice_zero] at hst
    have hst : step s = (refTests c s >>= fun _ =>
      (Except.error (Halt.fault Fault.inputIndexOutside) : Run State)).outcome := hst
    rw [refTests_eq, if_pos hi] at hst
    exact hst
  · rw [show s.nIn - s.dec.inputIndex - 1 = 0 + 1 by omega, Memory.slice_cons] at hst
    have hst : step s = (refTests c s >>= fun s => takeExt ext s >>= fun _ =>
      (Except.error (Halt.fault Fault.inputIndexOutside) : Run State)).outcome := hst
    rw [refTests_eq, if_neg (by omega), run_ok_bind, takeExt_eq, if_pos] at hst
    · exact hst
    · rw [refBegun_dec]
      show s.nIn < s.dec.inputIndex + 1 + 2
      omega
  · rw [show s.nIn - s.dec.inputIndex - 1 = (s.nIn - s.dec.inputIndex - 3) + 2 by omega,
      Memory.slice_cons, Memory.slice_cons] at hst
    have hst : step s = execRefx (joinOff (ctrlLow c) lo) ext s := hst
    have hctl : (Instr.refx (joinOff (ctrlLow c) lo) ext).control = c := by
      show ctrlByte 7#3 _ = c
      rw [offHi_joinOff, ← h7, ctrlByte_split]
    rw [hst, execRefx_run _ _ _ hi, hctl, offLo_joinOff]

/-! ### Starting a command -/

/-- The state of an accepted ENCODE whose table is prepared. -/
def encodeAccepted (r : CommandRecord) (s : State) : State :=
  { s with
    command := r
    phase := .encoding
    presented := none
    htab := if r.clearHtab = 1#1 then HashTable.cleared else s.htab }

/-- The state of an accepted DECODE with its cursor set. -/
def decodeAccepted (r : CommandRecord) (s : State) : State :=
  { s with
    command := r
    phase := .decoding
    presented := none
    dec := { s.dec with inputIndex := 0, outputIndex := 0 } }

/-- The state of an accepted ENCODE at its first step boundary (R73). -/
def encodeBegun (r : CommandRecord) (s : State) : State :=
  { encodeAccepted r s with
    enc := { s.enc with
      inputIndex := 0
      outputIndex := 1
      lit := 0
      hval := hvalAt (encodeAccepted r s) 0 }
    freeCount := countAt (encodeAccepted r s) 0 }

theorem startEncode_eq (r : CommandRecord) (s : State) :
    startEncode (latch r .encoding s) =
      if r.nIn.toNat = 0 then .ok (returnOk 0 (encodeAccepted r s))
      else if r.nOut.toNat = 0 then raise .insufficientBuffer (encodeAccepted r s)
      else .ok (encodeBegun r s) := by
  have hs : settleHval (startCursor (encodeAccepted r s)) = .ok (encodeBegun r s) :=
    settleHval_eq (startCursor (encodeAccepted r s))
  rw [← hs]
  have hp : prepareTable r.clearHtab (latch r .encoding s) = encodeAccepted r s := by
    unfold prepareTable encodeAccepted
    split <;> rfl
  rw [← hp]
  unfold startEncode
  have h1 : (prepareTable r.clearHtab (latch r .encoding s)).nIn = r.nIn.toNat := by rw [hp]; rfl
  have h2 : (prepareTable r.clearHtab (latch r .encoding s)).nOut = r.nOut.toNat := by rw [hp]; rfl
  rw [← h1, ← h2]
  rfl

theorem startDecode_eq (r : CommandRecord) (s : State) :
    startDecode (latch r .decoding s) =
      if r.nIn.toNat = 0 then .ok (returnOk 0 (decodeAccepted r s)) else .ok (decodeAccepted r s) := rfl

end Sys2Proof.Machine
end

