-- ==== Sys2Proof/Laws/Cases.lean ====
section
/-! SUPPORT. What one step can do, as one case list for each phase, guards included: the claims over all
states follow from these without unfolding a step again. -/

namespace Sys2Proof.Machine

open Sys2Proof.Safety

/-! ### ENCODING -/

/-- Everything a step of ENCODE can do. -/
inductive EncodeCase (s : State) : Prop where
  /-- No room for a literal. -/
  | literalNoRoom (h3 : s.enc.inputIndex + 3 ≤ s.nIn) (hv : ¬ ValidMatch s) (ho : s.nOut ≤ s.enc.outputIndex)
      (hs : step s = .next (errorEntry .insufficientBuffer (judged s false)))
  /-- No room for a match. -/
  | matchNoRoom (n : Nat) (h3 : s.enc.inputIndex + 3 ≤ s.nIn) (hv : ValidMatch s) (hn : MatchLength s n)
      (hroom : ¬ MatchHasRoom s)
      (hs : step s = .next (errorEntry .insufficientBuffer (setLength n (setMaxlen (judged s true)))))
  /-- No room for the tail. -/
  | tailNoRoom (h3 : s.nIn < s.enc.inputIndex + 3) (hroom : s.nOut < s.enc.outputIndex + 3)
      (hs : step s = .next (errorEntry .insufficientBuffer s))
  /-- A literal inside a run. -/
  | literal (h3 : s.enc.inputIndex + 3 ≤ s.nIn) (hv : ¬ ValidMatch s)
      (ho : s.enc.outputIndex < s.nOut) (hl : s.enc.lit ≠ 31) (hs : step s = .next (afterLiteral s))
  /-- The 32nd literal of a run. -/
  | roll (h3 : s.enc.inputIndex + 3 ≤ s.nIn) (hv : ¬ ValidMatch s)
      (ho : s.enc.outputIndex < s.nOut) (hl : s.enc.lit = 31) (hs : step s = .next (afterRoll s))
  /-- A match. -/
  | isMatch (n : Nat) (m : Memory) (h3 : s.enc.inputIndex + 3 ≤ s.nIn)
      (hv : ValidMatch s) (hn : MatchLength s n)
      (hroom : MatchHasRoom s) (hm : MatchOutput s n m)
      (hs : step s = .next (afterMatch s n m))
  /-- The tail. -/
  | done (m : Memory) (h3 : s.nIn < s.enc.inputIndex + 3) (hroom : s.enc.outputIndex + 3 ≤ s.nOut)
      (hm : TailOutput s m) (hs : step s = .next (returnOk (tailWritten s) (tailDone s m)))

theorem encode_cases {s : State} (hp : s.phase = .encoding) (hr : EncoderRanges s) : EncodeCase s := by
  obtain ⟨-, -, hi, hl, -, hslot, -, -⟩ := hr
  have hst : step s = encodeStep s := step_encoding hp
  unfold encodeStep at hst
  by_cases h3 : s.enc.inputIndex + 3 ≤ s.nIn
  · rw [if_pos h3] at hst
    by_cases hv : ValidMatch s
    · by_cases hroom : MatchHasRoom s
      · obtain ⟨n, hn, -⟩ := matchLength_eq h3 hv
        obtain ⟨m, he, hm⟩ := iteration_match h3 hv hn hslot hroom
        rw [he] at hst
        exact .isMatch n m h3 hv hn hroom hm hst
      · obtain ⟨n, hn, he⟩ := iteration_match_full h3 hv (Nat.not_lt.mp hroom)
        rw [he] at hst
        exact .matchNoRoom n h3 hv hn hroom hst
    · by_cases ho : s.enc.outputIndex < s.nOut
      · by_cases hl31 : s.enc.lit = 31
        · rw [iteration_roll h3 hv ho hl31 (by omega)] at hst
          exact .roll h3 hv ho hl31 hst
        · rw [iteration_literal h3 hv ho hl31] at hst
          exact .literal h3 hv ho hl31 hst
      · rw [iteration_literal_full h3 hv (Nat.not_lt.mp ho)] at hst
        exact .literalNoRoom h3 hv (Nat.not_lt.mp ho) hst
  · rw [if_neg h3] at hst
    by_cases hroom : s.enc.outputIndex + 3 ≤ s.nOut
    · obtain ⟨m, he, hm⟩ := tail_ok hroom (Nat.not_le.mp h3) hi hl hslot
      rw [he] at hst
      exact .done m (Nat.not_le.mp h3) hroom hm hst
    · rw [tail_noRoom (Nat.not_le.mp hroom)] at hst
      exact .tailNoRoom (Nat.not_le.mp h3) (Nat.not_le.mp hroom) hst

theorem tailWritten_le {s : State} (h3 : s.nIn < s.enc.inputIndex + 3) :
    tailWritten s ≤ s.enc.outputIndex + 3 := by
  unfold tailWritten
  split_ifs <;> omega

theorem matchRecord_length (s : State) (n : Nat) : (matchRecord s n).length = if n < 9 then 2 else 3 :=
  backReference_length _ n

/-- With room by R82 the record of the match, and the next slot or the end, lie in OUT. -/
theorem recordStart_room {s : State} (hroom : MatchHasRoom s) : recordStart s + 4 ≤ s.nOut := by
  unfold recordStart
  unfold MatchHasRoom at hroom
  split at hroom <;> split <;> omega

/-! ### DECODING -/

/-- Everything a step of DECODE can do. `c`, `ext` and `lo` are the bytes at the record pointer. -/
inductive DecodeCase (s : State) : Prop where
  /-- A LIT without room in OUT. -/
  | litNoRoom (h : s.dec.inputIndex < s.nIn) (hc : (s.input.read s.dec.inputIndex).toNat < 32)
      (ho : s.nOut < s.dec.outputIndex + ((s.input.read s.dec.inputIndex).toNat + 1))
      (hs : step s = .next (errorEntry .insufficientBuffer (litBegun (s.input.read s.dec.inputIndex)
        ((s.input.read s.dec.inputIndex).toNat + 1) s)))
  /-- A LIT whose payload is truncated. -/
  | litTruncated (h : s.dec.inputIndex < s.nIn) (hc : (s.input.read s.dec.inputIndex).toNat < 32)
      (ho : s.dec.outputIndex + ((s.input.read s.dec.inputIndex).toNat + 1) ≤ s.nOut)
      (hi : s.nIn < s.dec.inputIndex + 1 + ((s.input.read s.dec.inputIndex).toNat + 1))
      (hs : step s = .next (errorEntry .dataCorruption (litBegun (s.input.read s.dec.inputIndex)
        ((s.input.read s.dec.inputIndex).toNat + 1) s)))
  /-- A LIT. -/
  | lit (m : Memory) (hc : (s.input.read s.dec.inputIndex).toNat < 32)
      (ho : s.dec.outputIndex + ((s.input.read s.dec.inputIndex).toNat + 1) ≤ s.nOut)
      (hi : s.dec.inputIndex + 1 + ((s.input.read s.dec.inputIndex).toNat + 1) ≤ s.nIn)
      (hbytes : ∀ k, k < (s.input.read s.dec.inputIndex).toNat + 1 →
        m.read (s.dec.outputIndex + k) = s.input.read (s.dec.inputIndex + 1 + k))
      (hothers : ∀ b, b < s.dec.outputIndex
        ∨ s.dec.outputIndex + ((s.input.read s.dec.inputIndex).toNat + 1) ≤ b →
        m.read b = s.output.read b)
      (hwf : s.output.wf → m.wf) (hb : m.base = s.output.base) (hk : m.marks = s.output.marks)
      (hs : step s = .next (afterLit (s.input.read s.dec.inputIndex)
        ((s.input.read s.dec.inputIndex).toNat + 1) s m))
  /-- A back-reference whose control byte is the last byte. -/
  | refTruncated (hc : 32 ≤ (s.input.read s.dec.inputIndex).toNat) (hi : s.nIn = s.dec.inputIndex + 1)
      (hs : step s = .next (errorEntry .dataCorruption (refBegun (s.input.read s.dec.inputIndex) s)))
  /-- A long back-reference whose extension byte is the last byte. -/
  | extTruncated (hc : 224 ≤ (s.input.read s.dec.inputIndex).toNat) (hi : s.nIn = s.dec.inputIndex + 2)
      (hs : step s = .next (errorEntry .dataCorruption (extTaken (s.input.read (s.dec.inputIndex + 1))
        (refBegun (s.input.read s.dec.inputIndex) s))))
  /-- A short back-reference that fails its room or its source test. -/
  | shortFails (hc : 32 ≤ (s.input.read s.dec.inputIndex).toNat)
      (hc' : (s.input.read s.dec.inputIndex).toNat < 224) (hi : s.dec.inputIndex + 2 ≤ s.nIn) (e : Status)
      (he : (e = .insufficientBuffer
          ∧ s.nOut < s.dec.outputIndex + ((s.input.read s.dec.inputIndex).toNat / 32 + 2))
        ∨ (e = .dataCorruption ∧ s.dec.outputIndex < distanceOf (s.input.read s.dec.inputIndex)
            (s.input.read (s.dec.inputIndex + 1))
          ∧ s.dec.outputIndex + ((s.input.read s.dec.inputIndex).toNat / 32 + 2) ≤ s.nOut))
      (hs : step s = .next (errorEntry e (shortTaken (s.input.read s.dec.inputIndex)
        (s.input.read (s.dec.inputIndex + 1)) s)))
  /-- A short back-reference. -/
  | short (m : Memory) (hc : 32 ≤ (s.input.read s.dec.inputIndex).toNat)
      (hc' : (s.input.read s.dec.inputIndex).toNat < 224) (hi : s.dec.inputIndex + 2 ≤ s.nIn)
      (ho : s.dec.outputIndex + ((s.input.read s.dec.inputIndex).toNat / 32 + 2) ≤ s.nOut)
      (hd : distanceOf (s.input.read s.dec.inputIndex) (s.input.read (s.dec.inputIndex + 1))
        ≤ s.dec.outputIndex)
      (hm : Copied s (distanceOf (s.input.read s.dec.inputIndex) (s.input.read (s.dec.inputIndex + 1)))
        ((s.input.read s.dec.inputIndex).toNat / 32 + 2) m)
      (hs : step s = .next (afterRef (shortTaken (s.input.read s.dec.inputIndex)
        (s.input.read (s.dec.inputIndex + 1)) s) m))
  /-- A long back-reference that fails its room or its source test. -/
  | longFails (hc : 224 ≤ (s.input.read s.dec.inputIndex).toNat) (hi : s.dec.inputIndex + 3 ≤ s.nIn)
      (e : Status)
      (he : (e = .insufficientBuffer
          ∧ s.nOut < s.dec.outputIndex + ((s.input.read (s.dec.inputIndex + 1)).toNat + 9))
        ∨ (e = .dataCorruption ∧ s.dec.outputIndex < distanceOf (s.input.read s.dec.inputIndex)
            (s.input.read (s.dec.inputIndex + 2))
          ∧ s.dec.outputIndex + ((s.input.read (s.dec.inputIndex + 1)).toNat + 9) ≤ s.nOut))
      (hs : step s = .next (errorEntry e (longTaken (s.input.read s.dec.inputIndex)
        (s.input.read (s.dec.inputIndex + 1)) (s.input.read (s.dec.inputIndex + 2)) s)))
  /-- A long back-reference. -/
  | long (m : Memory) (hc : 224 ≤ (s.input.read s.dec.inputIndex).toNat) (hi : s.dec.inputIndex + 3 ≤ s.nIn)
      (ho : s.dec.outputIndex + ((s.input.read (s.dec.inputIndex + 1)).toNat + 9) ≤ s.nOut)
      (hd : distanceOf (s.input.read s.dec.inputIndex) (s.input.read (s.dec.inputIndex + 2))
        ≤ s.dec.outputIndex)
      (hm : Copied s (distanceOf (s.input.read s.dec.inputIndex) (s.input.read (s.dec.inputIndex + 2)))
        ((s.input.read (s.dec.inputIndex + 1)).toNat + 9) m)
      (hs : step s = .next (afterRef (longTaken (s.input.read s.dec.inputIndex)
        (s.input.read (s.dec.inputIndex + 1)) (s.input.read (s.dec.inputIndex + 2)) s) m))
  /-- The end of the frame. -/
  | frameEnd (h : s.nIn ≤ s.dec.inputIndex) (hs : step s = .next (endOfFrame s))

theorem decode_cases {s : State} (hp : s.phase = .decoding) : DecodeCase s := by
  by_cases hlt : s.dec.inputIndex < s.nIn
  · by_cases h32 : (s.input.read s.dec.inputIndex).toNat < 32
    · obtain ⟨a, b, c⟩ := step_lit hp hlt h32
      by_cases ho : s.dec.outputIndex + ((s.input.read s.dec.inputIndex).toNat + 1) ≤ s.nOut
      · by_cases hi : s.dec.inputIndex + 1 + ((s.input.read s.dec.inputIndex).toNat + 1) ≤ s.nIn
        · obtain ⟨m, hm, hbytes, hothers, hwf, hb, hk⟩ := c ho hi
          exact .lit m h32 ho hi hbytes hothers hwf hb hk hm
        · exact .litTruncated hlt h32 ho (Nat.not_le.mp hi) (b ho (Nat.not_le.mp hi))
      · exact .litNoRoom hlt h32 (Nat.not_le.mp ho) (a (Nat.not_le.mp ho))
    · by_cases h224 : (s.input.read s.dec.inputIndex).toNat < 224
      · obtain ⟨a, b⟩ := step_short hp hlt (Nat.not_lt.mp h32) h224
        by_cases h2 : s.dec.inputIndex + 2 ≤ s.nIn
        · obtain ⟨-, c2, c3, c4⟩ := runShortRef_spec (s.input.read s.dec.inputIndex)
            (s.input.read (s.dec.inputIndex + 1)) s
          by_cases ho : s.dec.outputIndex + ((s.input.read s.dec.inputIndex).toNat / 32 + 2) ≤ s.nOut
          · by_cases hd : distanceOf (s.input.read s.dec.inputIndex) (s.input.read (s.dec.inputIndex + 1))
              ≤ s.dec.outputIndex
            · obtain ⟨m, hm, he⟩ := c4 h2 ho hd
              exact .short m (Nat.not_lt.mp h32) h224 h2 ho hd hm ((b h2).trans (by rw [he]; rfl))
            · exact .shortFails (Nat.not_lt.mp h32) h224 h2 _ (.inr ⟨rfl, Nat.not_le.mp hd, ho⟩)
                ((b h2).trans (by rw [c3 h2 ho (Nat.not_le.mp hd)]; rfl))
          · exact .shortFails (Nat.not_lt.mp h32) h224 h2 _ (.inl ⟨rfl, Nat.not_le.mp ho⟩)
              ((b h2).trans (by rw [c2 h2 (Nat.not_le.mp ho)]; rfl))
        · exact .refTruncated (Nat.not_lt.mp h32) (by omega) (a (Nat.not_le.mp h2))
      · obtain ⟨a, b, c⟩ := step_long hp hlt (Nat.not_lt.mp h224)
        by_cases h2 : s.dec.inputIndex + 2 ≤ s.nIn
        · by_cases h3 : s.dec.inputIndex + 3 ≤ s.nIn
          · obtain ⟨c2, c3, c4⟩ := copyMatch_long (s.input.read s.dec.inputIndex)
              (s.input.read (s.dec.inputIndex + 1)) (s.input.read (s.dec.inputIndex + 2)) s
            have h7 : (s.input.read s.dec.inputIndex).toNat / 32 = 7 := by
              have := (s.input.read s.dec.inputIndex).isLt
              omega
            rw [h7, show 7 + (s.input.read (s.dec.inputIndex + 1)).toNat + 2
              = (s.input.read (s.dec.inputIndex + 1)).toNat + 9 by omega] at c2 c3 c4
            by_cases ho : s.dec.outputIndex + ((s.input.read (s.dec.inputIndex + 1)).toNat + 9) ≤ s.nOut
            · by_cases hd : distanceOf (s.input.read s.dec.inputIndex)
                (s.input.read (s.dec.inputIndex + 2)) ≤ s.dec.outputIndex
              · obtain ⟨m, hm, he⟩ := c4 ho hd
                exact .long m (Nat.not_lt.mp h224) h3 ho hd hm ((c h3).trans (by rw [he]; rfl))
              · exact .longFails (Nat.not_lt.mp h224) h3 _ (.inr ⟨rfl, Nat.not_le.mp hd, ho⟩)
                  ((c h3).trans (by rw [c3 ho (Nat.not_le.mp hd)]; rfl))
            · exact .longFails (Nat.not_lt.mp h224) h3 _ (.inl ⟨rfl, Nat.not_le.mp ho⟩)
                ((c h3).trans (by rw [c2 (Nat.not_le.mp ho)]; rfl))
          · exact .extTruncated (Nat.not_lt.mp h224) (by omega) (b (by omega))
        · exact .refTruncated (Nat.not_lt.mp h32) (by omega) (a (Nat.not_le.mp h2))
  · exact .frameEnd (Nat.not_lt.mp hlt) (step_frameEnd hp (Nat.not_lt.mp hlt))

/-! ### A command presented to the IDLE block -/

/-- Everything a presented command can meet in phase IDLE. -/
inductive CommandCase (r : CommandRecord) (s : State) : Prop where
  /-- The command is not legal. -/
  | refused (f : Refusal) (hs : exec (decodeCommand r) s = .refused f)
  /-- ENCODE of an empty input. -/
  | encodeEmpty (hop : r.op = 0#1) (hl : lengthsTrue s r.nIn.toNat r.nOut.toNat = true)
      (ho : overlap s r.nIn.toNat r.nOut.toNat = false) (h0 : r.nIn.toNat = 0)
      (hs : exec (decodeCommand r) s = .next (returnOk 0 (encodeAccepted r s)))
  /-- ENCODE into an empty output. -/
  | encodeNoOut (hop : r.op = 0#1) (hl : lengthsTrue s r.nIn.toNat r.nOut.toNat = true)
      (ho : overlap s r.nIn.toNat r.nOut.toNat = false) (h0 : r.nIn.toNat ≠ 0) (h1 : r.nOut.toNat = 0)
      (hs : exec (decodeCommand r) s = .next (errorEntry .insufficientBuffer (encodeAccepted r s)))
  /-- ENCODE starts. -/
  | encodeStarts (hop : r.op = 0#1) (hl : lengthsTrue s r.nIn.toNat r.nOut.toNat = true)
      (ho : overlap s r.nIn.toNat r.nOut.toNat = false) (h0 : r.nIn.toNat ≠ 0) (h1 : r.nOut.toNat ≠ 0)
      (hs : exec (decodeCommand r) s = .next (encodeBegun r s))
  /-- DECODE of an empty frame. -/
  | decodeEmpty (hop : r.op = 1#1) (hl : lengthsTrue s r.nIn.toNat r.nOut.toNat = true)
      (ho : overlap s r.nIn.toNat r.nOut.toNat = false) (h0 : r.nIn.toNat = 0)
      (hs : exec (decodeCommand r) s = .next (returnOk 0 (decodeAccepted r s)))
  /-- DECODE starts. -/
  | decodeStarts (hop : r.op = 1#1) (hl : lengthsTrue s r.nIn.toNat r.nOut.toNat = true)
      (ho : overlap s r.nIn.toNat r.nOut.toNat = false) (h0 : r.nIn.toNat ≠ 0)
      (hs : exec (decodeCommand r) s = .next (decodeAccepted r s))

theorem op_cases (op : BitVec 1) : op = 0#1 ∨ op = 1#1 := by
  have hlt := op.isLt
  have h : op.toNat = 0 ∨ op.toNat = 1 := by omega
  exact h.imp (fun h => BitVec.eq_of_toNat_eq h) fun h => BitVec.eq_of_toNat_eq h

theorem command_cases {s : State} (r : CommandRecord) (hp : s.phase = .idle) : CommandCase r s := by
  rcases op_cases r.op with hop | hop
  · have hr : (⟨0#1, r.nIn, r.nOut, r.clearHtab⟩ : CommandRecord) = r := by rw [← hop]
    have hx : exec (decodeCommand r) s = acceptCommand r .encoding startEncode s := by
      unfold decodeCommand
      rw [if_pos hop]
      show acceptCommand _ _ _ _ = _
      rw [hr]
    rcases acceptCommand_cases r .encoding startEncode s with h | h | h | ⟨-, hl, ho, h⟩
    · exact absurd hp h.1
    · exact .refused _ (hx.trans h.2.2)
    · exact .refused _ (hx.trans h.2.2.2)
    · rw [startEncode_eq] at h
      by_cases h0 : r.nIn.toNat = 0
      · rw [if_pos h0] at h
        exact .encodeEmpty hop hl ho h0 (hx.trans h)
      · by_cases h1 : r.nOut.toNat = 0
        · rw [if_neg h0, if_pos h1] at h
          exact .encodeNoOut hop hl ho h0 h1 (hx.trans h)
        · rw [if_neg h0, if_neg h1] at h
          exact .encodeStarts hop hl ho h0 h1 (hx.trans h)
  · have hr : (⟨1#1, r.nIn, r.nOut, r.clearHtab⟩ : CommandRecord) = r := by rw [← hop]
    have hx : exec (decodeCommand r) s = acceptCommand r .decoding startDecode s := by
      unfold decodeCommand
      rw [if_neg (by rw [hop]; decide)]
      show acceptCommand _ _ _ _ = _
      rw [hr]
    rcases acceptCommand_cases r .decoding startDecode s with h | h | h | ⟨-, hl, ho, h⟩
    · exact absurd hp h.1
    · exact .refused _ (hx.trans h.2.2)
    · exact .refused _ (hx.trans h.2.2.2)
    · rw [startDecode_eq] at h
      by_cases h0 : r.nIn.toNat = 0
      · rw [if_pos h0] at h
        exact .decodeEmpty hop hl ho h0 (hx.trans h)
      · rw [if_neg h0] at h
        exact .decodeStarts hop hl ho h0 (hx.trans h)

end Sys2Proof.Machine
end

