-- ==== Sys2Proof/Laws/Frame.lean ====
section
/-! SUPPORT. What no sub-step can touch, whatever the state it starts in: a relation that each operation
keeps, and the rule that a run of operations keeps it. -/

namespace Sys2Proof.Machine

/-- `t` differs from `s` only in what ENCODE may touch; the response changes only if the command ends. -/
structure EncodeKeeps (s t : State) : Prop where
  input : t.input = s.input
  dec : t.dec = s.dec
  command : t.command = s.command
  presented : t.presented = s.presented
  inRegion : t.inRegion = s.inRegion
  outRegion : t.outRegion = s.outRegion
  phase : t.phase = .idle ∨ (t.phase = s.phase ∧ t.response = s.response)

/-- `t` differs from `s` only in what DECODE may touch; the response changes only if the command ends. -/
structure DecodeKeeps (s t : State) : Prop where
  input : t.input = s.input
  htab : t.htab = s.htab
  enc : t.enc = s.enc
  command : t.command = s.command
  presented : t.presented = s.presented
  inRegion : t.inRegion = s.inRegion
  outRegion : t.outRegion = s.outRegion
  phase : t.phase = .idle ∨ (t.phase = s.phase ∧ t.response = s.response)

theorem EncodeKeeps.refl (s : State) : EncodeKeeps s s := ⟨rfl, rfl, rfl, rfl, rfl, rfl, .inr ⟨rfl, rfl⟩⟩

theorem DecodeKeeps.refl (s : State) : DecodeKeeps s s :=
  ⟨rfl, rfl, rfl, rfl, rfl, rfl, rfl, .inr ⟨rfl, rfl⟩⟩

theorem EncodeKeeps.trans {s t u : State} (h : EncodeKeeps s t) (h' : EncodeKeeps t u) : EncodeKeeps s u where
  input := h'.input.trans h.input
  dec := h'.dec.trans h.dec
  command := h'.command.trans h.command
  presented := h'.presented.trans h.presented
  inRegion := h'.inRegion.trans h.inRegion
  outRegion := h'.outRegion.trans h.outRegion
  phase := by
    rcases h'.phase with hp | ⟨hp, hr⟩
    · exact .inl hp
    · rcases h.phase with hp' | ⟨hp', hr'⟩
      · exact .inl (hp.trans hp')
      · exact .inr ⟨hp.trans hp', hr.trans hr'⟩

theorem DecodeKeeps.trans {s t u : State} (h : DecodeKeeps s t) (h' : DecodeKeeps t u) : DecodeKeeps s u where
  input := h'.input.trans h.input
  htab := h'.htab.trans h.htab
  enc := h'.enc.trans h.enc
  command := h'.command.trans h.command
  presented := h'.presented.trans h.presented
  inRegion := h'.inRegion.trans h.inRegion
  outRegion := h'.outRegion.trans h.outRegion
  phase := by
    rcases h'.phase with hp | ⟨hp, hr⟩
    · exact .inl hp
    · rcases h.phase with hp' | ⟨hp', hr'⟩
      · exact .inl (hp.trans hp')
      · exact .inr ⟨hp.trans hp', hr.trans hr'⟩

/-- Whatever state the run leaves, it is in `R`; so is the state of a command it ends. -/
def Run.Leaves (R : State → Prop) : Run State → Prop
  | .ok t => R t
  | .error (.ended t) => R t
  | .error (.fault _) => True

/-- A value is read without leaving a state: only a command's end could. -/
def Run.Reads {α : Type} (R : State → Prop) : Run α → Prop
  | .ok _ => True
  | .error (.ended t) => R t
  | .error (.fault _) => True

theorem Run.leaves_bind {R R' : State → Prop} {r : Run State} {f : State → Run State}
    (h : r.Leaves R) (hf : ∀ t, R t → (f t).Leaves R') (hR : ∀ t, R t → R' t) : (r >>= f).Leaves R' := by
  match r, h with
  | .ok t, h => exact hf t h
  | .error (.ended t), h => exact hR t h
  | .error (.fault _), _ => trivial

theorem Run.reads_bind {α : Type} {R : State → Prop} {r : Run α} {f : α → Run State}
    (h : r.Reads R) (hf : ∀ a, (f a).Leaves R) : (r >>= f).Leaves R := by
  match r, h with
  | .ok a, _ => exact hf a
  | .error (.ended _), h => exact h
  | .error (.fault _), _ => trivial

theorem Run.reads_bind_reads {α β : Type} {R : State → Prop} {r : Run α} {f : α → Run β}
    (h : r.Reads R) (hf : ∀ a, (f a).Reads R) : (r >>= f).Reads R := by
  match r, h with
  | .ok a, _ => exact hf a
  | .error (.ended _), h => exact h
  | .error (.fault _), _ => trivial

theorem Run.leaves_outcome {R : State → Prop} {r : Run State} {t : State} (h : r.Leaves R)
    (ht : r.outcome = .next t) : R t := by
  match r, h, ht with
  | .ok _, h, ht => cases ht; exact h
  | .error (.ended _), h, ht => cases ht; exact h

theorem inAt_reads (R : State → Prop) (s : State) (a : Nat) : (inAt s a).Reads R := by
  unfold inAt
  split <;> trivial

theorem outAt_reads (R : State → Prop) (s : State) (a : Int) : (outAt s a).Reads R := by
  unfold outAt
  split <;> trivial

/-! ### ENCODE -/

theorem encodeKeeps_end (st : Status) (w : Word32) (kept : Nat) (s : State) :
    EncodeKeeps s (endCommand st w kept s) := ⟨rfl, rfl, rfl, rfl, rfl, rfl, .inl rfl⟩

/-- A run of ENCODE keeps what it must. -/
abbrev Run.Enc (s : State) (r : Run State) : Prop := r.Leaves (EncodeKeeps s)

theorem Run.enc_ok {s t : State} (h : EncodeKeeps s t) : Run.Enc s (.ok t) := h

theorem Run.enc_raise (e : Status) (s : State) : Run.Enc s (raise e s) := encodeKeeps_end e _ _ s

theorem Run.enc_after {s t : State} (hk : EncodeKeeps s t) {r : Run State} (h : Run.Enc t r) :
    Run.Enc s r := by
  match r, h with
  | .ok u, hu => exact hk.trans hu
  | .error (.ended u), hu => exact hk.trans hu
  | .error (.fault _), _ => trivial

theorem Run.enc_bind {s : State} {r : Run State} {f : State → Run State} (h : Run.Enc s r)
    (hf : ∀ t, Run.Enc t (f t)) : Run.Enc s (r >>= f) :=
  Run.leaves_bind h (fun t ht => Run.enc_after ht (hf t)) fun _ ht => ht

theorem fingerprintAt_reads (R : State → Prop) (s : State) (a : Nat) : (fingerprintAt s a).Reads R :=
  Run.reads_bind_reads (inAt_reads R s _) fun _ => Run.reads_bind_reads (inAt_reads R s _) fun _ =>
    Run.reads_bind_reads (inAt_reads R s _) fun _ => trivial

theorem agreeAt_reads (R : State → Prop) (s : State) (a b : Nat) : (agreeAt s a b).Reads R :=
  Run.reads_bind_reads (inAt_reads R s _) fun _ => Run.reads_bind_reads (inAt_reads R s _) fun _ => trivial

theorem threeAgree_reads (R : State → Prop) (s : State) (a b : Nat) : (threeAgree s a b).Reads R :=
  Run.reads_bind_reads (agreeAt_reads R s a b) fun e0 => by
    cases e0
    · trivial
    · refine Run.reads_bind_reads (agreeAt_reads R s (a + 1) (b + 1)) fun e1 => ?_
      cases e1
      · trivial
      · exact agreeAt_reads R s (a + 2) (b + 2)

theorem scanMatch_reads (R : State → Prop) (s : State) (fuel length : Nat) :
    (scanMatch s fuel length).Reads R := by
  induction fuel generalizing length with
  | zero => trivial
  | succ n ih =>
    refine Run.reads_bind_reads (agreeAt_reads R s _ _) fun e => ?_
    cases e
    · trivial
    · exact ih (length + 1)

theorem putOut_enc (s : State) (a : Int) (v : Byte) : Run.Enc s (putOut s a v) := by
  unfold putOut
  split
  · exact ⟨rfl, rfl, rfl, rfl, rfl, rfl, .inr ⟨rfl, rfl⟩⟩
  · trivial

theorem encodeKeeps_regs (s : State) (e : EncoderRegs) : EncodeKeeps s (s.withEnc e) :=
  ⟨rfl, rfl, rfl, rfl, rfl, rfl, .inr ⟨rfl, rfl⟩⟩

theorem hashHere_enc (s : State) : Run.Enc s (hashHere s) :=
  Run.reads_bind (fingerprintAt_reads _ s _) fun _ => encodeKeeps_regs s _

theorem judge_enc (s : State) : Run.Enc s (judge s) := by
  unfold judge
  split
  · exact Run.reads_bind (threeAgree_reads _ s _ _) fun _ => encodeKeeps_regs s _
  · exact encodeKeeps_regs s _

theorem appendLiteral_enc (s : State) : Run.Enc s (appendLiteral s) := by
  refine Run.reads_bind (inAt_reads _ s _) fun v => Run.enc_bind (putOut_enc s _ v) fun t => ?_
  have hp : EncodeKeeps t (pastLiteral t) := encodeKeeps_regs t _
  unfold rollIfFull
  split
  · refine Run.leaves_bind (putOut_enc _ _ _) (fun u hu => ?_) fun u hu => hp.trans hu
    exact hp.trans (hu.trans (encodeKeeps_regs u _))
  · exact hp

theorem closeRun_enc (s : State) : Run.Enc s (closeRun s) := by
  unfold closeRun
  split
  · exact putOut_enc s _ _
  · split
    · trivial
    · exact encodeKeeps_regs s _

theorem emitByte_enc (v : Byte) (s : State) : Run.Enc s (emitByte v s) :=
  Run.enc_bind (putOut_enc s _ v) fun t => encodeKeeps_regs t _

theorem emitReference_enc (s : State) : Run.Enc s (emitReference s) := by
  have hk : EncodeKeeps s (setLenField s) := encodeKeeps_regs s _
  unfold emitReference
  split
  · exact Run.enc_after hk (Run.enc_bind (emitByte_enc _ _) fun t => emitByte_enc _ t)
  · exact Run.enc_after hk (Run.enc_bind (emitByte_enc _ _) fun t => Run.enc_bind (emitByte_enc _ t) fun u =>
      emitByte_enc _ u)

theorem seedAt_enc (q : Nat) (s : State) : Run.Enc s (seedAt q s) :=
  Run.reads_bind (fingerprintAt_reads _ s q) fun _ =>
    ⟨rfl, rfl, rfl, rfl, rfl, rfl, .inr ⟨rfl, rfl⟩⟩

theorem reseed_enc (s : State) : Run.Enc s (reseed s) := by
  unfold reseed
  split
  · exact EncodeKeeps.refl s
  · exact Run.enc_bind (seedAt_enc _ s) fun t => seedAt_enc _ t

theorem matchStep_enc (s : State) : Run.Enc s (matchStep s) := by
  have hlen : Run.Enc s (matchLength s) :=
    Run.reads_bind (scanMatch_reads _ _ _ _) fun _ => encodeKeeps_regs s _
  refine Run.enc_bind hlen fun t => Run.enc_bind ?_ fun u => Run.enc_bind (closeRun_enc u) fun v =>
    Run.enc_bind (emitReference_enc v) fun w => ?_
  · unfold matchRoom
    split <;> split
    · exact Run.enc_raise _ t
    · exact EncodeKeeps.refl t
    · exact Run.enc_raise _ t
    · exact EncodeKeeps.refl t
  · exact Run.enc_after (encodeKeeps_regs w _) (reseed_enc (advanceMatch w))

theorem settleHval_enc (s : State) : Run.Enc s (settleHval s) := by
  unfold settleHval
  split
  · exact Run.reads_bind (fingerprintAt_reads _ s _) fun _ => encodeKeeps_regs s _
  · exact ⟨rfl, rfl, rfl, rfl, rfl, rfl, .inr ⟨rfl, rfl⟩⟩

theorem iteration_enc (s : State) : Run.Enc s (iteration s) := by
  refine Run.enc_bind (hashHere_enc s) fun t => ?_
  have hk : EncodeKeeps t (lookupSlot t) := ⟨rfl, rfl, rfl, rfl, rfl, rfl, .inr ⟨rfl, rfl⟩⟩
  refine Run.enc_bind (Run.enc_after hk (judge_enc _)) fun u => Run.enc_bind ?_ settleHval_enc
  unfold matchOrLiteral
  split
  · exact matchStep_enc u
  · unfold literalStep
    split
    · exact Run.enc_raise _ u
    · exact appendLiteral_enc u

theorem tail_enc (s : State) : Run.Enc s (tail s) := by
  have hlits : ∀ n s, Run.Enc s (tailLiterals n s) := by
    intro n
    induction n with
    | zero => exact EncodeKeeps.refl
    | succ n ih => exact fun s => Run.enc_bind (appendLiteral_enc s) ih
  unfold tail
  split
  · exact Run.enc_raise _ s
  · exact Run.enc_bind (hlits _ s) fun t => Run.enc_bind (closeRun_enc t) fun u => encodeKeeps_end _ _ _ u

/-- A step of ENCODE from any state at all. -/
theorem encodeStep_keeps {s t : State} (h : encodeStep s = .next t) : EncodeKeeps s t := by
  unfold encodeStep at h
  split at h
  · exact Run.leaves_outcome (iteration_enc s) h
  · exact Run.leaves_outcome (tail_enc s) h

/-! ### DECODE -/

theorem decodeKeeps_end (st : Status) (w : Word32) (kept : Nat) (s : State) :
    DecodeKeeps s (endCommand st w kept s) := ⟨rfl, rfl, rfl, rfl, rfl, rfl, rfl, .inl rfl⟩

/-- A run of DECODE keeps what it must. -/
abbrev Run.Dec (s : State) (r : Run State) : Prop := r.Leaves (DecodeKeeps s)

theorem Run.dec_raise (e : Status) (s : State) : Run.Dec s (raise e s) := decodeKeeps_end e _ _ s

theorem Run.dec_after {s t : State} (hk : DecodeKeeps s t) {r : Run State} (h : Run.Dec t r) :
    Run.Dec s r := by
  match r, h with
  | .ok u, hu => exact hk.trans hu
  | .error (.ended u), hu => exact hk.trans hu
  | .error (.fault _), _ => trivial

theorem Run.dec_bind {s : State} {r : Run State} {f : State → Run State} (h : Run.Dec s r)
    (hf : ∀ t, Run.Dec t (f t)) : Run.Dec s (r >>= f) :=
  Run.leaves_bind h (fun t ht => Run.dec_after ht (hf t)) fun _ ht => ht

theorem decodeKeeps_regs (s : State) (d : DecoderRegs) : DecodeKeeps s (s.withDec d) :=
  ⟨rfl, rfl, rfl, rfl, rfl, rfl, rfl, .inr ⟨rfl, rfl⟩⟩

theorem putOut_dec (s : State) (a : Int) (v : Byte) : Run.Dec s (putOut s a v) := by
  unfold putOut
  split
  · exact ⟨rfl, rfl, rfl, rfl, rfl, rfl, rfl, .inr ⟨rfl, rfl⟩⟩
  · trivial

theorem needRoom_dec (n : Nat) (s : State) : Run.Dec s (needRoom n s) := by
  unfold needRoom
  split
  · exact Run.dec_raise _ s
  · exact DecodeKeeps.refl s

theorem needInput_dec (n : Nat) (s : State) : Run.Dec s (needInput n s) := by
  unfold needInput
  split
  · exact Run.dec_raise _ s
  · exact DecodeKeeps.refl s

theorem needSource_dec (s : State) : Run.Dec s (needSource s) := by
  unfold needSource
  split
  · exact Run.dec_raise _ s
  · exact DecodeKeeps.refl s

theorem putBytes_dec (vs : List Byte) (s : State) (a : Int) : Run.Dec s (putBytes s a vs) := by
  induction vs generalizing s a with
  | nil => exact DecodeKeeps.refl s
  | cons v t ih => exact Run.dec_bind (putOut_dec s a v) fun u => ih u (a + 1)

theorem copyForward_dec (total : Nat) (s : State) (src dst : Int) : Run.Dec s (copyForward s src dst total) := by
  induction total generalizing s src dst with
  | zero => exact DecodeKeeps.refl s
  | succ n ih =>
    exact Run.reads_bind (outAt_reads _ s src) fun v => Run.dec_bind (putOut_dec s dst v) fun t =>
      ih t (src + 1) (dst + 1)

theorem litTests_dec (c : Byte) (n : Nat) (s : State) : Run.Dec s (litTests c n s) :=
  Run.dec_after (decodeKeeps_regs s _) (Run.dec_bind (needRoom_dec _ _) fun t => needInput_dec _ t)

theorem refTests_dec (c : Byte) (s : State) : Run.Dec s (refTests c s) :=
  Run.dec_after (decodeKeeps_regs s _) (needInput_dec _ _)

theorem takeExt_dec (c : Byte) (s : State) : Run.Dec s (takeExt c s) :=
  Run.dec_after (decodeKeeps_regs s _) (needInput_dec _ _)

theorem copyMatch_dec (s : State) : Run.Dec s (copyMatch s) :=
  Run.dec_bind (needRoom_dec _ s) fun t => Run.dec_bind (needSource_dec t) fun u =>
    Run.dec_bind (copyForward_dec _ u _ _) fun v => decodeKeeps_regs v _

theorem runShortRef_dec (c lo : Byte) (s : State) : Run.Dec s (runShortRef c lo s) :=
  Run.dec_bind (refTests_dec c s) fun t => Run.dec_after (decodeKeeps_regs t _) (copyMatch_dec _)

theorem runTruncated_dec (r : Reject) (s : State) : Run.Dec s (runTruncated r s) := by
  cases r with
  | noControlByte => trivial
  | literalsMissing c => exact Run.dec_bind (litTests_dec c _ s) fun _ => trivial
  | offsetMissing c => exact Run.dec_bind (refTests_dec c s) fun _ => trivial
  | extensionMissing c => exact Run.dec_bind (refTests_dec c s) fun _ => trivial
  | longOffsetMissing c ext =>
    exact Run.dec_bind (refTests_dec c s) fun t => Run.dec_bind (takeExt_dec ext t) fun _ => trivial

/-- A record from any state at all. -/
theorem execRecord_keeps {i : Instr} (hi : i.isRecord = true) {s t : State} (h : exec i s = .next t) :
    DecodeKeeps s t := by
  cases i with
  | lit ls =>
    refine Run.leaves_outcome (R := DecodeKeeps s) ?_ h
    exact Run.dec_bind (litTests_dec _ _ s) fun u =>
      Run.dec_bind (putBytes_dec _ u _) fun v => decodeKeeps_regs v _
  | ref3 off => exact Run.leaves_outcome (runShortRef_dec _ _ s) h
  | ref4 off => exact Run.leaves_outcome (runShortRef_dec _ _ s) h
  | ref5 off => exact Run.leaves_outcome (runShortRef_dec _ _ s) h
  | ref6 off => exact Run.leaves_outcome (runShortRef_dec _ _ s) h
  | ref7 off => exact Run.leaves_outcome (runShortRef_dec _ _ s) h
  | ref8 off => exact Run.leaves_outcome (runShortRef_dec _ _ s) h
  | refx off ext =>
    refine Run.leaves_outcome (R := DecodeKeeps s) ?_ h
    exact Run.dec_bind (refTests_dec _ s) fun u => Run.dec_bind (takeExt_dec _ u)
      fun v => Run.dec_after (decodeKeeps_regs v _) (copyMatch_dec _)
  | encode nIn nOut c => cases hi
  | decode nIn nOut c => cases hi

end Sys2Proof.Machine
end

