-- ==== Sys2Proof/Laws/Frames.lean ====
section
/-! SUPPORT. The laws of what a frame stands for: records one after the other, and the bytes a record
adds. -/

namespace Sys2Proof.Safety

open Sys2Proof.Machine

/-! ### Sequences of records -/

theorem frameBytes_append (is js : List Instr) : frameBytes (is ++ js) = frameBytes is ++ frameBytes js := by
  simp [frameBytes]

theorem frameBytes_single (i : Instr) : frameBytes [i] = encodeRecord i := by simp [frameBytes]

theorem expandFrame_append (is js : List Instr) (out : List Byte) :
    expandFrame (is ++ js) out = (expandFrame is out).bind (expandFrame js) := by
  induction is generalizing out with
  | nil => rfl
  | cons i t ih =>
    simp only [List.cons_append, expandFrame]
    cases expandRecord out i with
    | none => rfl
    | some out' => exact ih out'

theorem expandFrame_single (i : Instr) (out : List Byte) : expandFrame [i] out = expandRecord out i := by
  show (match expandRecord out i with | some out' => expandFrame [] out' | none => none) = _
  cases expandRecord out i <;> rfl

/-- The empty frame stands for nothing. -/
theorem standsFor_nil : StandsFor [] [] := ⟨[], fun _ h => absurd h (List.not_mem_nil), rfl, rfl⟩

/-- One more record. -/
theorem StandsFor.snoc {frame bytes bytes' : List Byte} {i : Instr} (h : StandsFor frame bytes)
    (hi : i.isRecord = true) (hw : i.wellFormed = true) (hx : expandRecord bytes i = some bytes') :
    StandsFor (frame ++ encodeRecord i) bytes' := by
  obtain ⟨is, hr, hf, hb⟩ := h
  refine ⟨is ++ [i], ?_, ?_, ?_⟩
  · intro j hj
    rcases List.mem_append.mp hj with hj | hj
    · exact hr j hj
    · obtain rfl := List.mem_singleton.mp hj
      exact ⟨hi, hw⟩
  · rw [frameBytes_append, frameBytes_single, hf]
  · rw [expandFrame_append, hb]
    exact (expandFrame_single i bytes).trans hx

/-- Every record produces at least one byte, and its words are at least two bytes. -/
theorem encodeRecord_length {i : Instr} (hi : i.isRecord = true) (hw : i.wellFormed = true) :
    2 ≤ (encodeRecord i).length := by
  cases i with
  | lit ls =>
    have := (wellFormed_lit ls).mp hw
    simp only [encodeRecord, List.length_cons]
    omega
  | encode nIn nOut c => cases hi
  | decode nIn nOut c => cases hi
  | _ => simp [encodeRecord]

/-! ### One record -/

theorem expandRecord_shortRef (out : List Byte) (l : BitVec 3) (off : Off) (h1 : 1 ≤ l.toNat)
    (h6 : l.toNat ≤ 6) : expandRecord out (shortRef l off) = expandMatch out off (l.toNat + 2) := by
  obtain ⟨k, hk, rfl⟩ : ∃ k, k < 8 ∧ l = BitVec.ofNat 3 k :=
    ⟨l.toNat, l.isLt, BitVec.eq_of_toNat_eq (by rw [BitVec.toNat_ofNat]; omega)⟩
  rw [BitVec.toNat_ofNat] at h1 h6
  have hl : k = 1 ∨ k = 2 ∨ k = 3 ∨ k = 4 ∨ k = 5 ∨ k = 6 := by omega
  rcases hl with rfl | rfl | rfl | rfl | rfl | rfl <;> rfl

theorem shortRef_isRecord (l : BitVec 3) (off : Off) :
    (shortRef l off).isRecord = true ∧ (shortRef l off).wellFormed = true := by
  unfold shortRef
  split_ifs <;> exact ⟨rfl, rfl⟩

theorem backReference_isRecord (off : Off) (n : Nat) :
    (backReference off n).isRecord = true ∧ (backReference off n).wellFormed = true := by
  unfold backReference
  split
  · exact shortRef_isRecord _ off
  · exact ⟨rfl, rfl⟩

theorem expandRecord_backReference (out : List Byte) (off : Off) (n : Nat) (h3 : 3 ≤ n) (h264 : n ≤ 264) :
    expandRecord out (backReference off n) = expandMatch out off n := by
  unfold backReference
  split
  · have hl : (BitVec.ofNat 3 (n - 2)).toNat = n - 2 := by
      rw [BitVec.toNat_ofNat]
      omega
    rw [expandRecord_shortRef out _ off (by omega) (by omega), hl, show n - 2 + 2 = n by omega]
  · show expandMatch out off ((BitVec.ofNat 8 (n - 9)).toNat + 9) = _
    rw [BitVec.toNat_ofNat, show (n - 9) % 2 ^ 8 + 9 = n by omega]

/-- The words of a short back-reference with the fields of these two bytes are these two bytes. -/
theorem encodeRecord_shortRef (c lo : Byte) (h1 : 32 ≤ c.toNat) (h6 : c.toNat < 224) :
    encodeRecord (shortRef (ctrlClass c) (joinOff (ctrlLow c) lo)) = [c, lo] := by
  have key : ∀ k, k < 8 → c.toNat / 32 = k →
      ctrlByte (BitVec.ofNat 3 k) (offHi (joinOff (ctrlLow c) lo)) = c := by
    intro k hk8 hk
    rw [offHi_joinOff, ← (ctrlClass_eq_iff c k hk8).mpr hk, ctrlByte_split]
  have hcs : c.toNat / 32 = 1 ∨ c.toNat / 32 = 2 ∨ c.toNat / 32 = 3 ∨ c.toNat / 32 = 4
    ∨ c.toNat / 32 = 5 ∨ c.toNat / 32 = 6 := by omega
  rcases hcs with h | h | h | h | h | h
  all_goals
    have hk := key _ (by omega) h
    rw [(ctrlClass_eq_iff c _ (by omega)).mpr h]
    show [ctrlByte _ _, offLo (joinOff (ctrlLow c) lo)] = _
    rw [hk, offLo_joinOff]

theorem encodeRecord_refx (c ext lo : Byte) (h7 : 224 ≤ c.toNat) :
    encodeRecord (.refx (joinOff (ctrlLow c) lo) ext) = [c, ext, lo] := by
  have hlt := c.isLt
  have hc : ctrlClass c = 7#3 := (ctrlClass_eq_iff c 7 (by omega)).mpr (by omega)
  show [ctrlByte 7#3 (offHi (joinOff (ctrlLow c) lo)), ext, offLo (joinOff (ctrlLow c) lo)] = _
  rw [offHi_joinOff, offLo_joinOff, ← hc, ctrlByte_split]

theorem control_lit (ls : List Byte) (h1 : 1 ≤ ls.length) (h32 : ls.length ≤ 32) :
    (Instr.lit ls).control = BitVec.ofNat 8 (ls.length - 1) := by
  have h : ∀ n < 32, ctrlByte 0#3 (BitVec.ofNat 5 n) = BitVec.ofNat 8 n := by decide
  exact h (ls.length - 1) (by omega)

theorem distance_joinOff (c lo : Byte) :
    distance (joinOff (ctrlLow c) lo) = c.toNat % 32 * 256 + lo.toNat + 1 := by
  rw [distance, joinOff_toNat, ctrlLow_toNat]

/-- Filling in the control byte of a run of `n` literals that ends at `o` makes the bytes below `o` a
frame for the input below `x`. -/
theorem standsFor_closeRun (m i : Memory) (o x n : Nat) (ho : n + 1 ≤ o) (h1 : 1 ≤ n) (h32 : n ≤ 32)
    (hx : n ≤ x) (hpre : StandsFor (m.slice 0 (o - n - 1)) (i.slice 0 (x - n)))
    (hrun : m.slice (o - n) n = i.slice (x - n) n) (hc : m.read (o - n - 1) = BitVec.ofNat 8 (n - 1)) :
    StandsFor (m.slice 0 o) (i.slice 0 x) := by
  have hlen : (i.slice (x - n) n).length = n := Memory.slice_length _ _ _
  have hctl : (Instr.lit (i.slice (x - n) n)).control = BitVec.ofNat 8 (n - 1) := by
    rw [control_lit _ (by omega) (by omega), hlen]
  have hout : m.slice 0 o = m.slice 0 (o - n - 1) ++ encodeRecord (.lit (i.slice (x - n) n)) := by
    conv_lhs => rw [show o = (o - n - 1) + (n + 1) by omega]
    rw [Memory.slice_add, Nat.zero_add, Memory.slice_cons, hc, show o - n - 1 + 1 = o - n by omega, hrun,
      ← hctl]
    rfl
  have hin : i.slice 0 x = i.slice 0 (x - n) ++ i.slice (x - n) n := by
    conv_lhs => rw [show x = (x - n) + n by omega]
    rw [Memory.slice_add, Nat.zero_add]
  rw [hout, hin]
  exact hpre.snoc rfl ((wellFormed_lit _).mpr (by omega)) rfl

/-- A match in a region: the bytes so far are `0 .. a-1` of `m`, and `n` bytes follow that repeat those
`d` before. -/
theorem expandMatch_slice (m : Memory) (a n : Nat) (off : Off) (hd : distance off ≤ a) :
    expandMatch (m.slice 0 a) off n
      = some (m.slice 0 a ++ (List.range n).map fun k => m.read (a - distance off + k % distance off)) := by
  unfold expandMatch
  rw [Memory.slice_length, if_pos hd]
  congr 2
  apply List.map_congr_left
  intro k _
  have hlt : k % distance off < distance off := Nat.mod_lt _ (Nat.succ_pos _)
  rw [List.getD_eq_getElem _ _ (by rw [Memory.slice_length]; omega), Memory.slice_getElem, Nat.zero_add]

/-- Bytes that agree with those `d` before them repeat with period `d`. -/
theorem periodic (f : Nat → Byte) (a d n : Nat) (hd : 0 < d) (hle : d ≤ a)
    (h : ∀ k, k < n → f (a - d + k) = f (a + k)) (k : Nat) (hk : k < n) :
    f (a - d + k % d) = f (a + k) := by
  induction k using Nat.strongRecOn with
  | _ k ih =>
    by_cases hlt : k < d
    · rw [Nat.mod_eq_of_lt hlt]
      exact h k hk
    · rw [Nat.mod_eq_sub_mod (by omega), ih (k - d) (by omega) (by omega), ← h k hk]
      congr 1
      omega

end Sys2Proof.Safety
end

