-- ==== Sys2Proof/Laws/PerInstr.lean ====
section
/-! SUPPORT. Statements made of every instruction as syntax, one lemma per constructor. -/

namespace Sys2Proof.Laws.RecordSize

open Sys2Proof Sys2Proof.Machine

/-- The sizes of 30_encoding R57: a record has 2 to 33 bytes, the first of them its control byte, and
produces 1 to 264 bytes, at most 88 for each of its own; a command has no frame bytes. -/
def Statement (i : Instr) : Prop :=
  i.wellFormed = true →
    (i.isRecord = true → 2 ≤ (encodeRecord i).length ∧ (encodeRecord i).length ≤ longestRecord
      ∧ (encodeRecord i).head? = some i.control
      ∧ 1 ≤ produced i ∧ produced i ≤ Config.maxRef ∧ produced i ≤ 88 * (encodeRecord i).length)
    ∧ (i.isRecord = false → encodeRecord i = [] ∧ produced i = 0)

theorem lit (literals : List Byte) : Statement (.lit literals) := by
  intro hw
  have := (wellFormed_lit literals).mp hw
  refine ⟨fun _ => ?_, fun h => by cases h⟩
  simp only [encodeRecord, produced, longestRecord, Config.maxRef, List.length_cons, List.head?_cons,
    true_and]
  omega

theorem ref3 (off : Off) : Statement (.ref3 off) := fun _ =>
  ⟨fun _ => by simp [encodeRecord, produced, longestRecord, Config.maxRef], fun h => by cases h⟩

theorem ref4 (off : Off) : Statement (.ref4 off) := fun _ =>
  ⟨fun _ => by simp [encodeRecord, produced, longestRecord, Config.maxRef], fun h => by cases h⟩

theorem ref5 (off : Off) : Statement (.ref5 off) := fun _ =>
  ⟨fun _ => by simp [encodeRecord, produced, longestRecord, Config.maxRef], fun h => by cases h⟩

theorem ref6 (off : Off) : Statement (.ref6 off) := fun _ =>
  ⟨fun _ => by simp [encodeRecord, produced, longestRecord, Config.maxRef], fun h => by cases h⟩

theorem ref7 (off : Off) : Statement (.ref7 off) := fun _ =>
  ⟨fun _ => by simp [encodeRecord, produced, longestRecord, Config.maxRef], fun h => by cases h⟩

theorem ref8 (off : Off) : Statement (.ref8 off) := fun _ =>
  ⟨fun _ => by simp [encodeRecord, produced, longestRecord, Config.maxRef], fun h => by cases h⟩

theorem refx (off : Off) (ext : Byte) : Statement (.refx off ext) := by
  intro _
  have := ext.isLt
  refine ⟨fun _ => ?_, fun h => by cases h⟩
  simp only [encodeRecord, produced, longestRecord, Config.maxRef, List.length_cons, List.length_nil,
    List.head?_cons, true_and]
  omega

theorem encode (nIn nOut : Word32) (clearHtab : BitVec 1) : Statement (.encode nIn nOut clearHtab) :=
  fun _ => ⟨fun h => absurd h Bool.false_ne_true, fun _ => ⟨rfl, rfl⟩⟩

theorem decode (nIn nOut : Word32) (clearHtab : BitVec 1) : Statement (.decode nIn nOut clearHtab) :=
  fun _ => ⟨fun h => absurd h Bool.false_ne_true, fun _ => ⟨rfl, rfl⟩⟩

end Sys2Proof.Laws.RecordSize
end

