-- ==== Sys2Proof/Tests/Slice0.lean ====
section
/-! SUPPORT. Tests of the model against the spec's own vectors and tables (95_test_vectors), each one step
on a small state; and a witness for the hypotheses of every obligation. -/

namespace Sys2Proof.Tests

open Sys2Proof Sys2Proof.Machine Sys2Proof.Safety

/-! ### Small states -/

/-- A running DECODE of `frame` with the record pointer at `at_`, `out` produced so far, room `nOut`. -/
def decoding (frame : List Byte) (at_ : Nat) (out : List Byte) (nOut : Nat) : State :=
  { State.reset with
    input := Memory.ofBytes 0 frame
    output := Memory.ofBytes 1 out
    htab := HashTable.cleared
    dec := { DecoderRegs.reset with inputIndex := at_, outputIndex := out.length }
    command := { op := 1#1, nIn := BitVec.ofNat 32 frame.length, nOut := BitVec.ofNat 32 nOut, clearHtab := 0#1 }
    phase := .decoding
    inRegion := { base := 0, extent := frame.length }
    outRegion := { base := frame.length, extent := nOut } }

/-- A running ENCODE of `input` at position `at_`, with `out` below `output_index`, the last `lit` of
them the open run, room `nOut`, and these entries in the table. -/
def encoding (input : List Byte) (at_ : Nat) (out : List Byte) (lit nOut : Nat)
    (entries : List (Nat × Word32)) : State :=
  { State.reset with
    input := Memory.ofBytes 0 input
    output := Memory.ofBytes 1 out
    htab := { HashTable.cleared with cells := entries }
    enc := { EncoderRegs.reset with
      inputIndex := at_
      outputIndex := out.length
      lit := lit
      hval := fingerprintOf (input.getD at_ 0) (input.getD (at_ + 1) 0) (input.getD (at_ + 2) 0) }
    command := { op := 0#1, nIn := BitVec.ofNat 32 input.length, nOut := BitVec.ofNat 32 nOut, clearHtab := 0#1 }
    phase := .encoding
    inRegion := { base := 0, extent := input.length }
    outRegion := { base := input.length, extent := nOut } }

/-- The IDLE block with these bytes lent as IN and this much room as OUT. -/
def lent (input : List Byte) (nOut : Nat) : State :=
  { State.reset with
    input := Memory.ofBytes 0 input
    inRegion := { base := 0, extent := input.length }
    outRegion := { base := input.length, extent := nOut } }

/-- Is the outcome a next state of which `p` holds? -/
def nextIs (o : Host.Outcome State Fault Refusal) (p : State → Bool) : Bool :=
  match o with
  | .next t => p t
  | .fault _ => false
  | .refused _ => false

/-- Did the command end with this status? -/
def endedWith (status : Status) (written : Word32) (t : State) : Bool :=
  t.phase == .idle && t.response == { status := status, written := written }


/-! ### Well-formedness, words, decoding -/

/-- 30_encoding R52: `count` is 1 to 32. -/
theorem test_wellFormed_refuses_empty_lit : (Instr.lit []).wellFormed = false := by decide

theorem test_wellFormed_refuses_33_literals : (Instr.lit (List.replicate 33 0x41)).wellFormed = false := by
  decide

theorem test_wellFormed_accepts_32_literals : (Instr.lit (List.replicate 32 0x41)).wellFormed = true := by
  decide

/-- 30_encoding R52, 95_test_vectors 2.5: `000 00010` then three literals. -/
theorem test_decode_lit :
    decode (.frame [0b00000010, 0x61, 0x62, 0x63]) = .ok (.lit [0x61, 0x62, 0x63], []) := by decide

/-- 95_test_vectors 2.8: `20 00` is REF 3, 1. -/
theorem test_decode_ref3 : decode (.frame [0b00100000, 0b00000000]) = .ok (.ref3 0, []) := by decide

/-- 95_test_vectors 2.5: `40 01`: length 4, distance 2. -/
theorem test_decode_ref4 : decode (.frame [0b01000000, 0b00000001]) = .ok (.ref4 1, []) := by decide

/-- 30_encoding R53, R55: `011 10101`, `01000010`: offset `0x15 << 8 | 0x42`. -/
theorem test_decode_ref5 : decode (.frame [0b01110101, 0b01000010]) = .ok (.ref5 0x1542, []) := by decide

/-- 95_test_vectors 2.5: `80 02`: length 6, distance 3. -/
theorem test_decode_ref6 : decode (.frame [0b10000000, 0b00000010]) = .ok (.ref6 2, []) := by decide

/-- 95_test_vectors 2.3: `A0 01`: length 7, distance 2; the byte behind it is left. -/
theorem test_decode_ref7 : decode (.frame [0b10100000, 0b00000001, 0x77]) = .ok (.ref7 1, [0x77]) := by
  decide

/-- 95_test_vectors 2.8: `DF FF` is REF 8, 8192. -/
theorem test_decode_ref8 : decode (.frame [0b11011111, 0b11111111]) = .ok (.ref8 8191, []) := by decide

/-- 95_test_vectors 2.8: `E1 19 05` is REFX 34, 262: the extension byte comes before the offset byte. -/
theorem test_decode_refx : decode (.frame [0b11100001, 0b00011001, 0b00000101]) = .ok (.refx 261 25, []) := by
  decide

/-- 10_state R22: `op` 0 is ENCODE, 1 is DECODE. -/
theorem test_decode_commands :
    decode (.command { op := 0, nIn := 46, nOut := 360, clearHtab := 1 }) = .ok (.encode 46 360 1, [])
      ∧ decode (.command { op := 1, nIn := 46, nOut := 360, clearHtab := 1 }) = .ok (.decode 46 360 1, []) := by
  decide

/-- 30_encoding R59: what is missing is named. -/
theorem test_decode_rejects :
    decode (.frame []) = .error .noControlByte
      ∧ decode (.frame [0x02, 0x61, 0x62]) = .error (.literalsMissing 0x02)
      ∧ decode (.frame [0x20]) = .error (.offsetMissing 0x20)
      ∧ decode (.frame [0xE0]) = .error (.extensionMissing 0xE0)
      ∧ decode (.frame [0xE0, 0xBF]) = .error (.longOffsetMissing 0xE0 0xBF) := by decide

/-- 95_test_vectors 2.8: the words of a match of each length and offset there. -/
theorem test_encode_matches :
    [backReference 0 3, backReference 2 8, backReference 2 9, backReference 0 264, backReference 269 3,
        backReference 287 56, backReference 8191 8, backReference 8191 264].map encodeRecord
      = [[0x20, 0x00], [0xC0, 0x02], [0xE0, 0x00, 0x02], [0xE0, 0xFF, 0x00], [0x21, 0x0D],
          [0xE1, 0x2F, 0x1F], [0xDF, 0xFF], [0xFF, 0xFF, 0xFF]] := by decide

/-- 95_test_vectors 2.1. -/
theorem test_hash_slots :
    [fingerprintOf 0 0 0, fingerprintOf 0 0 1, fingerprintOf 0 1 0, fingerprintOf 1 0 0,
        fingerprintOf 0xFF 0xFF 0xFF, fingerprintOf 0x41 0x42 0x43, fingerprintOf 0x48 0x65 0x6C,
        fingerprintOf 0x61 0x62 0x63, fingerprintOf 0x63 0x61 0x62].map hashSlot
      = [0, 16379, 15104, 64, 4, 1281, 5885, 11369, 12782] := by decide

/-- 95_test_vectors 2.9. -/
theorem test_bound :
    [0, 1, 24, 25, 26, 100, 300, 360, 1024, 65536].map bound
      = [1, 2, 25, 27, 28, 105, 313, 375, 1065, 68158] := by decide

/-! ### Records (95_test_vectors 2.2, 2.3, 2.4) -/

/-- `01 61 62` in exactly two bytes of room. -/
theorem test_lit_copies : nextIs (step (decoding [0x01, 0x61, 0x62] 0 [] 2)) (fun t =>
    t.output.slice 0 2 == [0x61, 0x62] && t.dec.outputIndex == 2 && t.dec.inputIndex == 3) = true := by decide

/-- `02 61 62`: DC with room for three, IB without: room is tested before truncation. -/
theorem test_lit_order_of_tests :
    nextIs (step (decoding [0x02, 0x61, 0x62] 0 [] 10)) (endedWith .dataCorruption 0) = true
      ∧ nextIs (step (decoding [0x02, 0x61, 0x62] 0 [] 2)) (endedWith .insufficientBuffer 0) = true := by
  decide

/-- `00 41 20 00`: an overlapping copy. -/
theorem test_ref3_overlaps : nextIs (step (decoding [0x00, 0x41, 0x20, 0x00] 2 [0x41] 4)) (fun t =>
    t.output.slice 0 4 == [0x41, 0x41, 0x41, 0x41] && t.dec.outputIndex == 4) = true := by decide

/-- `00 41 20 01`: IB in three bytes of room, DC in ten; `00 41 20` is DC. -/
theorem test_ref3_order_of_tests :
    nextIs (step (decoding [0x00, 0x41, 0x20, 0x01] 2 [0x41] 3)) (endedWith .insufficientBuffer 0) = true
      ∧ nextIs (step (decoding [0x00, 0x41, 0x20, 0x01] 2 [0x41] 10)) (endedWith .dataCorruption 0) = true
      ∧ nextIs (step (decoding [0x00, 0x41, 0x20] 2 [0x41] 3)) (endedWith .dataCorruption 0) = true := by
  decide

/-- `02 61 62 63 40 01`. -/
theorem test_ref4_copies :
    nextIs (step (decoding [0x02, 0x61, 0x62, 0x63, 0x40, 0x01] 4 [0x61, 0x62, 0x63] 20)) (fun t =>
      t.output.slice 0 7 == [0x61, 0x62, 0x63, 0x62, 0x63, 0x62, 0x63] && t.dec.outputIndex == 7) = true := by
  decide

/-- Program P1, the second record `60 03`. -/
theorem test_ref5_copies :
    nextIs (step (decoding [0x03, 1, 2, 3, 4, 0x60, 0x03, 0x00, 0xFF] 5 [1, 2, 3, 4] 20)) (fun t =>
      t.output.slice 0 9 == [1, 2, 3, 4, 1, 2, 3, 4, 1] && t.dec.inputIndex == 7) = true := by decide

/-- 95_test_vectors 2.5: `03 78 61 62 63 80 02` is "xabcabcabc". -/
theorem test_ref6_copies :
    nextIs (step (decoding [0x03, 0x78, 0x61, 0x62, 0x63, 0x80, 0x02] 5 [0x78, 0x61, 0x62, 0x63] 10)) (fun t =>
      t.output.slice 4 6 == [0x61, 0x62, 0x63, 0x61, 0x62, 0x63] && t.dec.outputIndex == 10) = true := by
  decide

/-- `01 61 62 A0 01`. -/
theorem test_ref7_copies :
    nextIs (step (decoding [0x01, 0x61, 0x62, 0xA0, 0x01] 3 [0x61, 0x62] 20)) (fun t =>
      t.output.slice 2 7 == [0x61, 0x62, 0x61, 0x62, 0x61, 0x62, 0x61] && t.dec.outputIndex == 9) = true := by
  decide

/-- `02 61 62 63 C0 02`. -/
theorem test_ref8_copies :
    nextIs (step (decoding [0x02, 0x61, 0x62, 0x63, 0xC0, 0x02] 4 [0x61, 0x62, 0x63] 20)) (fun t =>
      t.output.slice 3 8 == [0x61, 0x62, 0x63, 0x61, 0x62, 0x63, 0x61, 0x62] && t.dec.outputIndex == 11)
      = true := by decide

/-- `00 41 E0 00 00`: the shortest REFX, in exactly ten bytes of room. -/
theorem test_refx_copies : nextIs (step (decoding [0x00, 0x41, 0xE0, 0x00, 0x00] 2 [0x41] 10)) (fun t =>
    t.output.slice 0 10 == List.replicate 10 0x41 && t.dec.inputIndex == 5) = true := by decide

/-- `00 41 E0 BF` in one byte of room is DC, `00 41 FF FF FF` in 264 is IB and in 1000 DC. -/
theorem test_refx_order_of_tests :
    nextIs (step (decoding [0x00, 0x41, 0xE0, 0xBF] 2 [0x41] 1)) (endedWith .dataCorruption 0) = true
      ∧ nextIs (step (decoding [0x00, 0x41, 0xFF, 0xFF, 0xFF] 2 [0x41] 264))
          (endedWith .insufficientBuffer 0) = true
      ∧ nextIs (step (decoding [0x00, 0x41, 0xFF, 0xFF, 0xFF] 2 [0x41] 1000))
          (endedWith .dataCorruption 0) = true := by decide

/-! ### Commands, iterations and the tail (95_test_vectors 2.5 to 2.7, 2.9) -/

/-- 40_encoder R71, R73: the start of ENCODE; an empty input wins over `n_out = 0`. -/
theorem test_encode_starts :
    nextIs (exec (.encode 1 4 1) (lent [0x61] 4)) (fun t =>
        t.phase == .encoding && t.enc.inputIndex == 0 && t.enc.outputIndex == 1 && t.htab == HashTable.cleared)
        = true
      ∧ nextIs (exec (.encode 0 0 1) (lent [] 0)) (endedWith .ok 0) = true
      ∧ nextIs (exec (.encode 1 0 1) (lent [0x61] 0)) (endedWith .insufficientBuffer 0) = true := by decide

/-- 41_decoder R101, 95_test_vectors 2.2: the start of DECODE and the empty frame. -/
theorem test_decode_starts :
    nextIs (exec (.decode 2 1 0) (lent [0x00, 0x41] 1)) (fun t =>
        t.phase == .decoding && t.dec.inputIndex == 0 && t.dec.outputIndex == 0) = true
      ∧ nextIs (exec (.decode 0 0 0) (lent [] 0)) (endedWith .ok 0) = true := by decide

/-- "aaaa", position 1 reads `ref = 0`: never valid, a literal. -/
theorem test_iteration_literal :
    nextIs (step (encoding [0x61, 0x61, 0x61, 0x61] 1 [0, 0x61] 1 100 [])) (fun t =>
      t.enc.ref == 0 && t.enc.valid == false && t.enc.lit == 2 && t.output.read 2 == 0x61
        && t.htab.read 12659 == 1) = true := by decide

/-- "aaaaa", position 2: REF 3, 1 behind the closed run `01 61 61`; the match reaches the end. -/
theorem test_iteration_match :
    nextIs (step (encoding [0x61, 0x61, 0x61, 0x61, 0x61] 2 [0, 0x61, 0x61] 2 9 [(12659, 1)])) (fun t =>
      t.output.slice 0 5 == [0x01, 0x61, 0x61, 0x20, 0x00] && t.enc.outputIndex == 6
        && t.enc.inputIndex == 5 && t.htab.read 12659 == 2) = true := by decide

/-- 35 increasing bytes in 33: the 32nd literal rolls, `output_index = n_out + 1`; then IB. -/
theorem test_iteration_roll :
    nextIs (step (encoding ((List.range 35).map (BitVec.ofNat 8)) 31 ((0#8) :: (List.range 31).map (BitVec.ofNat 8))
        31 33 [])) (fun t =>
      t.enc.outputIndex == 34 && t.enc.lit == 0 && t.output.read 0 == 0x1F && t.output.read 32 == 0x1F)
      = true := by decide

/-- `61` alone: frame `00 61`, four bytes of room needed. -/
theorem test_tail :
    nextIs (step (encoding [0x61] 0 [0] 0 4 [])) (fun t =>
        endedWith .ok 2 t && t.output.slice 0 2 == [0x00, 0x61]) = true
      ∧ nextIs (step (encoding [0x61] 0 [0] 0 3 [])) (endedWith .insufficientBuffer 0) = true := by decide

/-- `n_in = 33`: the roll comes after the first tail literal: `1F … 00 20`, 35 bytes. -/
theorem test_tail_roll :
    nextIs (step (encoding ((List.range 33).map (BitVec.ofNat 8)) 31 ((0#8) :: (List.range 31).map (BitVec.ofNat 8))
        31 35 [])) (fun t =>
      endedWith .ok 35 t && t.output.read 0 == 0x1F && t.output.slice 31 4 == [0x1E, 0x1F, 0x00, 0x20])
      = true := by decide

/-- 41_decoder R109: the end of the frame `00 41`. -/
theorem test_frame_end : nextIs (step (decoding [0x00, 0x41] 2 [0x41] 5)) (fun t =>
    endedWith .ok 1 t && t.output.read 0 == 0x41) = true := by decide

/-- 70_reset R150, R151: reset during a command. -/
theorem test_reset_abandons :
    (hostReset (decoding [0x00, 0x41] 2 [0x41] 5)).phase = .idle
      ∧ (hostReset (decoding [0x00, 0x41] 2 [0x41] 5)).response = { status := .ok, written := 0 } := by decide

/-! ### Witnesses: for every obligation with hypotheses, inputs that meet them, at the ends of each range -/

theorem nextIs_exists {o : Host.Outcome State Fault Refusal} {p : State → Bool} (h : nextIs o p = true) :
    ∃ t, o = .next t ∧ p t = true := by
  cases o with
  | next t => exact ⟨t, rfl, h⟩
  | fault f => exact absurd h Bool.false_ne_true
  | refused r => exact absurd h Bool.false_ne_true

theorem next_exists {o : Host.Outcome State Fault Refusal} (h : nextIs o (fun _ => true) = true) :
    ∃ t, o = .next t := by
  obtain ⟨t, ht, -⟩ := nextIs_exists h
  exact ⟨t, ht⟩

/-! Running commands that meet the invariant. -/

/-- A literal and an overlapping match; the record pointer at the match, room and distance exact. -/
def atMatch : State := decoding [0x00, 0x41, 0x20, 0x00] 2 [0x41] 4

/-- "aaaaa" at position 2: a valid match of length 3, exact room for it and for the tail. -/
def atValid : State := encoding [0x61, 0x61, 0x61, 0x61, 0x61] 2 [0, 0x61, 0x61] 2 9 [(12659, 1)]

/-- "aaaaa" at position 2 with one byte too little: `3 + 4 ≥ 7`. -/
def atFull : State := encoding [0x61, 0x61, 0x61, 0x61, 0x61] 2 [0, 0x61, 0x61] 2 7 [(12659, 1)]

/-- "abcdabcd…" of `size` bytes at position 5: a match of all that is left. -/
def atRepeat (size nOut : Nat) : State :=
  encoding ((List.range size).map fun k => BitVec.ofNat 8 (0x61 + k % 4)) 5
    [0, 0x61, 0x62, 0x63, 0x64, 0x61] 5 nOut [(10148, 1)]

/-- "aaaaabcd" at position 2 with an empty open run, behind a record of two bytes: a match of 3, and
positions left to seed. -/
def atEmptyRun : State :=
  encoding [0x61, 0x61, 0x61, 0x61, 0x61, 0x62, 0x63, 0x64] 2 [0x00, 0x61, 0] 0 7 [(12659, 1)]

/-- The last literal of 32 in the main loop, one byte of room left. -/
def atRoll : State :=
  encoding ((List.range 35).map (BitVec.ofNat 8)) 31 ((0#8) :: (List.range 31).map (BitVec.ofNat 8)) 31 33 []

/-- The start of ENCODE of four bytes in which nothing repeats. -/
def atStart : State := encoding [0x61, 0x62, 0x63, 0x64] 0 [0] 0 6 []

/-- The tail with 31 literals open and two bytes left: a run of 33, exact room. -/
def atTail : State :=
  encoding ((List.range 33).map (BitVec.ofNat 8)) 31 ((0#8) :: (List.range 31).map (BitVec.ofNat 8)) 31 35 []

theorem witness_inv_atMatch : MachineInv atMatch := by
  refine ⟨?_, ?_, ?_, ?_, ?_, ?_, ?_, ?_, ?_⟩ <;> decide

theorem witness_inv_atValid : MachineInv atValid := by
  refine ⟨?_, ?_, ?_, ?_, ?_, ?_, ?_, ?_, ?_⟩ <;> decide

theorem witness_inv_atFull : MachineInv atFull := by
  refine ⟨?_, ?_, ?_, ?_, ?_, ?_, ?_, ?_, ?_⟩ <;> decide

theorem witness_inv_atRoll : MachineInv atRoll := by
  refine ⟨?_, ?_, ?_, ?_, ?_, ?_, ?_, ?_, ?_⟩ <;> decide

theorem witness_inv_atStart : MachineInv atStart := by
  refine ⟨?_, ?_, ?_, ?_, ?_, ?_, ?_, ?_, ?_⟩ <;> decide

theorem witness_inv_atTail : MachineInv atTail := by
  refine ⟨?_, ?_, ?_, ?_, ?_, ?_, ?_, ?_, ?_⟩ <;> decide

theorem witness_inv_atEight : MachineInv (atRepeat 13 11) := by
  refine ⟨?_, ?_, ?_, ?_, ?_, ?_, ?_, ?_, ?_⟩ <;> decide

theorem witness_inv_atNine : MachineInv (atRepeat 14 11) := by
  refine ⟨?_, ?_, ?_, ?_, ?_, ?_, ?_, ?_, ?_⟩ <;> decide

theorem witness_inv_atEmptyRun : MachineInv atEmptyRun := by
  refine ⟨?_, ?_, ?_, ?_, ?_, ?_, ?_, ?_, ?_⟩ <;> decide

/-! Encoding of records and commands. -/

theorem witness_DecodeInvertsEncode :
    (Instr.lit (List.replicate 32 0x41)).wellFormed = true ∧ (Instr.lit [0x41]).wellFormed = true
      ∧ (Instr.lit [0x41]).isRecord = true ∧ (Instr.refx 8191 255).wellFormed = true
      ∧ (Instr.encode 4294967295 0 1).wellFormed = true := by decide

theorem witness_EncodeInvertsDecode :
    decodeRecord [0x00, 0x41, 0x20] = .ok (.lit [0x41], [0x20])
      ∧ decodeRecord [0xFF, 0xFF, 0xFF] = .ok (.refx 8191 255, []) := by decide

/-- Both ends of each range of control bytes, with the bytes they need. -/
theorem witness_ControlByteSelectsRecord :
    (0x00#8).toNat < 0x20 ∧ (0x00#8).toNat + 1 ≤ [(0x41 : Byte)].length
      ∧ (0x1F#8).toNat < 0x20 ∧ (0x1F#8).toNat + 1 ≤ (List.replicate 32 (0x41 : Byte)).length
      ∧ (∀ c ∈ [0x20, 0x3F], 0x20 ≤ c ∧ c ≤ 0x3F) ∧ (∀ c ∈ [0x40, 0x5F], 0x40 ≤ c ∧ c ≤ 0x5F)
      ∧ (∀ c ∈ [0x60, 0x7F], 0x60 ≤ c ∧ c ≤ 0x7F) ∧ (∀ c ∈ [0x80, 0x9F], 0x80 ≤ c ∧ c ≤ 0x9F)
      ∧ (∀ c ∈ [0xA0, 0xBF], 0xA0 ≤ c ∧ c ≤ 0xBF) ∧ (∀ c ∈ [0xC0, 0xDF], 0xC0 ≤ c ∧ c ≤ 0xDF)
      ∧ 0xE0 ≤ (0xE0#8).toNat ∧ 0xE0 ≤ (0xFF#8).toNat := by decide

theorem witness_MatchLengthHasOneEncoding :
    (Instr.lit [0x41]).wellFormed = true ∧ (Instr.lit (List.replicate 32 0x41)).wellFormed = true
      ∧ Instr.ref8 0 ∈ [Instr.ref3 0, .ref4 0, .ref5 0, .ref6 0, .ref7 0, .ref8 0]
      ∧ produced (.ref3 0) = 3 ∧ produced (.ref8 0) = 8 ∧ 8 - 2 < 7 ∧ produced (.refx 0 0) = 9 ∧ 7 ≤ 9 - 2
      ∧ produced (.refx 0 255) = 264 := by decide

theorem witness_HashSlotFormula :
    MachineInv atStart ∧ atStart.phase = .encoding ∧ atStart.enc.inputIndex + 3 ≤ atStart.nIn :=
  ⟨witness_inv_atStart, by decide⟩

/-! The step and what it runs. -/

/-- The whole frame is one record, and a record with more behind it; a command in IDLE; nothing in IDLE. -/
theorem witness_StepRunsDecodedInstruction :
    (atMatch.phase = .decoding ∧ atMatch.dec.inputIndex < atMatch.nIn
        ∧ decodeRecord (atMatch.input.slice 2 2) = .ok (.ref3 0, []))
      ∧ ((decoding [0x00, 0x41, 0x20] 0 [] 4).phase = .decoding
        ∧ decodeRecord ((decoding [0x00, 0x41, 0x20] 0 [] 4).input.slice 0 3) = .ok (.lit [0x41], [0x20]))
      ∧ (hostPresent { op := 0, nIn := 1, nOut := 4, clearHtab := 1 } (lent [0x61] 4)).phase = .idle
      ∧ (hostPresent { op := 0, nIn := 1, nOut := 4, clearHtab := 1 } (lent [0x61] 4)).presented
        = some { op := 0, nIn := 1, nOut := 4, clearHtab := 1 }
      ∧ (lent [0x61] 4).phase = .idle ∧ (lent [0x61] 4).presented = none := by decide

theorem witness_FetchWordRuns :
    decodeTableWord 16 0x0220 = some (.ref3 2) ∧ decodeTableWord 8 1 = some (.decode 0 0 0) := by decide

/-! The records: exact room, exact payload, exact distance. -/

theorem witness_LitCopiesLiterals :
    (Instr.lit [0x41]).wellFormed = true
      ∧ (decoding [0x00, 0x41] 0 [] 1).dec.outputIndex + 1 ≤ (decoding [0x00, 0x41] 0 [] 1).nOut
      ∧ (decoding [0x00, 0x41] 0 [] 1).dec.inputIndex + 1 + 1 ≤ (decoding [0x00, 0x41] 0 [] 1).nIn := by decide

theorem witness_ShortRefsCopyMatch :
    (Instr.ref3 0, 3) ∈ [(Instr.ref3 0, 3), (.ref4 0, 4), (.ref5 0, 5), (.ref6 0, 6), (.ref7 0, 7), (.ref8 0, 8)]
      ∧ atMatch.dec.inputIndex + 2 ≤ atMatch.nIn ∧ atMatch.dec.outputIndex + 3 ≤ atMatch.nOut
      ∧ (0#13).toNat + 1 ≤ atMatch.dec.outputIndex := by decide

theorem witness_RefxCopiesMatch :
    let s := decoding [0x00, 0x41, 0xE0, 0x00, 0x00] 2 [0x41] 10
    s.dec.inputIndex + 3 ≤ s.nIn ∧ s.dec.outputIndex + ((0#8).toNat + 9) ≤ s.nOut
      ∧ (0#13).toNat + 1 ≤ s.dec.outputIndex := by decide

/-- `02 61 62` without room, without payload; `1F` with both exact. -/
theorem witness_LiteralRecordAtPointer :
    (let s := decoding [0x02, 0x61, 0x62] 0 [] 2;
      s.phase = .decoding ∧ s.dec.inputIndex < s.nIn ∧ (s.input.read 0).toNat < 32 ∧ 0 + 3 > s.nOut)
    ∧ (let s := decoding [0x02, 0x61, 0x62] 0 [] 3;
      s.phase = .decoding ∧ s.dec.inputIndex < s.nIn ∧ (s.input.read 0).toNat < 32 ∧ 0 + 3 ≤ s.nOut
        ∧ 0 + 1 + 3 > s.nIn)
    ∧ (let s := decoding (0x1F :: List.replicate 32 0x41) 0 [] 32;
      s.phase = .decoding ∧ s.dec.inputIndex < s.nIn ∧ (s.input.read 0).toNat < 32 ∧ 0 + 32 ≤ s.nOut
        ∧ 0 + 1 + 32 ≤ s.nIn) := by decide

/-- `20` alone; `20 00` without room; `20 01` one byte too far; `20 00` and `DF FF` (source exact). -/
theorem witness_ShortReferenceAtPointer :
    (let s := decoding [0x00, 0x41, 0x20] 2 [0x41] 10;
      s.phase = .decoding ∧ s.dec.inputIndex < s.nIn ∧ 32 ≤ (s.input.read 2).toNat
        ∧ (s.input.read 2).toNat < 224 ∧ s.dec.inputIndex + 1 ≥ s.nIn)
    ∧ (let s := decoding [0x00, 0x41, 0xDF, 0x00] 2 [0x41] 8;
      s.phase = .decoding ∧ 32 ≤ (s.input.read 2).toNat ∧ (s.input.read 2).toNat < 224
        ∧ s.dec.inputIndex + 1 < s.nIn ∧ s.dec.outputIndex + ((s.input.read 2).toNat / 32 + 2) > s.nOut)
    ∧ (let s := decoding [0x00, 0x41, 0x20, 0x01] 2 [0x41] 4;
      s.phase = .decoding ∧ 32 ≤ (s.input.read 2).toNat ∧ (s.input.read 2).toNat < 224
        ∧ s.dec.inputIndex + 1 < s.nIn ∧ s.dec.outputIndex + 3 ≤ s.nOut ∧ s.dec.outputIndex < 1 + 1)
    ∧ (let s := atMatch;
      s.phase = .decoding ∧ 32 ≤ (s.input.read 2).toNat ∧ (s.input.read 2).toNat < 224
        ∧ s.dec.inputIndex + 1 < s.nIn ∧ s.dec.outputIndex + 3 ≤ s.nOut
        ∧ (s.input.read 2).toNat % 32 * 256 + (s.input.read 3).toNat + 1 ≤ s.dec.outputIndex) := by decide

/-- `E0`; `E0 BF`; `FF FF FF` without room, with room but too far; `E0 00 00` with room and source exact. -/
theorem witness_LongReferenceAtPointer :
    (let s := decoding [0x00, 0x41, 0xE0] 2 [0x41] 10;
      s.phase = .decoding ∧ s.dec.inputIndex < s.nIn ∧ 224 ≤ (s.input.read 2).toNat
        ∧ s.dec.inputIndex + 1 ≥ s.nIn)
    ∧ (let s := decoding [0x00, 0x41, 0xE0, 0xBF] 2 [0x41] 10;
      s.phase = .decoding ∧ 224 ≤ (s.input.read 2).toNat ∧ s.dec.inputIndex + 2 = s.nIn)
    ∧ (let s := decoding [0x00, 0x41, 0xFF, 0xFF, 0xFF] 2 [0x41] 264;
      s.phase = .decoding ∧ 224 ≤ (s.input.read 2).toNat ∧ s.dec.inputIndex + 2 < s.nIn
        ∧ s.dec.outputIndex + ((s.input.read 3).toNat + 9) > s.nOut)
    ∧ (let s := decoding [0x00, 0x41, 0xFF, 0xFF, 0xFF] 2 [0x41] 265;
      s.phase = .decoding ∧ 224 ≤ (s.input.read 2).toNat ∧ s.dec.inputIndex + 2 < s.nIn
        ∧ s.dec.outputIndex + ((s.input.read 3).toNat + 9) ≤ s.nOut ∧ s.dec.outputIndex < 31 * 256 + 255 + 1)
    ∧ (let s := decoding [0x00, 0x41, 0xE0, 0x00, 0x00] 2 [0x41] 10;
      s.phase = .decoding ∧ 224 ≤ (s.input.read 2).toNat ∧ s.dec.inputIndex + 2 < s.nIn
        ∧ s.dec.outputIndex + ((s.input.read 3).toNat + 9) ≤ s.nOut
        ∧ (s.input.read 2).toNat % 32 * 256 + (s.input.read 4).toNat + 1 ≤ s.dec.outputIndex) := by decide

theorem witness_FrameEndReturnsOutputIndex :
    let s := decoding [0x00, 0x41] 2 [0x41] 1
    MachineInv s ∧ s.phase = .decoding ∧ s.dec.inputIndex = s.nIn := by
  refine ⟨⟨?_, ?_, ?_, ?_, ?_, ?_, ?_, ?_, ?_⟩, ?_, ?_⟩ <;> decide

/-! The commands. -/

theorem witness_DecodeStarts :
    (lent [0x00, 0x41] 1).phase = .idle ∧ lengthsTrue (lent [0x00, 0x41] 1) (2#32).toNat (1#32).toNat = true
      ∧ overlap (lent [0x00, 0x41] 1) (2#32).toNat (1#32).toNat = false ∧ 2#32 ≠ 0#32
      ∧ lengthsTrue (lent [] 0) (0#32).toNat (0#32).toNat = true
      ∧ overlap (lent [] 0) (0#32).toNat (0#32).toNat = false := by decide

/-- An empty input, no room, and one byte of each. -/
theorem witness_EncodeStarts :
    (lent [0x61] 1).phase = .idle ∧ lengthsTrue (lent [0x61] 1) (0#32).toNat (1#32).toNat = true
      ∧ overlap (lent [0x61] 1) (0#32).toNat (1#32).toNat = false
      ∧ lengthsTrue (lent [0x61] 1) (1#32).toNat (0#32).toNat = true
      ∧ overlap (lent [0x61] 1) (1#32).toNat (0#32).toNat = false
      ∧ lengthsTrue (lent [0x61] 1) (1#32).toNat (1#32).toNat = true
      ∧ overlap (lent [0x61] 1) (1#32).toNat (1#32).toNat = false
      ∧ lengthsTrue (lent [0x61, 0x62, 0x63] 1) (3#32).toNat (1#32).toNat = true := by decide

theorem witness_BusyCommandHasNoEffect : atMatch.phase ≠ .idle ∧ atValid.phase ≠ .idle := by decide

/-- One byte more than lent on either side; and regions that share their last and first byte. -/
theorem witness_IllegalCommandRefused :
    (lent [0x61] 4).phase = .idle ∧ (lent [0x61] 4).inRegion.extent < (2#32).toNat
      ∧ (lent [0x61] 4).outRegion.extent < (5#32).toNat
      ∧ (let s := { lent [0x61, 0x62] 4 with outRegion := { base := 1, extent := 4 } };
        (2#32).toNat ≤ s.inRegion.extent ∧ (4#32).toNat ≤ s.outRegion.extent
          ∧ s.inRegion.base ≤ 1 ∧ 1 < s.inRegion.base + (2#32).toNat
          ∧ s.outRegion.base ≤ 1 ∧ 1 < s.outRegion.base + (4#32).toNat) := by decide

/-! One step of ENCODE. -/

/-- No valid match; a valid match with exact room; a valid match without room. -/
theorem witness_EveryIterationLooksUp :
    (MachineInv atStart ∧ atStart.phase = .encoding ∧ atStart.enc.inputIndex + 3 ≤ atStart.nIn
        ∧ ¬ (ValidMatch atStart ∧ MatchHasRoom atStart))
      ∧ (MachineInv atEmptyRun ∧ atEmptyRun.phase = .encoding
        ∧ atEmptyRun.enc.inputIndex + 3 ≤ atEmptyRun.nIn ∧ ValidMatch atEmptyRun ∧ MatchHasRoom atEmptyRun)
      ∧ (MachineInv atFull ∧ atFull.phase = .encoding ∧ atFull.enc.inputIndex + 3 ≤ atFull.nIn
        ∧ ¬ (ValidMatch atFull ∧ MatchHasRoom atFull)) :=
  ⟨⟨witness_inv_atStart, by decide⟩, ⟨witness_inv_atEmptyRun, by decide⟩, witness_inv_atFull, by decide⟩

/-- OUT full; the 31st literal in the last byte; the 32nd in the last byte. -/
theorem witness_LiteralStepEffect :
    (let s := encoding [0x61, 0x62, 0x63] 0 [0] 0 1 [];
      s.phase = .encoding ∧ s.enc.inputIndex + 3 ≤ s.nIn ∧ ¬ ValidMatch s ∧ s.nOut ≤ s.enc.outputIndex)
    ∧ (let s := encoding ((List.range 35).map (BitVec.ofNat 8)) 30
          ((0#8) :: (List.range 30).map (BitVec.ofNat 8)) 30 32 [];
      s.phase = .encoding ∧ s.enc.inputIndex + 3 ≤ s.nIn ∧ ¬ ValidMatch s ∧ s.enc.outputIndex < s.nOut
        ∧ s.enc.lit < 31)
    ∧ (let s := atRoll;
      s.phase = .encoding ∧ s.enc.inputIndex + 3 ≤ s.nIn ∧ ¬ ValidMatch s ∧ s.enc.outputIndex < s.nOut
        ∧ s.enc.lit = 31 ∧ 32 ≤ s.enc.outputIndex) := by decide

/-- An open run closed and no position left to seed; an empty run withdrawn and positions seeded. -/
theorem witness_MatchStepEffect :
    (let s := atRepeat 14 11;
      s.phase = .encoding ∧ s.enc.inputIndex + 3 ≤ s.nIn ∧ ValidMatch s ∧ MatchLength s 9
        ∧ s.enc.lit + 1 ≤ s.enc.outputIndex ∧ MatchHasRoom s ∧ 0 < s.enc.lit
        ∧ s.enc.inputIndex + 9 + 2 ≥ s.nIn)
    ∧ (let s := atEmptyRun;
      s.phase = .encoding ∧ s.enc.inputIndex + 3 ≤ s.nIn ∧ ValidMatch s ∧ MatchLength s 3
        ∧ s.enc.lit + 1 ≤ s.enc.outputIndex ∧ MatchHasRoom s ∧ s.enc.lit = 0
        ∧ ¬ s.enc.inputIndex + 3 + 2 ≥ s.nIn) := by decide

/-- Length 8, the last with `L < 7`, and length 9, the first with `L ≥ 7`. -/
theorem witness_MatchRecordBytes :
    (MachineInv (atRepeat 13 11) ∧ (atRepeat 13 11).phase = .encoding
        ∧ (atRepeat 13 11).enc.inputIndex + 3 ≤ (atRepeat 13 11).nIn ∧ ValidMatch (atRepeat 13 11)
        ∧ MatchHasRoom (atRepeat 13 11) ∧ MatchLength (atRepeat 13 11) 8)
      ∧ (MachineInv (atRepeat 14 11) ∧ (atRepeat 14 11).phase = .encoding
        ∧ (atRepeat 14 11).enc.inputIndex + 3 ≤ (atRepeat 14 11).nIn ∧ ValidMatch (atRepeat 14 11)
        ∧ MatchHasRoom (atRepeat 14 11) ∧ MatchLength (atRepeat 14 11) 9) :=
  ⟨⟨witness_inv_atEight, by decide⟩, witness_inv_atNine, by decide⟩

theorem witness_MatchWithoutRoomFails :
    atFull.phase = .encoding ∧ atFull.enc.inputIndex + 3 ≤ atFull.nIn ∧ ValidMatch atFull
      ∧ ¬ MatchHasRoom atFull := by decide

/-- `output_index + 3` one above `n_out`, and equal to it. -/
theorem witness_TailPreCheck :
    (let s := encoding [0x61] 0 [0] 0 3 [];
      MachineInv s ∧ s.phase = .encoding ∧ s.nIn < s.enc.inputIndex + 3 ∧ s.enc.outputIndex + 3 > s.nOut)
    ∧ (MachineInv atTail ∧ atTail.phase = .encoding ∧ atTail.nIn < atTail.enc.inputIndex + 3
        ∧ atTail.enc.outputIndex + 3 ≤ atTail.nOut) := by
  refine ⟨⟨⟨?_, ?_, ?_, ?_, ?_, ?_, ?_, ?_, ?_⟩, ?_⟩, witness_inv_atTail, ?_⟩ <;> decide

/-- No room; a run of 33; nothing at all to close. -/
theorem witness_TailEffect :
    (let s := encoding [0x61] 0 [0] 0 3 [];
      s.phase = .encoding ∧ s.nIn < s.enc.inputIndex + 3 ∧ s.nOut < s.enc.outputIndex + 3)
    ∧ (let s := atTail;
      s.phase = .encoding ∧ s.nIn < s.enc.inputIndex + 3 ∧ s.enc.outputIndex + 3 ≤ s.nOut
        ∧ s.enc.inputIndex ≤ s.nIn ∧ s.enc.lit ≤ 31 ∧ s.enc.lit + 1 ≤ s.enc.outputIndex
        ∧ s.enc.lit + (s.nIn - s.enc.inputIndex) = 33)
    ∧ (let s := encoding [0x61, 0x61, 0x61, 0x61, 0x61] 5 [0x01, 0x61, 0x61, 0x20, 0x00, 0] 0 9 [];
      s.phase = .encoding ∧ s.nIn < s.enc.inputIndex + 3 ∧ s.enc.outputIndex + 3 ≤ s.nOut
        ∧ s.enc.inputIndex ≤ s.nIn ∧ s.enc.lit ≤ 31 ∧ s.enc.lit + 1 ≤ s.enc.outputIndex
        ∧ s.enc.lit + (s.nIn - s.enc.inputIndex) = 0) := by decide

/-! Invariants and whole-machine rules. -/

/-- Also for NoAccessOutOfRange and InputNeverWritten. -/
theorem witness_StepKeepsInvariant :
    (MachineInv atMatch ∧ ∃ t, step atMatch = .next t) ∧ (MachineInv atValid ∧ ∃ t, step atValid = .next t)
      ∧ (MachineInv atTail ∧ ∃ t, step atTail = .next t) :=
  ⟨⟨witness_inv_atMatch, next_exists (by decide)⟩, ⟨witness_inv_atValid, next_exists (by decide)⟩,
    witness_inv_atTail, next_exists (by decide)⟩

/-- Both causes occur, and steps that end nothing. -/
theorem witness_EveryCauseOfError :
    (MachineInv atFull ∧ (∃ t, step atFull = .next t) ∧ atFull.phase = .encoding
        ∧ atFull.enc.inputIndex + 3 ≤ atFull.nIn ∧ ValidMatch atFull ∧ ¬ MatchHasRoom atFull)
      ∧ (let s := decoding [0x00, 0x41, 0x20, 0x01] 2 [0x41] 4;
        MachineInv s ∧ (∃ t, step s = .next t) ∧ DataCorruptionCause s)
      ∧ (MachineInv atMatch ∧ ∃ t, step atMatch = .next t) := by
  refine ⟨⟨witness_inv_atFull, next_exists (by decide), by decide⟩, ⟨⟨?_, ?_, ?_, ?_, ?_, ?_, ?_, ?_, ?_⟩, ?_, ?_⟩,
    witness_inv_atMatch, next_exists (by decide)⟩
  case refine_10 => exact next_exists (by decide)
  case refine_11 => unfold DataCorruptionCause; decide
  all_goals decide

theorem witness_EncoderNeverReadsOut :
    MachineInv atValid ∧ atValid.phase = .encoding ∧ ∃ t, step atValid = .next t :=
  ⟨witness_inv_atValid, by decide, next_exists (by decide)⟩

/-- The start, and the step that ends with OK. -/
theorem witness_EncodedPrefixKept :
    (atStart.enc.inputIndex = 0 ∧ atStart.enc.outputIndex = 1 ∧ atStart.enc.lit = 0)
      ∧ (MachineInv atStart ∧ atStart.phase = .encoding ∧ EncodedPrefix atStart
        ∧ ∃ t, step atStart = .next t ∧ (t.phase == .encoding) = true)
      ∧ (let s := encoding [0x61] 0 [0] 0 4 [];
        MachineInv s ∧ s.phase = .encoding ∧ EncodedPrefix s
          ∧ ∃ t, step s = .next t ∧ endedWith .ok 2 t = true) := by
  refine ⟨by decide, ⟨witness_inv_atStart, by decide, ⟨standsFor_nil, rfl⟩, nextIs_exists (by decide)⟩,
    ⟨?_, ?_, ?_, ?_, ?_, ?_, ?_, ?_, ?_⟩, by decide, ⟨standsFor_nil, rfl⟩, nextIs_exists (by decide)⟩ <;> decide

/-- `00 41` stands for `41`. -/
theorem standsFor_00_41 : StandsFor [0x00, 0x41] [0x41] :=
  ⟨[.lit [0x41]], by decide, by decide, by decide⟩

theorem witness_DecodedPrefixKept :
    ((decoding [0x00, 0x41] 0 [] 1).dec.inputIndex = 0 ∧ (decoding [0x00, 0x41] 0 [] 1).dec.outputIndex = 0)
      ∧ (MachineInv atMatch ∧ atMatch.phase = .decoding ∧ DecodedPrefix atMatch
        ∧ ∃ t, step atMatch = .next t ∧ (t.phase == .decoding) = true)
      ∧ (let s := decoding [0x00, 0x41] 2 [0x41] 1;
        MachineInv s ∧ s.phase = .decoding ∧ DecodedPrefix s
          ∧ ∃ t, step s = .next t ∧ endedWith .ok 1 t = true) := by
  refine ⟨by decide, ⟨witness_inv_atMatch, by decide, standsFor_00_41, nextIs_exists (by decide)⟩,
    ⟨?_, ?_, ?_, ?_, ?_, ?_, ?_, ?_, ?_⟩, by decide, standsFor_00_41, nextIs_exists (by decide)⟩ <;> decide

/-- A step that stays in ENCODING; a start with the table cleared; a table of entries below the cursor; a
candidate 0. -/
theorem witness_TableEntriesBelowCursor :
    (MachineInv atValid ∧ atValid.phase = .encoding ∧ ∃ t, step atValid = .next t ∧ (t.phase == .encoding) = true)
      ∧ ((lent [0x61] 4).phase = .idle
        ∧ ∃ t, exec (.encode 1 4 1) (lent [0x61] 4) = .next t ∧ (t.phase == .encoding) = true)
      ∧ (MachineInv atStart ∧ atStart.phase = .encoding
        ∧ (∀ slot, atStart.htab.read slot = 0#32 ∨ (atStart.htab.read slot).toNat < atStart.enc.inputIndex)
        ∧ atStart.enc.inputIndex + 3 ≤ atStart.nIn ∧ candidate atStart = 0
        ∧ ∃ t, step atStart = .next t ∧ (t.phase == .encoding) = true) :=
  ⟨⟨witness_inv_atValid, by decide, nextIs_exists (by decide)⟩, ⟨by decide, nextIs_exists (by decide)⟩,
    witness_inv_atStart, by decide, fun _ => .inl rfl, by decide, by decide, nextIs_exists (by decide)⟩

/-- Also for ResponseStaysUntilEnd and RunningCommandKeepsRecord. -/
theorem witness_DecodeLeavesHashTable :
    (∃ t, exec (.decode 2 1 1) (lent [0x00, 0x41] 1) = .next t)
      ∧ atMatch.phase = .decoding ∧ ∃ t, step atMatch = .next t ∧ (t.phase != .idle) = true :=
  ⟨next_exists (by decide), by decide, nextIs_exists (by decide)⟩

theorem witness_RunningCommandKeepsRecord :
    (atMatch.phase ≠ .idle ∧ ∃ t, step atMatch = .next t) ∧ atValid.phase ≠ .idle ∧ ∃ t, step atValid = .next t :=
  ⟨⟨by decide, next_exists (by decide)⟩, by decide, next_exists (by decide)⟩

/-! Whole commands. -/

theorem witness_EncodeTerminates : MachineInv atRoll ∧ atRoll.phase = .encoding :=
  ⟨witness_inv_atRoll, by decide⟩

theorem witness_DecodeTerminates : MachineInv atMatch ∧ atMatch.phase = .decoding :=
  ⟨witness_inv_atMatch, by decide⟩

/-- A frame is no single byte. -/
theorem no_frame_of_one_byte : ¬ ∃ bytes, StandsFor [0x00] bytes := by
  rintro ⟨bytes, is, hr, hf, -⟩
  cases is with
  | nil => cases hf
  | cons i t =>
    have hlen := encodeRecord_length (hr i (by simp)).1 (hr i (by simp)).2
    have := congrArg List.length hf
    simp only [frameBytes, List.flatMap_cons, List.length_append, List.length_cons, List.length_nil] at this
    omega

/-- A valid frame, with exact room and with none; one that is not, with room for all it could produce. -/
theorem witness_DecodeMeetsContract :
    State.reset.phase = .idle ∧ [(0x00 : Byte), 0x41].length ≤ Config.nMax
      ∧ 0 + [(0x00 : Byte), 0x41].length ≤ 2 ∧ StandsFor [0x00, 0x41] [0x41]
      ∧ [(0x41 : Byte)].length ≤ (1#32).toNat ∧ (0#32).toNat < [(0x41 : Byte)].length
      ∧ (¬ ∃ bytes, StandsFor [0x00] bytes) ∧ 88 * [(0x00 : Byte)].length ≤ (88#32).toNat :=
  ⟨by decide, by decide, by decide, standsFor_00_41, by decide, by decide, no_frame_of_one_byte, by decide⟩

/-- Also for EncodeRoomAlwaysEnough: `5 + 0 + 4` bytes. -/
theorem witness_DecodeUndoesEncode :
    State.reset.phase = .idle ∧ [(0x61 : Byte), 0x61, 0x61, 0x61, 0x61].length ≤ Config.nMax
      ∧ 7 + [(0x61 : Byte), 0x61, 0x61, 0x61, 0x61].length ≤ 12
      ∧ [(0x61 : Byte), 0x61, 0x61, 0x61, 0x61].length + 5 / 32 + 4 ≤ (9#32).toNat := by decide

/-- Two runs to the end of DECODE of `00 41`, from different states. -/
theorem witness_DecodeDependsOnFrameOnly :
    ∃ s1 s1' t t', hostLend 0 [0x00, 0x41] 2 (1#32).toNat State.reset = .next s1
      ∧ hostLend 5 [0x00, 0x41] 9 (1#32).toNat (lent [0x61] 4) = .next s1'
      ∧ runCommand 2 { op := 1#1, nIn := BitVec.ofNat 32 2, nOut := 1#32, clearHtab := 0 } s1 = .next t
      ∧ runCommand 3 { op := 1#1, nIn := BitVec.ofNat 32 2, nOut := 1#32, clearHtab := 1 } s1' = .next t'
      ∧ t.phase = .idle ∧ t'.phase = .idle := ⟨_, _, _, _, rfl, rfl, rfl, rfl, rfl, rfl⟩

/-- Two runs to the end of ENCODE of `61` that succeed, with different room. -/
theorem witness_EncodeDependsOnInputAndTable :
    ∃ s1 s1' t t', hostLend 0 [0x61] 1 (4#32).toNat State.reset = .next s1
      ∧ hostLend 5 [0x61] 9 (5#32).toNat (lent [0x61] 4) = .next s1'
      ∧ runCommand 1 { op := 0#1, nIn := BitVec.ofNat 32 1, nOut := 4#32, clearHtab := 1 } s1 = .next t
      ∧ runCommand 2 { op := 0#1, nIn := BitVec.ofNat 32 1, nOut := 5#32, clearHtab := 1 } s1' = .next t'
      ∧ t.phase = .idle ∧ t'.phase = .idle ∧ t.response.status = .ok ∧ t'.response.status = .ok :=
  ⟨_, _, _, _, rfl, rfl, rfl, rfl, rfl, rfl, rfl, rfl⟩

/-- Four different bytes, with `4 + 2 + 0` bytes of room and with one less. -/
theorem witness_RoomWithoutMatches :
    State.reset.phase = .idle ∧ 0 < [(0x61 : Byte), 0x62, 0x63, 0x64].length
      ∧ (∀ i j, i < j → j + 3 ≤ [(0x61 : Byte), 0x62, 0x63, 0x64].length →
          ([(0x61 : Byte), 0x62, 0x63, 0x64].drop i).take 3 ≠ ([(0x61 : Byte), 0x62, 0x63, 0x64].drop j).take 3)
      ∧ 4 + (4 - 2) + (4 - 2) / 32 ≤ (6#32).toNat ∧ (5#32).toNat < 4 + (4 - 2) + (4 - 2) / 32 := by
  refine ⟨by decide, by decide, fun i j hij hj => ?_, by decide, by decide⟩
  obtain rfl : j = 1 := by simp only [List.length_cons, List.length_nil] at hj; omega
  obtain rfl : i = 0 := by omega
  decide

/-! Reset and the host. -/

theorem witness_ResetAbandonsCommand : atMatch.phase ≠ .idle ∧ (0 : Nat) < atMatch.nOut ∧ atMatch.nOut ≤ 4 := by
  decide

/-- A running command; the end of a command that gave one byte, inside and outside it; an error. -/
theorem witness_HostMovesOnlyWhenIdle :
    atMatch.phase ≠ .idle
      ∧ (let s := { lent [0x61] 4 with response := { status := .ok, written := 1 } };
        s.phase = .idle ∧ s.response.status = .ok ∧ 0 < s.response.written.toNat ∧ s.response.written.toNat ≤ 1)
      ∧ (let s := { lent [0x61] 4 with response := { status := .insufficientBuffer, written := 0 } };
        s.phase = .idle ∧ s.response.status ≠ .ok) := by decide

end Sys2Proof.Tests
end

section
/-! PROOF. One step of DECODE in terms of frames: it ends with an error, runs one record, or returns at
the end of the frame. From this 10_state R27 is kept. -/

namespace Sys2Proof.Safety

open Sys2Proof.Machine

theorem MachineInv.decoderRanges {s : State} (h : MachineInv s) (hp : s.phase = .decoding) :
    DecoderRanges s :=
  (h.decoding hp).2

/-- The step from `s` to `t` ran the record `i`: its words lie at the record pointer of `s`, which moves
past them, and OUT below `output_index` grows by what `i` produces. -/
structure RecordRun (s t : State) (i : Instr) : Prop where
  isRecord : i.isRecord = true
  wellFormed : i.wellFormed = true
  input : t.input = s.input
  phase : t.phase = s.phase
  words : s.input.slice s.dec.inputIndex (encodeRecord i).length = encodeRecord i
  fits : t.dec.inputIndex ≤ s.nIn
  pointer : t.dec.inputIndex = s.dec.inputIndex + (encodeRecord i).length
  expands : expandRecord (s.output.slice 0 s.dec.outputIndex) i
    = some (t.output.slice 0 t.dec.outputIndex)

/-- A record run keeps R27, with one more record read. -/
theorem RecordRun.decodedPrefix {s t : State} {i : Instr} (h : RecordRun s t i) (hs : DecodedPrefix s) :
    DecodedPrefix t := by
  have hread : t.input.slice 0 t.dec.inputIndex
      = s.input.slice 0 s.dec.inputIndex ++ encodeRecord i := by
    rw [h.input, h.pointer, Memory.slice_add, Nat.zero_add, h.words]
  unfold DecodedPrefix
  rw [hread]
  exact StandsFor.snoc hs h.isRecord h.wellFormed h.expands

/-! ### What a record leaves in OUT -/

/-- A LIT's copy is what `expandRecord` says. -/
theorem expandRecord_of_literals {m m' i : Memory} {o p n : Nat}
    (hbelow : ∀ b, b < o → m'.read b = m.read b)
    (hcopy : ∀ k, k < n → m'.read (o + k) = i.read (p + k)) :
    expandRecord (m.slice 0 o) (.lit (i.slice p n)) = some (m'.slice 0 (o + n)) := by
  rw [expandRecord, Memory.slice_add, Nat.zero_add]
  congr 2
  · exact Memory.slice_congr fun k hk => (hbelow _ (by omega)).symm
  · exact List.map_congr_left fun k hk => (hcopy k (List.mem_range.mp hk)).symm

/-- A copied match is what `expandMatch` says. -/
theorem expandMatch_of_copied {s : State} {off : Off} {total : Nat} {m : Memory}
    (hd : distance off ≤ s.dec.outputIndex) (hm : Copied s (distance off) total m) :
    expandMatch (s.output.slice 0 s.dec.outputIndex) off total
      = some (m.slice 0 (s.dec.outputIndex + total)) := by
  rw [expandMatch_slice _ _ _ _ hd, Memory.slice_add, Nat.zero_add]
  congr 2
  · exact Memory.slice_congr fun k hk => (hm.others _ (by omega)).symm
  · exact List.map_congr_left fun k hk => (hm.bytes k (List.mem_range.mp hk)).symm

/-! ### The records -/

/-- The words of a LIT: its control byte and the literals behind it. -/
theorem encodeRecord_lit_slice {m : Memory} {p : Nat} (hc : (m.read p).toNat < 32) :
    encodeRecord (.lit (m.slice (p + 1) ((m.read p).toNat + 1)))
      = m.slice p ((m.read p).toNat + 1 + 1) := by
  have hctl : (Instr.lit (m.slice (p + 1) ((m.read p).toNat + 1))).control = m.read p := by
    rw [control_lit _ (by simp) (by simp; omega), Memory.slice_length, Nat.add_sub_cancel,
      BitVec.ofNat_toNat, BitVec.setWidth_eq]
  rw [encodeRecord, hctl, ← Memory.slice_cons]

theorem recordRun_lit {s : State} {m : Memory} (hc : (s.input.read s.dec.inputIndex).toNat < 32)
    (hi : s.dec.inputIndex + 1 + ((s.input.read s.dec.inputIndex).toNat + 1) ≤ s.nIn)
    (hbytes : ∀ k, k < (s.input.read s.dec.inputIndex).toNat + 1 →
      m.read (s.dec.outputIndex + k) = s.input.read (s.dec.inputIndex + 1 + k))
    (hbelow : ∀ b, b < s.dec.outputIndex → m.read b = s.output.read b) :
    RecordRun s (afterLit (s.input.read s.dec.inputIndex)
        ((s.input.read s.dec.inputIndex).toNat + 1) s m)
      (.lit (s.input.slice (s.dec.inputIndex + 1) ((s.input.read s.dec.inputIndex).toNat + 1))) where
  isRecord := rfl
  wellFormed := (wellFormed_lit _).mpr (by rw [Memory.slice_length]; omega)
  input := rfl
  phase := rfl
  words := by rw [encodeRecord_lit_slice hc, Memory.slice_length]
  fits := hi
  pointer := by
    rw [encodeRecord_lit_slice hc, Memory.slice_length]
    show s.dec.inputIndex + 1 + ((s.input.read s.dec.inputIndex).toNat + 1) = _
    omega
  expands := expandRecord_of_literals hbelow hbytes

theorem recordRun_short {s : State} {m : Memory} {c lo : Byte}
    (hcr : s.input.read s.dec.inputIndex = c) (hlo : s.input.read (s.dec.inputIndex + 1) = lo)
    (hc : 32 ≤ c.toNat) (hc' : c.toNat < 224) (hi : s.dec.inputIndex + 2 ≤ s.nIn)
    (hd : distanceOf c lo ≤ s.dec.outputIndex) (hm : Copied s (distanceOf c lo) (c.toNat / 32 + 2) m) :
    RecordRun s (afterRef (shortTaken c lo s) m) (shortRef (ctrlClass c) (joinOff (ctrlLow c) lo)) := by
  have hwords := encodeRecord_shortRef c lo hc hc'
  have hptr : (afterRef (shortTaken c lo s) m).dec.inputIndex = s.dec.inputIndex + 2 :=
    congrArg DecoderRegs.inputIndex (shortTaken_dec c lo s)
  have hout : (afterRef (shortTaken c lo s) m).dec.outputIndex
      = s.dec.outputIndex + (c.toNat / 32 + 2) :=
    congrArg (fun d => d.outputIndex + d.total) (shortTaken_dec c lo s)
  rw [show distanceOf c lo = _ from (distance_joinOff c lo).symm] at hd hm
  exact {
    isRecord := (shortRef_isRecord _ _).1
    wellFormed := (shortRef_isRecord _ _).2
    input := rfl
    phase := rfl
    words := by rw [hwords, ← hcr, ← hlo]; rfl
    fits := hptr.trans_le hi
    pointer := by rw [hptr, hwords]; rfl
    expands := by
      rw [expandRecord_shortRef _ _ _ (by rw [ctrlClass_toNat]; omega) (by rw [ctrlClass_toNat]; omega),
        ctrlClass_toNat, expandMatch_of_copied hd hm, hout]
      rfl }

theorem recordRun_long {s : State} {m : Memory} {c ext lo : Byte}
    (hcr : s.input.read s.dec.inputIndex = c) (hext : s.input.read (s.dec.inputIndex + 1) = ext)
    (hlo : s.input.read (s.dec.inputIndex + 2) = lo)
    (hc : 224 ≤ c.toNat) (hi : s.dec.inputIndex + 3 ≤ s.nIn)
    (hd : distanceOf c lo ≤ s.dec.outputIndex) (hm : Copied s (distanceOf c lo) (ext.toNat + 9) m) :
    RecordRun s (afterRef (longTaken c ext lo s) m) (.refx (joinOff (ctrlLow c) lo) ext) := by
  have hwords := encodeRecord_refx c ext lo hc
  have hptr : (afterRef (longTaken c ext lo s) m).dec.inputIndex = s.dec.inputIndex + 3 :=
    congrArg DecoderRegs.inputIndex (longTaken_dec c ext lo s)
  have hout : (afterRef (longTaken c ext lo s) m).dec.outputIndex = s.dec.outputIndex + (ext.toNat + 9) := by
    have h7 : c.toNat / 32 = 7 := by have := c.isLt; omega
    have htaken : (afterRef (longTaken c ext lo s) m).dec.outputIndex
        = s.dec.outputIndex + (c.toNat / 32 + ext.toNat + 2) :=
      congrArg (fun d => d.outputIndex + d.total) (longTaken_dec c ext lo s)
    omega
  rw [show distanceOf c lo = _ from (distance_joinOff c lo).symm] at hd hm
  exact {
    isRecord := rfl
    wellFormed := rfl
    input := rfl
    phase := rfl
    words := by rw [hwords, ← hcr, ← hext, ← hlo]; rfl
    fits := hptr.trans_le hi
    pointer := by rw [hptr, hwords]; rfl
    expands := by
      rw [expandRecord, expandMatch_of_copied hd hm, hout]
      rfl }

/-! ### One step of DECODE -/

theorem next_unique {o : Host.Outcome State Fault Refusal} {t u : State} (ht : o = .next t)
    (hu : o = .next u) : t = u :=
  Host.Outcome.next.inj (ht.symm.trans hu)

/-- Everything a step of DECODE can do, in terms of records. -/
inductive DecodeResult (s t : State) : Prop where
  /-- A test failed. -/
  | failed (e : Status) (u : State) (he : e ≠ .ok) (ht : t = errorEntry e u)
  /-- One record ran. -/
  | ran (i : Instr) (h : RecordRun s t i)
  /-- The end of the frame. -/
  | frameEnd (h : s.nIn ≤ s.dec.inputIndex) (ht : t = endOfFrame s)

theorem decode_result {s t : State} (hp : s.phase = .decoding) (hst : step s = .next t) :
    DecodeResult s t := by
  have next {u : State} (hs : step s = .next u) : t = u := next_unique hst hs
  cases decode_cases hp with
  | litNoRoom _ _ _ hs => exact .failed _ _ (by decide) (next hs)
  | litTruncated _ _ _ _ hs => exact .failed _ _ (by decide) (next hs)
  | refTruncated _ _ hs => exact .failed _ _ (by decide) (next hs)
  | extTruncated _ _ hs => exact .failed _ _ (by decide) (next hs)
  | shortFails _ _ _ e he hs =>
    exact .failed e _ (by rcases he with ⟨rfl, _⟩ | ⟨rfl, _⟩ <;> decide) (next hs)
  | longFails _ _ e he hs =>
    exact .failed e _ (by rcases he with ⟨rfl, _⟩ | ⟨rfl, _⟩ <;> decide) (next hs)
  | lit m hc ho hi hbytes hothers hwf hb hk hs =>
    obtain rfl := next hs
    exact .ran _ (recordRun_lit hc hi hbytes fun b hb => hothers b (.inl hb))
  | short m hc hc' hi ho hd hm hs =>
    obtain rfl := next hs
    exact .ran _ (recordRun_short rfl rfl hc hc' hi hd hm)
  | long m hc hi ho hd hm hs =>
    obtain rfl := next hs
    exact .ran _ (recordRun_long rfl rfl rfl hc hi hd hm)
  | frameEnd h hs => exact .frameEnd h (next hs)

/-- At the end of the frame all its records are read, and what they stand for is returned. -/
theorem endOfFrame_standsFor {s : State} (hr : DecoderRanges s) (hend : s.nIn ≤ s.dec.inputIndex)
    (hs : DecodedPrefix s) :
    StandsFor (s.input.slice 0 s.nIn)
      ((endOfFrame s).output.slice 0 (endOfFrame s).response.written.toNat) := by
  obtain ⟨hin, hout⟩ := hr
  have hlt := s.nOut_lt
  have hwritten : (endOfFrame s).response.written.toNat = s.dec.outputIndex := by
    rw [endOfFrame, returnOk_eq, endCommand_response, BitVec.toNat_ofNat]
    omega
  have hkept : (endOfFrame s).output.slice 0 s.dec.outputIndex = s.output.slice 0 s.dec.outputIndex :=
    Memory.slice_forget _ _ _ _ _ _ (by omega)
  rw [hwritten, hkept, show s.nIn = s.dec.inputIndex by omega]
  exact hs

theorem decodedPrefix_start {s : State} (hi : s.dec.inputIndex = 0) (ho : s.dec.outputIndex = 0) :
    DecodedPrefix s := by
  unfold DecodedPrefix
  rw [hi, ho]
  exact standsFor_nil

/-- Settles O35: a step that stays in DECODING ran one record, and the end of the frame returns
what the records read stand for. -/
theorem decodedPrefixKept : Obligations.DecodedPrefixKept := by
  refine ⟨fun s => decodedPrefix_start, fun s t hinv hp hs hst => ?_⟩
  cases decode_result hp hst with
  | failed e u he ht =>
    subst ht
    exact ⟨nofun, fun _ h => absurd h he⟩
  | ran i h =>
    exact ⟨fun _ => h.decodedPrefix hs, fun ht => nomatch hp.symm.trans (h.phase.symm.trans ht)⟩
  | frameEnd hend ht =>
    subst ht
    exact ⟨nofun, fun _ _ => endOfFrame_standsFor (hinv.decoderRanges hp) hend hs⟩

end Sys2Proof.Safety
end

section
/-! PROOF. What one step of ENCODE does to HTAB: every entry stays, or becomes a position the cursor has
passed (10_state R26). -/

namespace Sys2Proof.Safety

open Sys2Proof.Machine

/-! ### Tables -/

/-- Every entry of `t'` is the one of `t`, or is below `bound`. -/
def EntriesKeptOrBelow (t t' : HashTable) (bound : Nat) : Prop :=
  ∀ slot, t'.read slot = t.read slot ∨ (t'.read slot).toNat < bound

theorem EntriesKeptOrBelow.refl (t : HashTable) (bound : Nat) : EntriesKeptOrBelow t t bound :=
  fun _ => .inl rfl

/-- Writing a position below the bound. -/
theorem EntriesKeptOrBelow.write {t t' : HashTable} {bound : Nat} (h : EntriesKeptOrBelow t t' bound)
    (slot : Slot) {q : Nat} (hq : q < bound) :
    EntriesKeptOrBelow t (t'.write slot (BitVec.ofNat 32 q)) bound := by
  intro slot'
  rw [HashTable.read_write]
  split
  · right
    calc (BitVec.ofNat 32 q).toNat = q % 2 ^ 32 := BitVec.toNat_ofNat ..
      _ ≤ q := Nat.mod_le ..
      _ < bound := hq
  · exact h slot'

theorem tableAfterLookup_entries (s : State) {bound : Nat} (h : s.enc.inputIndex < bound) :
    EntriesKeptOrBelow s.htab (tableAfterLookup s) bound :=
  (EntriesKeptOrBelow.refl _ _).write _ h

/-- The lookup and the re-seeds of a match step write positions inside the match. -/
theorem tableAfterMatch_entries (s : State) {n : Nat} (h3 : 3 ≤ n) :
    EntriesKeptOrBelow s.htab (tableAfterMatch s n) (s.enc.inputIndex + n) := by
  have hlookup := tableAfterLookup_entries s (show s.enc.inputIndex < s.enc.inputIndex + n by omega)
  unfold tableAfterMatch
  split
  · exact hlookup
  · exact (hlookup.write _ (by omega)).write _ (by omega)

/-! ### One step of ENCODE -/

theorem MachineInv.encoderRanges {s : State} (h : MachineInv s) (hp : s.phase = .encoding) :
    EncoderRanges s :=
  (h.encoding hp).2.1

/-- A step that does not end the command moves the cursor on, and every entry stays or is below it. -/
theorem encode_step_entries {s t : State} (hp : s.phase = .encoding) (hr : EncoderRanges s)
    (hst : step s = .next t) (htp : t.phase = .encoding) :
    s.enc.inputIndex < t.enc.inputIndex ∧ EntriesKeptOrBelow s.htab t.htab t.enc.inputIndex := by
  have not_ended {st : Status} {w : Word32} {k : Nat} {u : State}
      (hs : step s = .next (endCommand st w k u)) : False := by
    rw [next_unique hst hs] at htp
    nomatch htp
  cases encode_cases hp hr with
  | literalNoRoom _ _ _ hs => exact (not_ended hs).elim
  | matchNoRoom _ _ _ _ _ hs => exact (not_ended hs).elim
  | tailNoRoom _ _ hs => exact (not_ended hs).elim
  | done _ _ _ _ hs => exact (not_ended hs).elim
  | literal _ _ _ _ hs =>
    obtain rfl := next_unique hst hs
    exact ⟨Nat.lt_succ_self _, tableAfterLookup_entries s (Nat.lt_succ_self _)⟩
  | roll _ _ _ _ hs =>
    obtain rfl := next_unique hst hs
    exact ⟨Nat.lt_succ_self _, tableAfterLookup_entries s (Nat.lt_succ_self _)⟩
  | isMatch n m _ _ hn _ _ hs =>
    obtain rfl := next_unique hst hs
    have h3 : 3 ≤ n := hn.1
    exact ⟨show s.enc.inputIndex < s.enc.inputIndex + n by omega, tableAfterMatch_entries s h3⟩

/-- Without a valid match an iteration leaves `valid` false, however it ends (40_encoder R78). -/
theorem step_valid_of_not_validMatch {s t : State} (hp : s.phase = .encoding) (hr : EncoderRanges s)
    (h3 : s.enc.inputIndex + 3 ≤ s.nIn) (hv : ¬ ValidMatch s) (hst : step s = .next t) :
    t.enc.valid = false := by
  have valid_of {u : State} (hs : step s = .next u) (hu : u.enc.valid = false) : t.enc.valid = false :=
    next_unique hst hs ▸ hu
  cases encode_cases hp hr with
  | literalNoRoom _ _ _ hs => exact valid_of hs rfl
  | literal _ _ _ _ hs => exact valid_of hs rfl
  | roll _ _ _ _ hs => exact valid_of hs rfl
  | matchNoRoom _ _ hv' _ _ _ => exact absurd hv' hv
  | isMatch _ _ _ hv' _ _ _ _ => exact absurd hv' hv
  | tailNoRoom h3' _ _ => omega
  | done _ h3' _ _ _ => omega

/-- An ENCODE that clears the table begins with every entry 0 (40_encoder R72). -/
theorem execEncode_clear {nIn nOut : Word32} {s t : State} (hp : s.phase = .idle)
    (hst : exec (.encode nIn nOut 1#1) s = .next t) (htp : t.phase = .encoding) :
    t.htab = HashTable.cleared := by
  have next {u : State} (hs : exec (.encode nIn nOut 1#1) s = .next u) : t = u := next_unique hst hs
  cases command_cases ⟨0#1, nIn, nOut, 1#1⟩ hp with
  | refused f hs => exact nomatch hst.symm.trans hs
  | encodeEmpty _ _ _ _ hs => rw [next hs] at htp; nomatch htp
  | encodeNoOut _ _ _ _ _ hs => rw [next hs] at htp; nomatch htp
  | encodeStarts _ _ _ _ _ hs => rw [next hs]; rfl
  | decodeEmpty hop _ _ _ _ => nomatch hop
  | decodeStarts hop _ _ _ _ => nomatch hop

/-- Settles O36: a step of ENCODE writes only positions the cursor has then passed, a clearing start
leaves zeros, and R78 refuses a candidate that is 0 or not below the cursor. -/
theorem tableEntriesBelowCursor : Obligations.TableEntriesBelowCursor := by
  refine ⟨fun s t hinv hp hst htp => (encode_step_entries hp (hinv.encoderRanges hp) hst htp).2, ?_, ?_, ?_⟩
  · intro nIn nOut s t hp hst htp slot
    rw [execEncode_clear hp hst htp, HashTable.read_cleared]
  · intro s t hinv hp hbelow hst htp slot
    obtain ⟨hmoved, hentries⟩ := encode_step_entries hp (hinv.encoderRanges hp) hst htp
    rcases hentries slot with hkept | hnew
    · rw [hkept]
      exact (hbelow slot).imp_right fun h => h.trans hmoved
    · exact .inr hnew
  · intro s t hinv hp h3 hcand hst
    have hv : ¬ ValidMatch s := fun ⟨hpos, hlt, _⟩ => by omega
    exact step_valid_of_not_validMatch hp (hinv.encoderRanges hp) h3 hv hst

end Sys2Proof.Safety
end

section
/-! PROOF. What the record decoder reads behind each range of control bytes (30_encoding R51). -/

namespace Sys2Proof

/-- Below 0x20 a control byte is one less than its count of literals. -/
theorem decodeRecord_of_lit {c : Byte} {rest : List Byte} (hc : c.toNat < 32)
    (hrest : c.toNat + 1 ≤ rest.length) :
    decodeRecord (c :: rest) = .ok (.lit (rest.take (c.toNat + 1)), rest.drop (c.toNat + 1)) := by
  have hclass : ctrlClass c = 0#3 := (ctrlClass_eq_iff c 0 (by decide)).mpr (by omega)
  have hcount : litCount c = c.toNat + 1 := by rw [litCount_eq, Nat.mod_eq_of_lt hc]
  rw [decodeRecord_cons, if_pos hclass, hcount, if_neg (by omega)]

/-- In the range of the class `k`, 1 to 6, a control byte begins the short back-reference of `k`. -/
theorem decodeRecord_of_ref {c : Byte} (lo : Byte) (tail : List Byte) {k : Nat} (hk : 1 ≤ k ∧ k ≤ 6)
    (hc : 32 * k ≤ c.toNat ∧ c.toNat ≤ 32 * k + 31) :
    decodeRecord (c :: lo :: tail)
      = .ok (shortRef (BitVec.ofNat 3 k) (BitVec.ofNat 13 (c.toNat % 32 * 256 + lo.toNat)), tail) := by
  have hclass : ctrlClass c = BitVec.ofNat 3 k := (ctrlClass_eq_iff c k (by omega)).mpr (by omega)
  have hlit : ctrlClass c ≠ 0#3 := (ctrlClass_eq_iff c 0 (by decide)).not.mpr (by omega)
  have hlong : ctrlClass c ≠ 7#3 := (ctrlClass_eq_iff c 7 (by decide)).not.mpr (by omega)
  rw [decodeRecord_cons, if_neg hlit, if_neg hlong, hclass, ← joinOff_ctrlLow]

/-- From 0xE0 up a control byte begins a long back-reference. -/
theorem decodeRecord_of_refx {c : Byte} (ext lo : Byte) (tail : List Byte) (hc : 224 ≤ c.toNat) :
    decodeRecord (c :: ext :: lo :: tail)
      = .ok (.refx (BitVec.ofNat 13 (c.toNat % 32 * 256 + lo.toNat)) ext, tail) := by
  have hlt := c.isLt
  have hclass : ctrlClass c = 7#3 := (ctrlClass_eq_iff c 7 (by decide)).mpr (by omega)
  rw [decodeRecord_cons, hclass, if_neg (by decide), if_pos rfl, ← joinOff_ctrlLow]

/-- Settles O3: each range of control bytes is one value of `c >> 5`, by which the decoder chooses. -/
theorem controlByteSelectsRecord : Obligations.ControlByteSelectsRecord := by
  refine fun c rest => ⟨decodeRecord_of_lit, ?_, ?_⟩
  · rintro lo tail rfl
    exact ⟨decodeRecord_of_ref lo tail (k := 1) (by decide), decodeRecord_of_ref lo tail (k := 2) (by decide),
      decodeRecord_of_ref lo tail (k := 3) (by decide), decodeRecord_of_ref lo tail (k := 4) (by decide),
      decodeRecord_of_ref lo tail (k := 5) (by decide), decodeRecord_of_ref lo tail (k := 6) (by decide)⟩
  · rintro ext lo tail rfl hc
    exact decodeRecord_of_refx ext lo tail hc

end Sys2Proof
end

section
/-! PROOF. How many bytes a record produces, and the length field of a back-reference (30_encoding R56). -/

namespace Sys2Proof.Machine

/-! ### Short back-references, by their class -/

/-- The classes of the short back-references. -/
theorem shortClass_cases : ∀ l : BitVec 3, 1 ≤ l.toNat → l.toNat ≤ 6 →
    l = 1#3 ∨ l = 2#3 ∨ l = 3#3 ∨ l = 4#3 ∨ l = 5#3 ∨ l = 6#3 := by decide

theorem produced_shortRef {l : BitVec 3} (off : Off) (h1 : 1 ≤ l.toNat) (h6 : l.toNat ≤ 6) :
    produced (shortRef l off) = l.toNat + 2 := by
  rcases shortClass_cases l h1 h6 with rfl | rfl | rfl | rfl | rfl | rfl <;> rfl

theorem ctrlClass_control_shortRef {l : BitVec 3} (off : Off) (h1 : 1 ≤ l.toNat) (h6 : l.toNat ≤ 6) :
    ctrlClass (shortRef l off).control = l := by
  have hcontrol : (shortRef l off).control = ctrlByte l (offHi off) := by
    rcases shortClass_cases l h1 h6 with rfl | rfl | rfl | rfl | rfl | rfl <;> rfl
  rw [hcontrol, ctrlClass_ctrlByte]

/-- The six short forms are `shortRef` at the classes 1 to 6. -/
theorem exists_shortRef_of_mem {i : Instr} {off : Off}
    (hi : i ∈ [Instr.ref3 off, .ref4 off, .ref5 off, .ref6 off, .ref7 off, .ref8 off]) :
    ∃ l : BitVec 3, 1 ≤ l.toNat ∧ l.toNat ≤ 6 ∧ i = shortRef l off := by
  simp only [List.mem_cons, List.not_mem_nil, or_false] at hi
  rcases hi with rfl | rfl | rfl | rfl | rfl | rfl
  · exact ⟨1#3, by decide, by decide, rfl⟩
  · exact ⟨2#3, by decide, by decide, rfl⟩
  · exact ⟨3#3, by decide, by decide, rfl⟩
  · exact ⟨4#3, by decide, by decide, rfl⟩
  · exact ⟨5#3, by decide, by decide, rfl⟩
  · exact ⟨6#3, by decide, by decide, rfl⟩

/-! ### The record of each class -/

theorem produced_lit {literals : List Byte} (hwf : (Instr.lit literals).wellFormed = true) :
    produced (.lit literals) = (ctrlLow (Instr.lit literals).control).toNat + 1
      ∧ 1 ≤ produced (.lit literals) ∧ produced (.lit literals) ≤ 32 := by
  obtain ⟨h1, h32⟩ := (wellFormed_lit literals).mp hwf
  have hlow : (ctrlLow (Instr.lit literals).control).toNat = literals.length - 1 := by
    rw [Instr.control, ctrlLow_ctrlByte, BitVec.toNat_ofNat]
    omega
  refine ⟨?_, h1, h32⟩
  rw [hlow, produced]
  omega

theorem produced_ref {i : Instr} {off : Off}
    (hi : i ∈ [Instr.ref3 off, .ref4 off, .ref5 off, .ref6 off, .ref7 off, .ref8 off]) :
    produced i = (ctrlClass i.control).toNat + 2 ∧ 3 ≤ produced i ∧ produced i ≤ 8 := by
  obtain ⟨l, h1, h6, rfl⟩ := exists_shortRef_of_mem hi
  rw [produced_shortRef off h1 h6, ctrlClass_control_shortRef off h1 h6]
  omega

theorem produced_refx (off : Off) (ext : Byte) :
    produced (.refx off ext) = 7 + ext.toNat + 2 ∧ 9 ≤ produced (.refx off ext)
      ∧ produced (.refx off ext) ≤ 264 := by
  have hlt := ext.isLt
  rw [produced]
  omega

/-! ### The back-reference of a match length -/

/-- Up to length 8 the length field is the class of a short back-reference. -/
theorem backReference_short {length : Nat} (off : Off) (h3 : 3 ≤ length) (h8 : length - 2 < 7) :
    ∃ l : BitVec 3, l.toNat = length - 2 ∧ 1 ≤ l.toNat ∧ l.toNat ≤ 6
      ∧ backReference off length = shortRef l off := by
  have hl : (BitVec.ofNat 3 (length - 2)).toNat = length - 2 := by
    rw [BitVec.toNat_ofNat]
    omega
  exact ⟨BitVec.ofNat 3 (length - 2), hl, by omega, by omega, if_pos (by omega)⟩

/-- From length 9 up the length field is 7 and an extension byte. -/
theorem backReference_long {length : Nat} (off : Off) (h9 : 7 ≤ length - 2) (h264 : length ≤ 264) :
    ∃ ext : Byte, ext.toNat = length - 2 - 7 ∧ backReference off length = .refx off ext := by
  refine ⟨BitVec.ofNat 8 (length - 9), ?_, if_neg (by omega)⟩
  rw [BitVec.toNat_ofNat]
  omega

theorem produced_backReference {length : Nat} (off : Off) (h3 : 3 ≤ length) (h264 : length ≤ 264) :
    produced (backReference off length) = length := by
  by_cases h8 : length - 2 < 7
  · obtain ⟨l, hl, h1, h6, heq⟩ := backReference_short off h3 h8
    rw [heq, produced_shortRef off h1 h6]
    omega
  · obtain ⟨ext, hext, heq⟩ := backReference_long off (by omega) h264
    rw [heq, produced]
    omega

/-- A back-reference is the one its length gives, so the length has no second encoding. -/
theorem eq_backReference_produced {i : Instr} {off : Off}
    (hi : i ∈ [Instr.ref3 off, .ref4 off, .ref5 off, .ref6 off, .ref7 off, .ref8 off]
      ∨ ∃ ext, i = .refx off ext) : i = backReference off (produced i) := by
  rcases hi with hmem | ⟨ext, rfl⟩
  · obtain ⟨l, h1, h6, rfl⟩ := exists_shortRef_of_mem hmem
    rw [produced_shortRef off h1 h6, backReference, if_pos (by omega), Nat.add_sub_cancel,
      BitVec.ofNat_toNat, BitVec.setWidth_eq]
  · rw [produced, backReference, if_neg (by omega), Nat.add_sub_cancel, BitVec.ofNat_toNat,
      BitVec.setWidth_eq]

/-- Settles O5: the lengths of REF end at 8 and those of REFX begin at 9, and within each the length
field gives the record back. -/
theorem matchLengthHasOneEncoding : Obligations.MatchLengthHasOneEncoding := by
  refine ⟨fun _ => produced_lit, fun _ _ => produced_ref, produced_refx, fun off length h3 h264 =>
    ⟨produced_backReference off h3 h264, fun h8 => ?short, fun h9 => ?long, ?unique⟩⟩
  case short =>
    obtain ⟨l, hl, h1, h6, heq⟩ := backReference_short off h3 h8
    rw [heq, ctrlClass_control_shortRef off h1 h6, hl]
  case long =>
    obtain ⟨ext, hext, heq⟩ := backReference_long off h9 h264
    refine ⟨ext, heq, hext, ?_⟩
    rw [heq, Instr.control, ctrlClass_ctrlByte]
  case unique =>
    rintro i hi rfl
    exact eq_backReference_produced hi

end Sys2Proof.Machine
end

section
/-! PROOF. The hash of 40_encoder R74 on mathematical integers, and what every iteration of ENCODE, however
it ends, does with it (R77). -/

namespace Sys2Proof.Machine

open Sys2Proof.Safety

/-! ### The hash -/

theorem fingerprintOf_toNat (b0 b1 b2 : Byte) :
    (fingerprintOf b0 b1 b2).toNat = b0.toNat * 65536 + b1.toNat * 256 + b2.toNat := by
  unfold fingerprintOf
  rw [BitVec.toNat_append, BitVec.toNat_append, ← Nat.shiftLeft_add_eq_or_of_lt b2.isLt,
    ← Nat.shiftLeft_add_eq_or_of_lt b1.isLt, Nat.shiftLeft_eq, Nat.shiftLeft_eq]
  omega

theorem hashSlot_toNat (h : Fingerprint) :
    ((hashSlot h).toNat : Int) = ((h.toNat / 1024 : Nat) - 5 * (h.toNat : Int)) % 16384 := by
  have hnonneg : 0 ≤ ((h.toNat / 1024 : Nat) - 5 * (h.toNat : Int)) % 16384 :=
    Int.emod_nonneg _ (by decide)
  rw [hashSlot, BitVec.toNat_ofInt, Nat.shiftRight_eq_div_pow]
  exact Int.toNat_of_nonneg hnonneg

/-! ### The lookup of an iteration -/

/-- What the lookup of the iteration from `s` leaves in the state `t` after it (R74, R77). -/
structure LookupLeft (s t : State) : Prop where
  slot : t.enc.slot = slotHere s
  ref : t.enc.ref = s.htab.read (slotHere s)
  table : ¬ (ValidMatch s ∧ MatchHasRoom s) → t.htab = tableAfterLookup s
  tableOfMatch : ValidMatch s → MatchHasRoom s → ∃ n, t.htab = tableAfterMatch s n

/-- Every iteration looks up, the failing ones too. -/
theorem iteration_lookupLeft {s : State} (hp : s.phase = .encoding) (hr : EncoderRanges s)
    (h3 : s.enc.inputIndex + 3 ≤ s.nIn) : ∃ t, step s = .next t ∧ LookupLeft s t := by
  cases encode_cases hp hr with
  | literalNoRoom _ hv _ hs => exact ⟨_, hs, rfl, rfl, fun _ => rfl, fun hv' => absurd hv' hv⟩
  | literal _ hv _ _ hs => exact ⟨_, hs, rfl, rfl, fun _ => rfl, fun hv' => absurd hv' hv⟩
  | roll _ hv _ _ hs => exact ⟨_, hs, rfl, rfl, fun _ => rfl, fun hv' => absurd hv' hv⟩
  | matchNoRoom _ _ _ _ hroom hs =>
    exact ⟨_, hs, rfl, rfl, fun _ => rfl, fun _ hroom' => absurd hroom' hroom⟩
  | isMatch n _ _ hv _ hroom _ hs =>
    exact ⟨_, hs, rfl, rfl, fun hno => absurd ⟨hv, hroom⟩ hno, fun _ _ => ⟨n, rfl⟩⟩
  | tailNoRoom h3' _ _ => omega
  | done _ h3' _ _ _ => omega

theorem tableAfterLookup_read (s : State) (slot : Slot) :
    (tableAfterLookup s).read slot
      = if slot = slotHere s then BitVec.ofNat 32 s.enc.inputIndex else s.htab.read slot :=
  HashTable.read_write ..

theorem seeded_read_of_ne (s : State) {q : Nat} (t : HashTable) {slot : Slot}
    (h : slot ≠ hashSlot (fingerprintIn s q)) : (seeded s q t).read slot = t.read slot := by
  rw [seeded, HashTable.read_write, if_neg h]

/-- Away from the two re-seeded slots the table after a match is the table after its lookup. -/
theorem tableAfterMatch_read_of_ne (s : State) (n : Nat) {slot : Slot}
    (h1 : slot ≠ hashSlot (fingerprintIn s (s.enc.inputIndex + 1)))
    (h2 : slot ≠ hashSlot (fingerprintIn s (s.enc.inputIndex + 2))) :
    (tableAfterMatch s n).read slot = (tableAfterLookup s).read slot := by
  unfold tableAfterMatch
  split
  · rfl
  · rw [seeded_read_of_ne s _ h2, seeded_read_of_ne s _ h1]

/-- Settles O6: the fields of the fingerprint do not overlap, the slot is a remainder, and every iteration
leaves the slot of its lookup. -/
theorem hashSlotFormula : Obligations.HashSlotFormula := by
  refine ⟨fun b0 b1 b2 => ⟨fingerprintOf_toNat b0 b1 b2, ?_⟩, fun s hinv hp h3 => ?_⟩
  · rw [hashSlot_toNat, fingerprintOf_toNat]
  · obtain ⟨t, hst, hlook⟩ := iteration_lookupLeft hp (hinv.encoderRanges hp) h3
    exact ⟨t, hst, hlook.slot⟩

/-- Settles O22: every iteration leaves the table of its lookup, and only a match step with room writes
further slots, the two it re-seeds. -/
theorem everyIterationLooksUp : Obligations.EveryIterationLooksUp := by
  intro s hinv hp h3
  obtain ⟨t, hst, hslot, href, htable, hmatch⟩ := iteration_lookupLeft hp (hinv.encoderRanges hp) h3
  refine ⟨t, hst, hslot, href, fun hno => ?_, fun hv hroom slot h1 h2 => ?_⟩
  · rw [htable hno]
    refine ⟨?_, fun slot hne => ?_⟩
    · rw [tableAfterLookup_read, if_pos rfl]
    · rw [tableAfterLookup_read, if_neg hne]
  · obtain ⟨n, hn⟩ := hmatch hv hroom
    rw [hn, tableAfterMatch_read_of_ne s n h1 h2, tableAfterLookup_read]

end Sys2Proof.Machine
end

section
/-! PROOF. What the iterations and the tail of ENCODE write: a literal (40_encoder R79, R80), the bytes of a
back-reference (R81, R84), and the space test of the tail (R88). -/

namespace Sys2Proof.Machine

open Sys2Proof.Safety

/-! ### The literal step -/

theorem step_iteration {s : State} (hp : s.phase = .encoding) (h3 : s.enc.inputIndex + 3 ≤ s.nIn) :
    step s = (iteration s).outcome := by
  rw [step_encoding hp, encodeStep, if_pos h3]

/-- Settles O23: without a valid match the iteration is the literal step on the state its lookup left. -/
theorem literalStepEffect : Obligations.LiteralStepEffect := by
  intro s hp h3 hv
  refine ⟨fun hfull => ?full, fun hroom hlit => ?inside, fun hroom hlit hslot => ?roll⟩
  case full =>
    refine ⟨judged s false, ?_, rfl⟩
    rw [step_iteration hp h3, iteration_literal_full h3 hv hfull, outcome_raise]
  case inside =>
    refine ⟨afterLiteral s, ?_, rfl, rfl, rfl, rfl, rfl, rfl, Memory.read_write_self .., fun a ha => ?_⟩
    · rw [step_iteration hp h3, iteration_literal h3 hv hroom (by omega), outcome_ok]
    · exact Memory.read_write_of_ne _ (by omega) _
  case roll =>
    refine ⟨afterRoll s, ?_, rfl, rfl, rfl, rfl, rfl, rfl, Memory.read_write_self .., ?_,
      fun a hslot' hcur => ?_⟩
    · rw [step_iteration hp h3, iteration_roll h3 hv hroom hlit hslot, outcome_ok]
    · calc (afterRoll s).output.read s.enc.outputIndex
          = (s.output.write s.enc.outputIndex (s.input.read s.enc.inputIndex)).read s.enc.outputIndex :=
            Memory.read_write_of_ne _ (by omega) _
        _ = s.input.read s.enc.inputIndex := Memory.read_write_self ..
    · exact (Memory.read_write_of_ne _ hslot' _).trans (Memory.read_write_of_ne _ hcur _)

/-! ### The bytes of a back-reference -/

/-- The control byte of R84 loses no bit. -/
theorem refControl_toNat (off : Off) {l : Nat} (hl : l < 8) :
    (refControl off l).toNat = off.toNat >>> 8 ||| l <<< 5 := by
  have hoff := off.isLt
  have hhi : off.toNat >>> 8 < 2 ^ 8 := by
    rw [Nat.shiftRight_eq_div_pow]
    omega
  have hlen : l <<< 5 < 2 ^ 8 := by
    rw [Nat.shiftLeft_eq]
    omega
  rw [refControl, BitVec.toNat_ofNat, Nat.mod_eq_of_lt (Nat.or_lt_two_pow hhi hlen)]

theorem offLo_toNat_and (off : Off) : (offLo off).toNat = off.toNat &&& 0xFF := by
  rw [offLo_toNat]
  exact (Nat.and_two_pow_sub_one_eq_mod off.toNat 8).symm

theorem encodeRecord_backReference_short {n : Nat} (off : Off) (h3 : 3 ≤ n) (h8 : n - 2 < 7) :
    encodeRecord (backReference off n) = [refControl off (n - 2), offLo off] := by
  obtain ⟨l, hl, h1, h6, heq⟩ := backReference_short off h3 h8
  have hrec : encodeRecord (shortRef l off) = [ctrlByte l (offHi off), offLo off] := by
    rcases shortClass_cases l h1 h6 with rfl | rfl | rfl | rfl | rfl | rfl <;> rfl
  rw [heq, hrec, refControl_eq _ _ (by omega), ← hl, BitVec.ofNat_toNat, BitVec.setWidth_eq]

theorem encodeRecord_backReference_long {n : Nat} (off : Off) (h9 : 7 ≤ n - 2) :
    encodeRecord (backReference off n) = [refControl off 7, BitVec.ofNat 8 (n - 9), offLo off] := by
  rw [backReference, if_neg (by omega), refControl_eq _ _ (by decide)]
  rfl

/-- `off` of a valid candidate fits its 13 bits (R78). -/
theorem validMatch_off_toNat {s : State} (hv : ValidMatch s) :
    (BitVec.ofNat 13 (s.enc.inputIndex - candidate s - 1)).toNat = s.enc.inputIndex - candidate s - 1 := by
  obtain ⟨-, -, hoff, -⟩ := hv
  rw [BitVec.toNat_ofNat, Nat.mod_eq_of_lt hoff]

/-- The two bytes in OUT of a match of length 3 to 8. -/
theorem MatchOutput.read_short {s : State} {n : Nat} {m : Memory} (hm : MatchOutput s n m)
    (hv : ValidMatch s) (h3 : 3 ≤ n) (h8 : n - 2 < 7) :
    (m.read (recordStart s)).toNat = (s.enc.inputIndex - candidate s - 1) >>> 8 ||| (n - 2) <<< 5
      ∧ (m.read (recordStart s + 1)).toNat = (s.enc.inputIndex - candidate s - 1) &&& 0xFF := by
  have hrec := hm.record
  rw [matchRecord, encodeRecord_backReference_short _ h3 h8] at hrec
  obtain ⟨h0, h1⟩ : m.read (recordStart s) = _ ∧ m.read (recordStart s + 1) = _ := by
    simpa [Memory.slice_cons] using hrec
  rw [h0, h1, refControl_toNat _ (by omega), offLo_toNat_and, validMatch_off_toNat hv]
  exact ⟨rfl, rfl⟩

/-- The three bytes in OUT of a match of length 9 to 264. -/
theorem MatchOutput.read_long {s : State} {n : Nat} {m : Memory} (hm : MatchOutput s n m)
    (hv : ValidMatch s) (h9 : 7 ≤ n - 2) (h264 : n ≤ 264) :
    (m.read (recordStart s)).toNat = (s.enc.inputIndex - candidate s - 1) >>> 8 ||| 7 <<< 5
      ∧ (m.read (recordStart s + 1)).toNat = n - 2 - 7
      ∧ (m.read (recordStart s + 2)).toNat = (s.enc.inputIndex - candidate s - 1) &&& 0xFF := by
  have hrec := hm.record
  rw [matchRecord, encodeRecord_backReference_long _ h9] at hrec
  obtain ⟨h0, h1, h2⟩ : m.read (recordStart s) = _ ∧ m.read (recordStart s + 1) = _
      ∧ m.read (recordStart s + 2) = _ := by
    simpa [Memory.slice_cons] using hrec
  rw [h0, h1, h2, refControl_toNat _ (by decide), offLo_toNat_and, validMatch_off_toNat hv,
    BitVec.toNat_ofNat]
  exact ⟨rfl, by omega, rfl⟩

/-- Settles O25: a match step with room leaves `afterMatch`, whose record is two bytes up to length 8 and
three from length 9. -/
theorem matchRecordBytes : Obligations.MatchRecordBytes := by
  intro s hinv hp h3 hv hroom
  obtain ⟨-, -, -, -, -, hslot, -, -⟩ := hinv.encoderRanges hp
  obtain ⟨n, hn, -⟩ := matchLength_eq h3 hv
  obtain ⟨m, hiter, hm⟩ := iteration_match h3 hv hn hslot hroom
  have hn3 : 3 ≤ n := hn.1
  have hn264 : n ≤ 264 := hn.2.1.trans (Nat.min_le_right ..)
  have hout : (afterMatch s n m).enc.outputIndex = recordStart s + (if n < 9 then 2 else 3) + 1 := by
    rw [← matchRecord_length]
    rfl
  refine ⟨n, afterMatch s n m, ?_, hn, rfl, rfl, rfl, fun h8 => ?short, fun h9 => ?long⟩
  · rw [step_iteration hp h3, hiter, outcome_ok]
  case short =>
    obtain ⟨h0, h1⟩ := hm.read_short hv hn3 h8
    rw [if_pos (by omega)] at hout
    exact ⟨h0, h1, hout⟩
  case long =>
    obtain ⟨h0, h1, h2⟩ := hm.read_long hv h9 hn264
    rw [if_neg (by omega)] at hout
    exact ⟨h0, h1, h2, hout⟩

/-! ### The tail -/

/-- Settles O27: of what a step of ENCODE can do, only the two ends of the tail are left, and the space
test tells them apart. -/
theorem tailPreCheck : Obligations.TailPreCheck := by
  intro s hinv hp h3
  cases encode_cases hp (hinv.encoderRanges hp) with
  | tailNoRoom _ hroom hs => exact ⟨_, hs, rfl, fun _ => rfl, fun h => absurd h (by omega)⟩
  | done _ _ hroom _ hs => exact ⟨_, hs, rfl, fun h => absurd h (by omega), fun _ => rfl⟩
  | literalNoRoom h3' | matchNoRoom _ h3' | literal h3' | roll h3' | isMatch _ _ h3' => omega

end Sys2Proof.Machine
end

section
/-! PROOF. One record of DECODE at the record pointer (41_decoder R104 to R107): the errors in the order of
their tests, then the copy. The end of the frame (R109) and that HTAB is left alone (R111). -/

namespace Sys2Proof.Machine

open Sys2Proof.Safety

/-! ### LIT -/

/-- Settles O13: the three outcomes of a LIT are those of its two tests in order. -/
theorem literalRecordAtPointer : Obligations.LiteralRecordAtPointer := by
  intro s hp hlt c count begun hc
  obtain ⟨hnoRoom, hnoInput, hcopy⟩ := step_lit hp hlt hc
  refine ⟨hnoRoom, hnoInput, fun hroom hinput => ?_⟩
  obtain ⟨m, hst, hbytes, hothers, -⟩ := hcopy hroom hinput
  exact ⟨_, hst, rfl, rfl, hbytes, hothers⟩

/-! ### Back-references -/

theorem refBegun_eq (ctrl : Byte) (s : State) :
    refBegun ctrl s = s.withDec { s.dec with
      ctrl := ctrl
      length := ctrl.toNat / 32
      ref := (s.dec.outputIndex : Int) - (ctrl.toNat % 32 * 256 : Nat) - 1
      inputIndex := s.dec.inputIndex + 1 } :=
  congrArg s.withDec (refBegun_dec ctrl s)

theorem shortTaken_eq (ctrl lo : Byte) (s : State) :
    shortTaken ctrl lo s = s.withDec { s.dec with
      ctrl := ctrl
      length := ctrl.toNat / 32
      offLo := lo
      ref := (s.dec.outputIndex : Int) - (distanceOf ctrl lo : Nat)
      inputIndex := s.dec.inputIndex + 2
      total := ctrl.toNat / 32 + 2 } :=
  congrArg s.withDec (shortTaken_dec ctrl lo s)

/-- What a completed back-reference leaves, `u` being the state when its operands are taken. -/
theorem afterRef_effect {s u : State} {dist total : Nat} {m : Memory} (hm : Copied s dist total m)
    (hpos : 0 < dist) (hle : dist ≤ s.dec.outputIndex) (hu : u = s.withDec u.dec)
    (ho : u.dec.outputIndex = s.dec.outputIndex) (ht : u.dec.total = total) :
    RecordFrame s (afterRef u m)
      ∧ (afterRef u m).dec = { u.dec with outputIndex := s.dec.outputIndex + total }
      ∧ (∀ k, k < total → (afterRef u m).output.read (s.dec.outputIndex + k)
          = s.output.read (s.dec.outputIndex - dist + k % dist))
      ∧ (∀ k, k < total → (afterRef u m).output.read (s.dec.outputIndex + k)
          = (afterRef u m).output.read (s.dec.outputIndex - dist + k))
      ∧ OutputSameOutside s (afterRef u m) s.dec.outputIndex (s.dec.outputIndex + total) := by
  refine ⟨?_, ?_, hm.bytes, hm.self hpos hle, hm.others⟩
  · rw [hu]
    rfl
  · rw [← ho, ← ht]
    rfl

/-- Settles O14: a short back-reference fails by its three tests in order, else its match is copied. -/
theorem shortReferenceAtPointer : Obligations.ShortReferenceAtPointer := by
  intro s hp hlt c lo dist total begun whole hc hc'
  obtain ⟨hnoOffset, hrun⟩ := step_short hp hlt hc hc'
  obtain ⟨-, hnoRoom, hnoSource, hcopy⟩ := runShortRef_spec c lo s
  have hbegun : refBegun c s = begun := refBegun_eq c s
  have hwhole : shortTaken c lo s = whole := shortTaken_eq c lo s
  rw [hbegun] at hnoOffset
  rw [hwhole] at hnoRoom hnoSource hcopy
  refine ⟨fun hi => hnoOffset (by omega), fun hi hroom => ?room, fun hi hroom hsrc => ?source,
    fun hi hroom hsrc => ?copy⟩
  case room => rw [hrun hi, hnoRoom hi hroom, outcome_raise]
  case source => rw [hrun hi, hnoSource hi hroom hsrc, outcome_raise]
  case copy =>
    obtain ⟨m, hm, hdone⟩ := hcopy hi hroom hsrc
    refine ⟨_, ?_, afterRef_effect hm (distanceOf_pos c lo) hsrc rfl rfl rfl⟩
    rw [hrun hi, hdone, outcome_ok]

/-- A control byte of REFX has the class 7. -/
theorem class_of_refx {ctrl : Byte} (hc : 224 ≤ ctrl.toNat) : ctrl.toNat / 32 = 7 := by
  have := ctrl.isLt
  omega

theorem longTaken_eq {ctrl : Byte} (hc : 224 ≤ ctrl.toNat) (ext lo : Byte) (s : State) :
    longTaken ctrl ext lo s = s.withDec { s.dec with
      ctrl := ctrl
      ext := ext
      length := 7 + ext.toNat
      offLo := lo
      ref := (s.dec.outputIndex : Int) - (distanceOf ctrl lo : Nat)
      inputIndex := s.dec.inputIndex + 3
      total := ext.toNat + 9 } := by
  have hdec := longTaken_dec ctrl ext lo s
  rw [class_of_refx hc, show 7 + ext.toNat + 2 = ext.toNat + 9 by omega] at hdec
  exact congrArg s.withDec hdec

/-- Settles O15: a long back-reference fails by its four tests in order, else its match is copied. -/
theorem longReferenceAtPointer : Obligations.LongReferenceAtPointer := by
  intro s hp hlt c ext lo dist total begun extended whole hc
  obtain ⟨hnoExt, hnoOffset, hrun⟩ := step_long hp hlt hc
  obtain ⟨hnoRoom, hnoSource, hcopy⟩ := copyMatch_long c ext lo s
  have hbegun : refBegun c s = begun := by
    rw [refBegun_eq, class_of_refx hc]
  have hwhole : longTaken c ext lo s = whole := longTaken_eq hc ext lo s
  have htotal : c.toNat / 32 + ext.toNat + 2 = total := by
    rw [class_of_refx hc]
    omega
  rw [hbegun] at hnoExt hnoOffset
  rw [hwhole, htotal] at hnoRoom hnoSource hcopy
  rw [hwhole] at hrun
  refine ⟨fun hi => hnoExt (by omega), fun hi => hnoOffset hi.symm, fun hi hroom => ?room,
    fun hi hroom hsrc => ?source, fun hi hroom hsrc => ?copy⟩
  case room => rw [hrun hi, hnoRoom hroom, outcome_raise]
  case source => rw [hrun hi, hnoSource hroom hsrc, outcome_raise]
  case copy =>
    obtain ⟨m, hm, hdone⟩ := hcopy hroom hsrc
    refine ⟨_, ?_, afterRef_effect hm (distanceOf_pos c lo) hsrc rfl rfl rfl⟩
    rw [hrun hi, hdone, outcome_ok]

/-! ### The end of the frame -/

/-- The response at the end of the frame: `output_index` fits the 32 bits of `written`. -/
theorem endOfFrame_written {s : State} (hr : DecoderRanges s) :
    (endOfFrame s).response.written.toNat = s.dec.outputIndex := by
  have hle : s.dec.outputIndex ≤ s.nOut := hr.2
  have hlt := s.nOut_lt
  rw [endOfFrame, returnOk_eq, endCommand_response, BitVec.toNat_ofNat, Nat.mod_eq_of_lt (by omega)]

/-- Settles O16: the step is the end of the frame, which forgets OUT from `output_index` up only. -/
theorem frameEndReturnsOutputIndex : Obligations.FrameEndReturnsOutputIndex := by
  intro s hinv hp hend
  refine ⟨endOfFrame s, step_frameEnd hp hend.ge, rfl, rfl, rfl,
    endOfFrame_written (hinv.decoderRanges hp), fun a ha => ?_⟩
  rcases ha with hbelow | hbeyond
  · exact Memory.read_forget_of_lt _ hbelow
  · exact Memory.read_forget_of_ge _ hbeyond

/-! ### HTAB -/

/-- Acceptance and start of DECODE. -/
theorem execDecode_htab {nIn nOut : Word32} {c : BitVec 1} {s t : State}
    (hst : exec (.decode nIn nOut c) s = .next t) : t.htab = s.htab := by
  have next {u : State} (hs : exec (.decode nIn nOut c) s = .next u) (hu : u.htab = s.htab) :
      t.htab = s.htab := next_unique hst hs ▸ hu
  by_cases hp : s.phase = .idle
  · cases command_cases ⟨1#1, nIn, nOut, c⟩ hp with
    | refused f hs => exact nomatch hst.symm.trans hs
    | decodeEmpty _ _ _ _ hs => exact next hs rfl
    | decodeStarts _ _ _ _ hs => exact next hs rfl
    | encodeEmpty hop => nomatch hop
    | encodeNoOut hop => nomatch hop
    | encodeStarts hop => nomatch hop
  · exact next (if_pos hp) rfl

/-- A record, the end of the frame and every error of DECODE. -/
theorem decode_step_htab {s t : State} (hp : s.phase = .decoding) (hst : step s = .next t) :
    t.htab = s.htab := by
  have next {u : State} (hs : step s = .next u) (hu : u.htab = s.htab) : t.htab = s.htab :=
    next_unique hst hs ▸ hu
  cases decode_cases hp with
  | litNoRoom _ _ _ hs | litTruncated _ _ _ _ hs | lit _ _ _ _ _ _ _ _ _ hs
  | refTruncated _ _ hs | extTruncated _ _ hs
  | shortFails _ _ _ _ _ hs | short _ _ _ _ _ _ _ hs
  | longFails _ _ _ _ hs | long _ _ _ _ _ _ hs
  | frameEnd _ hs => exact next hs rfl

/-- Settles O38: neither the start of DECODE nor any of its steps writes HTAB. -/
theorem decodeLeavesHashTable : Obligations.DecodeLeavesHashTable :=
  ⟨fun _ _ _ _ _ => execDecode_htab, fun _ _ => decode_step_htab⟩

end Sys2Proof.Machine
end

section
/-! PROOF. Every cause of an error (60_exceptions R131 to R133): each case of a step, in every phase, ends
with the error whose cause holds, or with none where no cause holds. -/

namespace Sys2Proof.Safety

open Sys2Proof.Machine

/-! ### The causes in each phase -/

/-- A corrupt frame (R132), `c`, `b1` and `b2` being the bytes at the record pointer. -/
theorem dataCorruptionCause_decoding {s : State} {c b1 b2 : Nat} (hp : s.phase = .decoding)
    (hc : (s.input.read s.dec.inputIndex).toNat = c)
    (h1 : (s.input.read (s.dec.inputIndex + 1)).toNat = b1)
    (h2 : (s.input.read (s.dec.inputIndex + 2)).toNat = b2) :
    DataCorruptionCause s ↔
      (s.dec.inputIndex < s.nIn ∧ c < 32 ∧ s.dec.outputIndex + (c + 1) ≤ s.nOut
          ∧ s.nIn < s.dec.inputIndex + 1 + (c + 1))
        ∨ (32 ≤ c ∧ s.nIn = s.dec.inputIndex + 1)
        ∨ (224 ≤ c ∧ s.nIn = s.dec.inputIndex + 2)
        ∨ (32 ≤ c ∧ c < 224 ∧ s.dec.inputIndex + 2 ≤ s.nIn ∧ s.dec.outputIndex + (c / 32 + 2) ≤ s.nOut
          ∧ s.dec.outputIndex < c % 32 * 256 + b1 + 1)
        ∨ (224 ≤ c ∧ s.dec.inputIndex + 3 ≤ s.nIn ∧ s.dec.outputIndex + (b1 + 9) ≤ s.nOut
          ∧ s.dec.outputIndex < c % 32 * 256 + b2 + 1) := by
  subst hc h1 h2
  exact and_iff_right hp

/-- No room for the record at the record pointer (R131 d1, d2). -/
theorem insufficientBufferCause_decoding {s : State} {c b1 : Nat} (hp : s.phase = .decoding)
    (hc : (s.input.read s.dec.inputIndex).toNat = c)
    (h1 : (s.input.read (s.dec.inputIndex + 1)).toNat = b1) :
    InsufficientBufferCause s ↔
      (s.dec.inputIndex < s.nIn ∧ c < 32 ∧ s.nOut < s.dec.outputIndex + (c + 1))
        ∨ (32 ≤ c ∧ c < 224 ∧ s.dec.inputIndex + 2 ≤ s.nIn ∧ s.nOut < s.dec.outputIndex + (c / 32 + 2))
        ∨ (224 ≤ c ∧ s.dec.inputIndex + 3 ≤ s.nIn ∧ s.nOut < s.dec.outputIndex + (b1 + 9)) := by
  subst hc h1
  simp [InsufficientBufferCause, hp]

theorem insufficientBufferCause_encoding {s : State} (hp : s.phase = .encoding) :
    InsufficientBufferCause s ↔
      (s.enc.inputIndex + 3 ≤ s.nIn ∧ ¬ ValidMatch s ∧ s.nOut ≤ s.enc.outputIndex)
        ∨ (s.enc.inputIndex + 3 ≤ s.nIn ∧ ValidMatch s ∧ ¬ MatchHasRoom s)
        ∨ (s.nIn < s.enc.inputIndex + 3 ∧ s.nOut < s.enc.outputIndex + 3) := by
  simp only [InsufficientBufferCause, hp, reduceCtorEq, false_and, true_and, false_or, or_false]

/-- No room for a literal (R131 e2). -/
theorem insufficientBufferCause_literal {s : State} (hp : s.phase = .encoding)
    (h3 : s.enc.inputIndex + 3 ≤ s.nIn) (hv : ¬ ValidMatch s) :
    InsufficientBufferCause s ↔ s.nOut ≤ s.enc.outputIndex := by
  rw [insufficientBufferCause_encoding hp]
  have := Nat.not_lt.mpr h3
  tauto

/-- No room for a match (R131 e3). -/
theorem insufficientBufferCause_match {s : State} (hp : s.phase = .encoding)
    (h3 : s.enc.inputIndex + 3 ≤ s.nIn) (hv : ValidMatch s) :
    InsufficientBufferCause s ↔ ¬ MatchHasRoom s := by
  rw [insufficientBufferCause_encoding hp]
  have := Nat.not_lt.mpr h3
  tauto

/-- No room for the tail (R131 e4). -/
theorem insufficientBufferCause_tail {s : State} (hp : s.phase = .encoding)
    (h3 : s.nIn < s.enc.inputIndex + 3) :
    InsufficientBufferCause s ↔ s.nOut < s.enc.outputIndex + 3 := by
  rw [insufficientBufferCause_encoding hp]
  have := Nat.not_le.mpr h3
  tauto

/-- ENCODE into an empty output (R131 e1). -/
theorem insufficientBufferCause_command {s : State} {r : CommandRecord} (hp : s.phase = .idle)
    (hr : s.presented = some r) :
    InsufficientBufferCause s ↔ r.op = 0#1 ∧ r.nIn ≠ 0#32 ∧ r.nOut = 0#32 := by
  simp [InsufficientBufferCause, hp, hr]

theorem DataCorruptionCause.decoding {s : State} (h : DataCorruptionCause s) : s.phase = .decoding := h.1

/-- An idle block without a command meets no cause. -/
theorem InsufficientBufferCause.not_waiting {s : State} (h : InsufficientBufferCause s) :
    ¬ (s.phase = .idle ∧ s.presented = none) := by
  rintro ⟨hp, hr⟩
  simp [InsufficientBufferCause, hp, hr] at h

/-! ### What one step says of the causes -/

/-- The step from `s` to `t` ends with an error exactly if the cause of that error holds: `corrupt` of
DataCorruption, `noRoom` of InsufficientBuffer. -/
inductive StepVerdict (s t : State) (corrupt noRoom : Prop) : Prop where
  /-- No error, and no cause of one. -/
  | noError (ht : ∀ e, Ends s t e → e = .ok) (hc : ¬ corrupt) (hb : ¬ noRoom)
  /-- The frame is corrupt. -/
  | corrupt (u : State) (ht : t = errorEntry .dataCorruption u) (hc : corrupt) (hb : ¬ noRoom)
  /-- OUT has no room. -/
  | noRoom (u : State) (ht : t = errorEntry .insufficientBuffer u) (hc : ¬ corrupt) (hb : noRoom)

/-- An error entry ends the command with its own status and no other. -/
theorem ends_errorEntry_iff {s u : State} {e e' : Status}
    (hs : ¬ (s.phase = .idle ∧ s.presented = none)) : Ends s (errorEntry e u) e' ↔ e = e' :=
  ⟨fun h => h.2.2, fun h => ⟨hs, rfl, h⟩⟩

theorem StepVerdict.errors_iff {s t : State}
    (h : StepVerdict s t (DataCorruptionCause s) (InsufficientBufferCause s)) :
    (Ends s t .dataCorruption ↔ DataCorruptionCause s)
      ∧ (Ends s t .insufficientBuffer ↔ InsufficientBufferCause s) ∧ ¬ Ends s t .unknown := by
  cases h with
  | noError ht hc hb =>
    exact ⟨iff_of_false (fun h => nomatch ht _ h) hc, iff_of_false (fun h => nomatch ht _ h) hb,
      fun h => nomatch ht _ h⟩
  | corrupt u ht hc hb =>
    subst ht
    have hs : ¬ (s.phase = .idle ∧ s.presented = none) := fun h => nomatch hc.decoding.symm.trans h.1
    simp [ends_errorEntry_iff hs, hc, hb]
  | noRoom u ht hc hb =>
    subst ht
    simp [ends_errorEntry_iff hb.not_waiting, hc, hb]

/-- A step that leaves the command running is no error. -/
theorem ends_ok_of_running {s t : State} (ht : t.phase ≠ .idle) (e : Status) (h : Ends s t e) : e = .ok :=
  absurd h.2.1 ht

/-- A step that returns a result is no error. -/
theorem ends_ok_of_returnOk {s u : State} {v : Nat} (e : Status) (h : Ends s (returnOk v u) e) : e = .ok :=
  h.2.2.symm

/-! ### Each phase -/

theorem decode_verdict {s t : State} (hp : s.phase = .decoding) (hst : step s = .next t) :
    StepVerdict s t (DataCorruptionCause s) (InsufficientBufferCause s) := by
  have next {u : State} (hs : step s = .next u) : t = u := next_unique hst hs
  have running {u : State} (hs : step s = .next u) (hu : u.phase = s.phase) (e : Status) :
      Ends s t e → e = .ok :=
    ends_ok_of_running (by rw [next hs, hu, hp]; decide) e
  rw [dataCorruptionCause_decoding hp rfl rfl rfl, insufficientBufferCause_decoding hp rfl rfl]
  cases decode_cases hp with
  | litNoRoom h hc ho hs => exact .noRoom _ (next hs) (by omega) (by omega)
  | litTruncated h hc ho hi hs => exact .corrupt _ (next hs) (by omega) (by omega)
  | lit m hc ho hi _ _ _ _ _ hs => exact .noError (running hs rfl) (by omega) (by omega)
  | refTruncated hc hi hs => exact .corrupt _ (next hs) (by omega) (by omega)
  | extTruncated hc hi hs => exact .corrupt _ (next hs) (by omega) (by omega)
  | shortFails hc hc' hi e he hs =>
    unfold distanceOf at he
    rcases he with ⟨rfl, ho⟩ | ⟨rfl, hd, ho⟩
    · exact .noRoom _ (next hs) (by omega) (by omega)
    · exact .corrupt _ (next hs) (by omega) (by omega)
  | short m hc hc' hi ho hd _ hs =>
    unfold distanceOf at hd
    exact .noError (running hs rfl) (by omega) (by omega)
  | longFails hc hi e he hs =>
    unfold distanceOf at he
    rcases he with ⟨rfl, ho⟩ | ⟨rfl, hd, ho⟩
    · exact .noRoom _ (next hs) (by omega) (by omega)
    · exact .corrupt _ (next hs) (by omega) (by omega)
  | long m hc hi ho hd _ hs =>
    unfold distanceOf at hd
    exact .noError (running hs rfl) (by omega) (by omega)
  | frameEnd h hs =>
    obtain rfl := next hs
    exact .noError ends_ok_of_returnOk (by omega) (by omega)

theorem encode_verdict {s t : State} (hp : s.phase = .encoding) (hr : EncoderRanges s)
    (hst : step s = .next t) : StepVerdict s t (DataCorruptionCause s) (InsufficientBufferCause s) := by
  have next {u : State} (hs : step s = .next u) : t = u := next_unique hst hs
  have running {u : State} (hs : step s = .next u) (hu : u.phase = s.phase) (e : Status) :
      Ends s t e → e = .ok :=
    ends_ok_of_running (by rw [next hs, hu, hp]; decide) e
  have hc : ¬ DataCorruptionCause s := fun h => nomatch hp.symm.trans h.decoding
  cases encode_cases hp hr with
  | literalNoRoom h3 hv ho hs =>
    exact .noRoom _ (next hs) hc ((insufficientBufferCause_literal hp h3 hv).mpr ho)
  | literal h3 hv ho _ hs | roll h3 hv ho _ hs =>
    exact .noError (running hs rfl) hc
      ((insufficientBufferCause_literal hp h3 hv).not.mpr (Nat.not_le.mpr ho))
  | matchNoRoom _ h3 hv _ hroom hs =>
    exact .noRoom _ (next hs) hc ((insufficientBufferCause_match hp h3 hv).mpr hroom)
  | isMatch n m h3 hv _ hroom _ hs =>
    exact .noError (running hs rfl) hc
      ((insufficientBufferCause_match hp h3 hv).not.mpr (not_not_intro hroom))
  | tailNoRoom h3 hroom hs =>
    exact .noRoom _ (next hs) hc ((insufficientBufferCause_tail hp h3).mpr hroom)
  | done m h3 hroom _ hs =>
    obtain rfl := next hs
    exact .noError ends_ok_of_returnOk hc
      ((insufficientBufferCause_tail hp h3).not.mpr (Nat.not_lt.mpr hroom))

theorem command_verdict {s t : State} {r : CommandRecord} (hp : s.phase = .idle)
    (hpres : s.presented = some r) (hst : step s = .next t) :
    StepVerdict s t (DataCorruptionCause s) (InsufficientBufferCause s) := by
  rw [step_idle_run hp hpres] at hst
  have next {u : State} (hs : exec (decodeCommand r) s = .next u) : t = u := next_unique hst hs
  have hc : ¬ DataCorruptionCause s := fun h => nomatch hp.symm.trans h.decoding
  have hroom := insufficientBufferCause_command hp hpres
  have zero_iff (w : Word32) : w.toNat = 0 ↔ w = 0#32 := by bv_omega
  cases command_cases r hp with
  | refused f hs => exact nomatch hst.symm.trans hs
  | encodeNoOut hop _ _ h0 h1 hs =>
    exact .noRoom _ (next hs) hc (hroom.mpr ⟨hop, h0 ∘ (zero_iff _).mpr, (zero_iff _).mp h1⟩)
  | encodeEmpty _ _ _ h0 hs =>
    obtain rfl := next hs
    exact .noError ends_ok_of_returnOk hc fun h => (hroom.mp h).2.1 ((zero_iff _).mp h0)
  | encodeStarts _ _ _ _ h1 hs =>
    obtain rfl := next hs
    exact .noError (ends_ok_of_running nofun) hc fun h => h1 ((zero_iff _).mpr (hroom.mp h).2.2)
  | decodeEmpty hop _ _ _ hs =>
    obtain rfl := next hs
    exact .noError ends_ok_of_returnOk hc fun h => nomatch hop.symm.trans (hroom.mp h).1
  | decodeStarts hop _ _ _ hs =>
    obtain rfl := next hs
    exact .noError (ends_ok_of_running nofun) hc fun h => nomatch hop.symm.trans (hroom.mp h).1

theorem step_verdict {s t : State} (hinv : MachineInv s) (hst : step s = .next t) :
    StepVerdict s t (DataCorruptionCause s) (InsufficientBufferCause s) := by
  cases hp : s.phase with
  | decoding => exact decode_verdict hp hst
  | encoding => exact encode_verdict hp (hinv.encoderRanges hp) hst
  | idle =>
    cases hpres : s.presented with
    | some r => exact command_verdict hp hpres hst
    | none =>
      exact .noError (fun e h => absurd ⟨hp, hpres⟩ h.1) (fun h => nomatch hp.symm.trans h.decoding)
        fun h => h.not_waiting ⟨hp, hpres⟩

/-- Settles O31: the verdict of the step in each phase. -/
theorem everyCauseOfError : Obligations.EveryCauseOfError :=
  fun _ _ hinv hst => (step_verdict hinv hst).errors_iff

end Sys2Proof.Safety
end

section
/-! PROOF. Records and commands and their words: the decoder and the encoder undo each other (30_encoding
sections 2 to 4). -/

namespace Sys2Proof

open Sys2Proof.Machine Sys2Proof.Safety

/-! ### The three forms of a record -/

/-- A well-formed record is a LIT of 1 to 32 literals, a short back-reference by its class, or a long one. -/
inductive RecordForm : Instr → Prop where
  | lit (ls : List Byte) (h1 : 1 ≤ ls.length) (h32 : ls.length ≤ 32) : RecordForm (.lit ls)
  | short (l : BitVec 3) (off : Off) (h1 : 1 ≤ l.toNat) (h6 : l.toNat ≤ 6) : RecordForm (shortRef l off)
  | long (off : Off) (ext : Byte) : RecordForm (.refx off ext)

theorem recordForm {i : Instr} (hi : i.isRecord = true) (hw : i.wellFormed = true) : RecordForm i := by
  cases i with
  | lit ls =>
    obtain ⟨h1, h32⟩ := (wellFormed_lit ls).mp hw
    exact .lit ls h1 h32
  | ref3 off => exact .short 1#3 off (by decide) (by decide)
  | ref4 off => exact .short 2#3 off (by decide) (by decide)
  | ref5 off => exact .short 3#3 off (by decide) (by decide)
  | ref6 off => exact .short 4#3 off (by decide) (by decide)
  | ref7 off => exact .short 5#3 off (by decide) (by decide)
  | ref8 off => exact .short 6#3 off (by decide) (by decide)
  | refx off ext => exact .long off ext
  | encode _ _ _ | decode _ _ _ => nomatch hi

/-- The words of a short back-reference. -/
theorem encodeRecord_shortRef_class {l : BitVec 3} (off : Off) (h1 : 1 ≤ l.toNat) (h6 : l.toNat ≤ 6) :
    encodeRecord (shortRef l off) = [ctrlByte l (offHi off), offLo off] := by
  rcases shortClass_cases l h1 h6 with rfl | rfl | rfl | rfl | rfl | rfl <;> rfl

theorem litCount_control {ls : List Byte} (h1 : 1 ≤ ls.length) (h32 : ls.length ≤ 32) :
    litCount (Instr.lit ls).control = ls.length := by
  rw [litCount, Instr.control, ctrlLow_ctrlByte, BitVec.toNat_ofNat]
  omega

/-! ### Decoding what was encoded -/

theorem decodeRecord_encodeRecord {i : Instr} (hi : i.isRecord = true) (hw : i.wellFormed = true)
    (rest : List Byte) : decodeRecord (encodeRecord i ++ rest) = .ok (i, rest) := by
  cases recordForm hi hw with
  | lit ls h1 h32 =>
    have hclass : ctrlClass (Instr.lit ls).control = 0#3 := ctrlClass_ctrlByte ..
    rw [encodeRecord, List.cons_append, decodeRecord_cons, if_pos hclass, litCount_control h1 h32,
      if_neg (by simp), List.take_left, List.drop_left]
  | short l off h1 h6 =>
    have h0 : l ≠ 0#3 := by rintro rfl; exact absurd h1 (by decide)
    have h7 : l ≠ 7#3 := by rintro rfl; exact absurd h6 (by decide)
    rw [encodeRecord_shortRef_class off h1 h6, List.cons_append, decodeRecord_cons, ctrlClass_ctrlByte,
      if_neg h0, if_neg h7, ctrlLow_ctrlByte]
    simp
  | long off ext =>
    have hclass : ctrlClass (Instr.refx off ext).control = 7#3 := ctrlClass_ctrlByte ..
    have hlow : ctrlLow (Instr.refx off ext).control = offHi off := ctrlLow_ctrlByte ..
    rw [encodeRecord, List.cons_append, decodeRecord_cons, hclass, if_neg (by decide), if_pos rfl, hlow]
    simp

theorem encode_of_isRecord {i : Instr} (hi : i.isRecord = true) : encode i = .frame (encodeRecord i) := by
  cases i with
  | encode _ _ _ | decode _ _ _ => nomatch hi
  | _ => rfl

/-- Settles O1: the control byte selects the record's own form, whose fields read back. -/
theorem decodeInvertsEncode : Obligations.DecodeInvertsEncode := by
  intro i rest hw
  refine ⟨fun hi => decodeRecord_encodeRecord hi hw rest, ?_⟩
  cases hi : i.isRecord with
  | true =>
    have hdec := decodeRecord_encodeRecord hi hw []
    rw [List.append_nil] at hdec
    rw [encode_of_isRecord hi, decode, hdec]
  | false =>
    cases i with
    | encode nIn nOut c | decode nIn nOut c => rfl
    | _ => nomatch hi

/-! ### Encoding what was decoded -/

/-- Settles O2: in each class the decoder accepts, the record's words are the bytes it took. -/
theorem encodeInvertsDecode : Obligations.EncodeInvertsDecode := by
  intro bytes rest i h
  cases bytes with
  | nil => nomatch h
  | cons c tail =>
    rw [decodeRecord_cons] at h
    split at h
    next hlit =>
      split at h
      · nomatch h
      next hlen =>
        obtain ⟨rfl, rfl⟩ : _ = i ∧ _ = rest := by simpa using h
        have hcount := litCount_eq c
        have hlenTake : (tail.take (litCount c)).length = litCount c := by
          rw [List.length_take]
          omega
        have hcontrol : (Instr.lit (tail.take (litCount c))).control = c := by
          rw [Instr.control, hlenTake, ← hlit, litCount, Nat.add_sub_cancel, BitVec.ofNat_toNat,
            BitVec.setWidth_eq, ctrlByte_split]
        refine ⟨rfl, (wellFormed_lit _).mpr (by omega), ?_⟩
        rw [encodeRecord, hcontrol, List.cons_append, List.take_append_drop]
    next hlit =>
      have hge : 32 ≤ c.toNat := by
        have := (ctrlClass_eq_iff c 0 (by decide)).not.mp hlit
        omega
      split at h
      next hlong =>
        have h224 : 224 ≤ c.toNat := by
          have := (ctrlClass_eq_iff c 7 (by decide)).mp hlong
          omega
        match tail, h with
        | ext :: lo :: tail', h =>
          obtain ⟨rfl, rfl⟩ : _ = i ∧ _ = rest := by simpa using h
          exact ⟨rfl, rfl, by rw [encodeRecord_refx c ext lo h224]; rfl⟩
      next hlong =>
        have h224 : c.toNat < 224 := by
          have := (ctrlClass_eq_iff c 7 (by decide)).not.mp hlong
          have := c.isLt
          omega
        match tail, h with
        | lo :: tail', h =>
          obtain ⟨rfl, rfl⟩ : _ = i ∧ _ = rest := by simpa using h
          obtain ⟨hrec, hwf⟩ := shortRef_isRecord (ctrlClass c) (joinOff (ctrlLow c) lo)
          exact ⟨hrec, hwf, by rw [encodeRecord_shortRef c lo hge h224]; rfl⟩

/-- Settles O4: each word is decoded by evaluation. -/
theorem tableWordsDecode : Obligations.TableWordsDecode := by
  unfold Obligations.TableWordsDecode
  decide

end Sys2Proof
end

section
/-! PROOF. The invariant of the machine: the parts that no phase matters for, the cursor ranges of a running
command, and that every step keeps them (10_state R14 to R24). -/

namespace Sys2Proof.Safety

open Sys2Proof.Machine

/-! ### The data of a state, whatever its phase -/

/-- A region in canonical form whose free values come from events before number `n`. -/
def RegionInv (m : Memory) (n : Nat) : Prop := m.wf ∧ RegionFresh m n

/-- A table in canonical form whose free values come from events before number `n`. -/
def TableInv (t : HashTable) (n : Nat) : Prop := t.wf ∧ tableFresh t n = true

/-- The encoder's share of `WidthsHold`. -/
def EncoderWidths (e : EncoderRegs) : Prop :=
  e.inputIndex < 2 ^ 32 ∧ e.outputIndex < 2 ^ 33 ∧ e.lit < 2 ^ 6 ∧ e.maxlen < 2 ^ 9 ∧ e.length < 2 ^ 9
    ∧ e.lenField < 2 ^ 9 ∧ e.p < 2 ^ 32

/-- The decoder's share of `WidthsHold`. -/
def DecoderWidths (d : DecoderRegs) : Prop :=
  d.inputIndex < 2 ^ 32 ∧ d.outputIndex < 2 ^ 32 ∧ d.count < 2 ^ 6 ∧ d.length < 2 ^ 9 ∧ d.total < 2 ^ 9
    ∧ -(2 ^ 33 : Int) ≤ d.ref ∧ d.ref < (2 ^ 33 : Int)

/-- The part of the invariant that speaks of no phase. -/
structure DataInv (s : State) : Prop where
  input : RegionInv s.input s.freeCount
  output : RegionInv s.output s.freeCount
  table : TableInv s.htab s.freeCount
  enc : EncoderWidths s.enc
  dec : DecoderWidths s.dec

theorem MachineInv.dataInv {s : State} (h : MachineInv s) : DataInv s where
  input := ⟨h.canonical.1, h.inputFresh⟩
  output := ⟨h.canonical.2.1, h.outputFresh⟩
  table := ⟨h.canonical.2.2, h.tableFresh⟩
  enc := by
    obtain ⟨h1, h2, h3, h4, h5, h6, h7, -⟩ := h.widths
    exact ⟨h1, h2, h3, h4, h5, h6, h7⟩
  dec := by
    obtain ⟨-, -, -, -, -, -, -, hdec⟩ := h.widths
    exact hdec

theorem DataInv.widths {s : State} (h : DataInv s) : WidthsHold s := by
  obtain ⟨h1, h2, h3, h4, h5, h6, h7⟩ := h.enc
  exact ⟨h1, h2, h3, h4, h5, h6, h7, h.dec⟩

/-! ### Regions and tables -/

theorem RegionInv.mono {m : Memory} {n n' : Nat} (h : RegionInv m n) (hn : n ≤ n') : RegionInv m n' :=
  ⟨h.1, h.2.1.trans_le hn, fun k hk => (h.2.2 k hk).trans_le hn⟩

/-- Bytes were written: the events are the same. -/
theorem RegionInv.written {m m' : Memory} {n : Nat} (h : RegionInv m n) (hwf : m.wf → m'.wf)
    (hb : m'.base = m.base) (hk : m'.marks = m.marks) : RegionInv m' n :=
  ⟨hwf h.1, hb ▸ h.2.1, hk ▸ h.2.2⟩

theorem RegionInv.write {m : Memory} {n : Nat} (h : RegionInv m n) (a : Nat) (v : Byte) :
    RegionInv (m.write a v) n :=
  h.written (fun hwf => Memory.wf_write hwf a v) rfl rfl

/-- Event number `n` makes bytes unspecified. -/
theorem RegionInv.forget {m : Memory} {n : Nat} (h : RegionInv m n) (lo hi : Nat) :
    RegionInv (m.forget lo hi n) (n + 1) := by
  obtain ⟨hwf, hbase, hmarks⟩ := h
  refine ⟨Memory.wf_forget hwf lo hi n, ?_⟩
  unfold Memory.forget
  split
  · refine ⟨by simpa using hbase.trans (Nat.lt_succ_self n), fun k hk => ?_⟩
    rcases List.mem_cons.mp hk with rfl | hk
    · exact Nat.lt_succ_self n
    · exact (hmarks k hk).trans (Nat.lt_succ_self n)
  · exact ⟨hbase.trans (Nat.lt_succ_self n), fun k hk => (hmarks k hk).trans (Nat.lt_succ_self n)⟩

theorem TableInv.mono {t : HashTable} {n n' : Nat} (h : TableInv t n) (hn : n ≤ n') : TableInv t n' := by
  refine ⟨h.1, ?_⟩
  have hfresh := h.2
  unfold Safety.tableFresh at hfresh ⊢
  split
  · rfl
  next e he =>
    simp only [he, decide_eq_true_eq] at hfresh ⊢
    omega

theorem TableInv.write {t : HashTable} {n : Nat} (h : TableInv t n) (slot : Slot) (v : Word32) :
    TableInv (t.write slot v) n := by
  refine ⟨HashTable.wf_write h.1 slot v, ?_⟩
  rw [Safety.tableFresh, HashTable.write_base]
  exact h.2

theorem TableInv.cleared (n : Nat) : TableInv HashTable.cleared n := ⟨HashTable.wf_cleared, rfl⟩

theorem TableInv.afterLookup {s : State} {n : Nat} (h : TableInv s.htab n) :
    TableInv (tableAfterLookup s) n := h.write _ _

theorem TableInv.afterMatch {s : State} {k : Nat} (h : TableInv s.htab k) (n : Nat) :
    TableInv (tableAfterMatch s n) k := by
  unfold tableAfterMatch
  split
  · exact h.afterLookup
  · exact (h.afterLookup.write _ _).write _ _

/-! ### The invariant from its parts -/

/-- The end of a command, from any state with sound data. -/
theorem machineInv_endCommand {u : State} {st : Status} {w : Word32} (kept : Nat) (h : DataInv u)
    (hst : st ≠ .unknown) (hw : st ≠ .ok → w = 0#32) (hle : w.toNat ≤ u.nOut) :
    MachineInv (endCommand st w kept u) := by
  have hdata : DataInv (endCommand st w kept u) :=
    ⟨h.input.mono (Nat.le_succ _), h.output.forget _ _, h.table.mono (Nat.le_succ _), h.enc, h.dec⟩
  exact {
    canonical := ⟨hdata.input.1, hdata.output.1, hdata.table.1⟩
    inputFresh := hdata.input.2
    outputFresh := hdata.output.2
    tableFresh := hdata.table.2
    widths := hdata.widths
    response := ⟨hst, hw, fun _ => hle⟩
    busy := fun hp => absurd rfl hp
    encoding := nofun
    decoding := nofun }

theorem machineInv_errorEntry {u : State} {e : Status} (h : DataInv u) (he : e ≠ .unknown) :
    MachineInv (errorEntry e u) :=
  machineInv_endCommand 0 h he (fun _ => rfl) (Nat.zero_le _)

theorem machineInv_returnOk {u : State} {v : Nat} (h : DataInv u) (hv : v ≤ u.nOut) :
    MachineInv (returnOk v u) :=
  machineInv_endCommand v h (by decide) (absurd rfl) (by
    rw [BitVec.toNat_ofNat]
    exact (Nat.mod_le ..).trans hv)

/-- A running command, with its response that of a state before. -/
theorem machineInv_busy {s t : State} (hs : MachineInv s) (h : DataInv t) (hr : t.response = s.response)
    (hp : t.phase ≠ .idle) (hlegal : Legal t) (hnone : t.presented = none)
    (henc : t.phase = .encoding → t.command.op = 0#1 ∧ EncoderRanges t ∧ HvalHere t)
    (hdec : t.phase = .decoding → t.command.op = 1#1 ∧ DecoderRanges t) : MachineInv t where
  canonical := ⟨h.input.1, h.output.1, h.table.1⟩
  inputFresh := h.input.2
  outputFresh := h.output.2
  tableFresh := h.table.2
  widths := h.widths
  response := by
    obtain ⟨hst, hw, -⟩ := hs.response
    exact ⟨hr ▸ hst, hr ▸ hw, fun hidle => absurd hidle hp⟩
  busy := fun _ => ⟨hlegal, hnone⟩
  encoding := henc
  decoding := hdec

theorem legal_of_same {s t : State} (hc : t.command = s.command) (hi : t.inRegion = s.inRegion)
    (ho : t.outRegion = s.outRegion) (h : Legal s) : Legal t := by
  unfold Legal lengthsTrue overlap State.nIn State.nOut at h ⊢
  rw [hc, hi, ho]
  exact h

/-! ### ENCODING -/

/-- `hval` settles to what 10_state R17 defines. -/
theorem hvalAt_eq {s : State} {a : Nat} (h : a + 3 ≤ s.nIn) : hvalAt s a = fingerprintIn s a := if_pos h

/-- A step of ENCODE from `s` to `t` that leaves the command running. -/
structure EncodeRuns (s t : State) : Prop where
  phase : t.phase = .encoding
  input : t.input = s.input
  command : t.command = s.command
  presented : t.presented = s.presented
  inRegion : t.inRegion = s.inRegion
  outRegion : t.outRegion = s.outRegion
  response : t.response = s.response
  cursor : s.enc.inputIndex < t.enc.inputIndex
  ranges : EncoderRanges t
  hval : HvalHere t

theorem encodeRuns_literal {s : State} (hp : s.phase = .encoding) (hr : EncoderRanges s)
    (h3 : s.enc.inputIndex + 3 ≤ s.nIn) (ho : s.enc.outputIndex < s.nOut) (hl : s.enc.lit ≠ 31) :
    EncodeRuns s (afterLiteral s) := by
  obtain ⟨hin, hout, hi, hlit, hli, hlo, -, -⟩ := hr
  refine ⟨hp, rfl, rfl, rfl, rfl, rfl, rfl, Nat.lt_succ_self _, ⟨hin, hout, ?_⟩, fun h => hvalAt_eq h⟩
  show s.enc.inputIndex + 1 ≤ s.nIn ∧ s.enc.lit + 1 ≤ 31 ∧ s.enc.lit + 1 ≤ s.enc.inputIndex + 1
    ∧ s.enc.lit + 1 + 1 ≤ s.enc.outputIndex + 1 ∧ s.enc.outputIndex + 1 ≤ s.nOut + 1
    ∧ (s.enc.outputIndex + 1 = s.nOut + 1 → s.enc.lit + 1 = 0)
  omega

theorem encodeRuns_roll {s : State} (hp : s.phase = .encoding) (hr : EncoderRanges s)
    (h3 : s.enc.inputIndex + 3 ≤ s.nIn) (ho : s.enc.outputIndex < s.nOut) :
    EncodeRuns s (afterRoll s) := by
  obtain ⟨hin, hout, hi, hlit, hli, hlo, -, -⟩ := hr
  refine ⟨hp, rfl, rfl, rfl, rfl, rfl, rfl, Nat.lt_succ_self _, ⟨hin, hout, ?_⟩, fun h => hvalAt_eq h⟩
  show s.enc.inputIndex + 1 ≤ s.nIn ∧ 0 ≤ 31 ∧ 0 ≤ s.enc.inputIndex + 1
    ∧ 0 + 1 ≤ s.enc.outputIndex + 2 ∧ s.enc.outputIndex + 2 ≤ s.nOut + 1
    ∧ (s.enc.outputIndex + 2 = s.nOut + 1 → 0 = 0)
  omega

theorem matchRecord_length_le (s : State) (n : Nat) : (matchRecord s n).length ≤ 3 := by
  rw [matchRecord_length]
  split <;> omega

theorem encodeRuns_match {s : State} {n : Nat} (m : Memory) (hp : s.phase = .encoding)
    (hr : EncoderRanges s) (hn : MatchLength s n) (hroom : MatchHasRoom s) :
    EncodeRuns s (afterMatch s n m) := by
  obtain ⟨hin, hout, hi, -⟩ := hr
  obtain ⟨h3, hmax, -⟩ := hn
  have hstart := recordStart_room hroom
  have hlen := matchRecord_length_le s n
  refine ⟨hp, rfl, rfl, rfl, rfl, rfl, rfl, Nat.lt_add_of_pos_right (by omega), ⟨hin, hout, ?_⟩,
    fun h => hvalAt_eq h⟩
  show s.enc.inputIndex + n ≤ s.nIn ∧ 0 ≤ 31 ∧ 0 ≤ s.enc.inputIndex + n
    ∧ 0 + 1 ≤ recordStart s + (matchRecord s n).length + 1
    ∧ recordStart s + (matchRecord s n).length + 1 ≤ s.nOut + 1
    ∧ (recordStart s + (matchRecord s n).length + 1 = s.nOut + 1 → 0 = 0)
  omega

/-- A step of ENCODE ends the command or moves the cursor on within its ranges. -/
theorem encode_ends_or_runs {s t : State} (hp : s.phase = .encoding) (hr : EncoderRanges s)
    (hst : step s = .next t) : t.phase = .idle ∨ EncodeRuns s t := by
  have next {u : State} (hs : step s = .next u) : t = u := next_unique hst hs
  cases encode_cases hp hr with
  | literalNoRoom _ _ _ hs | matchNoRoom _ _ _ _ _ hs | tailNoRoom _ _ hs | done _ _ _ _ hs =>
    exact .inl (by rw [next hs]; rfl)
  | literal h3 _ ho hl hs => exact .inr (next hs ▸ encodeRuns_literal hp hr h3 ho hl)
  | roll h3 _ ho _ hs => exact .inr (next hs ▸ encodeRuns_roll hp hr h3 ho)
  | isMatch n m _ _ hn hroom _ hs => exact .inr (next hs ▸ encodeRuns_match m hp hr hn hroom)

/-- The data after a step of ENCODE that leaves the command running. -/
theorem encode_dataInv {s t : State} (hp : s.phase = .encoding) (hr : EncoderRanges s) (h : DataInv s)
    (hst : step s = .next t) (ht : t.phase ≠ .idle) : DataInv t := by
  have next {u : State} (hs : step s = .next u) : t = u := next_unique hst hs
  obtain ⟨-, -, -, hregs⟩ := h.enc
  have hin := s.nIn_lt
  have hout := s.nOut_lt
  cases encode_cases hp hr with
  | literalNoRoom _ _ _ hs | matchNoRoom _ _ _ _ _ hs | tailNoRoom _ _ hs | done _ _ _ _ hs =>
    exact absurd (by rw [next hs]; rfl) ht
  | literal h3 _ ho _ hs =>
    obtain rfl := next hs
    obtain ⟨-, -, -, hlit, -⟩ := hr
    have hcount := countAt_ge s (s.enc.inputIndex + 1)
    refine ⟨h.input.mono hcount, (h.output.mono hcount).write _ _, (h.table.mono hcount).afterLookup, ?_,
      h.dec⟩
    show s.enc.inputIndex + 1 < 2 ^ 32 ∧ s.enc.outputIndex + 1 < 2 ^ 33 ∧ s.enc.lit + 1 < 2 ^ 6 ∧ _
    exact ⟨by omega, by omega, by omega, hregs⟩
  | roll h3 _ ho _ hs =>
    obtain rfl := next hs
    have hcount := countAt_ge s (s.enc.inputIndex + 1)
    refine ⟨h.input.mono hcount, ((h.output.mono hcount).write _ _).write _ _,
      (h.table.mono hcount).afterLookup, ?_, h.dec⟩
    show s.enc.inputIndex + 1 < 2 ^ 32 ∧ s.enc.outputIndex + 2 < 2 ^ 33 ∧ 0 < 2 ^ 6 ∧ _
    exact ⟨by omega, by omega, by omega, hregs⟩
  | isMatch n m h3 _ hn hroom hm hs =>
    obtain rfl := next hs
    have hcount := countAt_ge s (s.enc.inputIndex + n)
    obtain ⟨-, hmax, -⟩ := hn
    have hstart := recordStart_room hroom
    have hlen := matchRecord_length_le s n
    refine ⟨h.input.mono hcount, (h.output.mono hcount).written hm.wf hm.base hm.marks,
      (h.table.mono hcount).afterMatch n, ?_, h.dec⟩
    show s.enc.inputIndex + n < 2 ^ 32 ∧ recordStart s + (matchRecord s n).length + 1 < 2 ^ 33 ∧ 0 < 2 ^ 6
      ∧ min (s.nIn - s.enc.inputIndex) 264 < 2 ^ 9 ∧ n < 2 ^ 9 ∧ n - 2 < 2 ^ 9 ∧ s.enc.inputIndex < 2 ^ 32
    omega

/-- The lookup and its verdict leave sound data. -/
theorem dataInv_judged {s : State} (h : DataInv s) (v : Bool) : DataInv (judged s v) :=
  ⟨h.input, h.output, h.table.afterLookup, h.enc, h.dec⟩

theorem dataInv_setLength {s : State} {n : Nat} (h : DataInv s) (hn : n ≤ 264) :
    DataInv (setLength n (setMaxlen s)) := by
  obtain ⟨h1, h2, h3, -, -, h6, h7⟩ := h.enc
  refine ⟨h.input, h.output, h.table, ⟨h1, h2, h3, ?_, ?_, h6, h7⟩, h.dec⟩
  · show min (s.nIn - s.enc.inputIndex) 264 < 2 ^ 9
    omega
  · show n < 2 ^ 9
    omega

theorem dataInv_tailDone {s : State} {m : Memory} (h : DataInv s) (hr : EncoderRanges s)
    (h3 : s.nIn < s.enc.inputIndex + 3) (hroom : s.enc.outputIndex + 3 ≤ s.nOut) (hm : TailOutput s m) :
    DataInv (tailDone s m) := by
  obtain ⟨-, -, -, hmaxlen, hlength, hlenField, hpos⟩ := h.enc
  obtain ⟨-, -, -, hlit, -⟩ := hr
  have hin := s.nIn_lt
  have hout := s.nOut_lt
  have hw := tailWritten_le h3
  refine ⟨h.input, h.output.written hm.wf hm.base hm.marks, h.table, ?_, h.dec⟩
  refine ⟨hin, ?_, ?_, hmaxlen, hlength, hlenField, hpos⟩
  · show tailWritten s < 2 ^ 33
    omega
  · show tailLit s < 2 ^ 6
    unfold tailLit lastRun
    split <;> omega

/-- A step of ENCODE keeps the invariant. -/
theorem encode_keeps_inv {s t : State} (hinv : MachineInv s) (hp : s.phase = .encoding)
    (hst : step s = .next t) : MachineInv t := by
  have hr := hinv.encoderRanges hp
  have hdata := hinv.dataInv
  by_cases ht : t.phase = .idle
  · have next {u : State} (hs : step s = .next u) : t = u := next_unique hst hs
    cases encode_cases hp hr with
    | literalNoRoom _ _ _ hs => exact next hs ▸ machineInv_errorEntry (dataInv_judged hdata _) (by decide)
    | matchNoRoom n _ _ hn _ hs =>
      have hn264 : n ≤ 264 := hn.2.1.trans (Nat.min_le_right ..)
      exact next hs ▸ machineInv_errorEntry (dataInv_setLength (dataInv_judged hdata _) hn264) (by decide)
    | tailNoRoom _ _ hs => exact next hs ▸ machineInv_errorEntry hdata (by decide)
    | done m h3 hroom hm hs =>
      exact next hs ▸ machineInv_returnOk (dataInv_tailDone hdata hr h3 hroom hm)
        ((tailWritten_le h3).trans hroom)
    | literal _ _ _ _ hs | roll _ _ _ _ hs | isMatch _ _ _ _ _ _ _ hs =>
      obtain rfl := next hs
      exact nomatch hp.symm.trans ht
  · obtain hidle | hrun := encode_ends_or_runs hp hr hst
    · exact absurd hidle ht
    have hp0 : s.phase ≠ .idle := by rw [hp]; decide
    obtain ⟨hlegal, hnone⟩ := hinv.busy hp0
    refine machineInv_busy hinv (encode_dataInv hp hr hdata hst ht) hrun.response ht
      (legal_of_same hrun.command hrun.inRegion hrun.outRegion hlegal)
      (hrun.presented.trans hnone)
      (fun _ => ⟨hrun.command ▸ (hinv.encoding hp).1, hrun.ranges, hrun.hval⟩)
      fun h => nomatch hrun.phase.symm.trans h

/-! ### DECODING -/

/-- A step of DECODE from `s` to `t` that leaves the command running. -/
structure DecodeRuns (s t : State) : Prop where
  phase : t.phase = .decoding
  command : t.command = s.command
  presented : t.presented = s.presented
  inRegion : t.inRegion = s.inRegion
  outRegion : t.outRegion = s.outRegion
  response : t.response = s.response
  cursor : s.dec.inputIndex + 2 ≤ t.dec.inputIndex
  ranges : DecoderRanges t

theorem decodeRuns_lit {s : State} {c : Byte} (m : Memory) (hp : s.phase = .decoding)
    (ho : s.dec.outputIndex + (c.toNat + 1) ≤ s.nOut) (hi : s.dec.inputIndex + 1 + (c.toNat + 1) ≤ s.nIn) :
    DecodeRuns s (afterLit c (c.toNat + 1) s m) := by
  refine ⟨hp, rfl, rfl, rfl, rfl, rfl, ?_, hi, ho⟩
  show s.dec.inputIndex + 2 ≤ s.dec.inputIndex + 1 + (c.toNat + 1)
  omega

/-- A back-reference, `u` being the state when its operands are taken. -/
theorem decodeRuns_ref {s u : State} {m : Memory} (hp : s.phase = .decoding) (hu : u = s.withDec u.dec)
    (hcur : s.dec.inputIndex + 2 ≤ u.dec.inputIndex) (hi : u.dec.inputIndex ≤ s.nIn)
    (ho : u.dec.outputIndex + u.dec.total ≤ s.nOut) : DecodeRuns s (afterRef u m) := by
  rw [hu]
  exact ⟨hp, rfl, rfl, rfl, rfl, rfl, hcur, hi, ho⟩

/-- A step of DECODE ends the command or moves the record pointer on by two at least. -/
theorem decode_ends_or_runs {s t : State} (hp : s.phase = .decoding) (hst : step s = .next t) :
    t.phase = .idle ∨ DecodeRuns s t := by
  have next {u : State} (hs : step s = .next u) : t = u := next_unique hst hs
  cases decode_cases hp with
  | litNoRoom _ _ _ hs | litTruncated _ _ _ _ hs | refTruncated _ _ hs | extTruncated _ _ hs
  | shortFails _ _ _ _ _ hs | longFails _ _ _ _ hs | frameEnd _ hs => exact .inl (by rw [next hs]; rfl)
  | lit m _ ho hi _ _ _ _ _ hs => exact .inr (next hs ▸ decodeRuns_lit m hp ho hi)
  | short m hc hc' hi ho _ _ hs =>
    rw [next hs]
    refine .inr (decodeRuns_ref hp rfl ?_ ?_ ?_) <;> rw [shortTaken_dec]
    · exact hi
    · exact ho
  | long m hc hi ho _ _ hs =>
    rw [next hs, longTaken_eq hc]
    exact .inr (decodeRuns_ref hp rfl (show _ + 2 ≤ _ + 3 by omega) hi ho)

theorem dataInv_withDec {s : State} (h : DataInv s) {d : DecoderRegs} (hd : DecoderWidths d) :
    DataInv (s.withDec d) :=
  ⟨h.input, h.output, h.table, h.enc, hd⟩

theorem distanceOf_le (c lo : Byte) : distanceOf c lo ≤ 8192 := by
  unfold distanceOf
  have := lo.isLt
  omega

/-- The state in which a record's test fails, and the state after a record, have sound data. -/
theorem dataInv_litBegun {s : State} {c : Byte} (h : DataInv s) (hi : s.dec.inputIndex < s.nIn)
    (hc : c.toNat < 32) : DataInv (litBegun c (c.toNat + 1) s) := by
  obtain ⟨-, hout, -, hlength, htotal, href⟩ := h.dec
  have hin := s.nIn_lt
  refine dataInv_withDec h ⟨?_, hout, ?_, hlength, htotal, href⟩
  · show s.dec.inputIndex + 1 < 2 ^ 32
    omega
  · show c.toNat + 1 < 2 ^ 6
    omega

theorem dataInv_refBegun {s : State} (h : DataInv s) (c : Byte) (hi : s.dec.inputIndex < s.nIn) :
    DataInv (refBegun c s) := by
  obtain ⟨-, hout, hcount, -, htotal, -⟩ := h.dec
  have hin := s.nIn_lt
  have hc := c.isLt
  rw [refBegun_eq]
  refine dataInv_withDec h ⟨?_, hout, hcount, ?_, htotal, ?_⟩ <;> dsimp only <;> omega

theorem dataInv_extTaken {s : State} (h : DataInv s) (c ext : Byte) (hi : s.dec.inputIndex + 2 ≤ s.nIn) :
    DataInv (extTaken ext (refBegun c s)) := by
  obtain ⟨-, hout, hcount, -, htotal, href⟩ := (dataInv_refBegun h c (by omega)).dec
  have hin := s.nIn_lt
  have hc := c.isLt
  have hext := ext.isLt
  rw [extTaken, refBegun_eq] at *
  refine dataInv_withDec h ⟨?_, hout, hcount, ?_, htotal, href⟩ <;> dsimp only [State.withDec_dec] <;> omega

theorem dataInv_shortTaken {s : State} (h : DataInv s) (c lo : Byte) (hi : s.dec.inputIndex + 2 ≤ s.nIn) :
    DataInv (shortTaken c lo s) := by
  obtain ⟨-, hout, hcount, -, -, -⟩ := h.dec
  have hin := s.nIn_lt
  have hc := c.isLt
  have hdist := distanceOf_le c lo
  rw [shortTaken_eq]
  refine dataInv_withDec h ⟨?_, hout, hcount, ?_, ?_, ?_⟩ <;> dsimp only <;> omega

theorem dataInv_longTaken {s : State} {c : Byte} (h : DataInv s) (hc : 224 ≤ c.toNat) (ext lo : Byte)
    (hi : s.dec.inputIndex + 3 ≤ s.nIn) : DataInv (longTaken c ext lo s) := by
  obtain ⟨-, hout, hcount, -, -, -⟩ := h.dec
  have hin := s.nIn_lt
  have hext := ext.isLt
  have hdist := distanceOf_le c lo
  rw [longTaken_eq hc]
  refine dataInv_withDec h ⟨?_, hout, hcount, ?_, ?_, ?_⟩ <;> dsimp only <;> omega

theorem dataInv_afterRef {s u : State} {dist total : Nat} {m : Memory} (h : DataInv u)
    (hout : u.output = s.output) (hm : Copied s dist total m) (ho : u.dec.outputIndex + u.dec.total ≤ u.nOut) :
    DataInv (afterRef u m) := by
  obtain ⟨hin, -, hcount, hlength, htotal, href⟩ := h.dec
  have hlt := u.nOut_lt
  refine ⟨h.input, RegionInv.written (hout ▸ h.output) hm.wf hm.base hm.marks, h.table, h.enc,
    hin, ?_, hcount, hlength, htotal, href⟩
  show u.dec.outputIndex + u.dec.total < 2 ^ 32
  omega

theorem dataInv_afterLit {s : State} {c : Byte} {m : Memory} (h : DataInv s) (hc : c.toNat < 32)
    (ho : s.dec.outputIndex + (c.toNat + 1) ≤ s.nOut) (hi : s.dec.inputIndex + 1 + (c.toNat + 1) ≤ s.nIn)
    (hwf : s.output.wf → m.wf) (hb : m.base = s.output.base) (hk : m.marks = s.output.marks) :
    DataInv (afterLit c (c.toNat + 1) s m) := by
  obtain ⟨-, -, -, hlength, htotal, href⟩ := h.dec
  have hin := s.nIn_lt
  have hout := s.nOut_lt
  refine ⟨h.input, h.output.written hwf hb hk, h.table, h.enc, ?_, ?_, ?_, hlength, htotal, href⟩
  · show s.dec.inputIndex + 1 + (c.toNat + 1) < 2 ^ 32
    omega
  · show s.dec.outputIndex + (c.toNat + 1) < 2 ^ 32
    omega
  · show c.toNat + 1 < 2 ^ 6
    omega

/-- A step of DECODE keeps the invariant: it ends from a state with sound data, or runs on. -/
theorem decode_keeps_inv {s t : State} (hinv : MachineInv s) (hp : s.phase = .decoding)
    (hst : step s = .next t) : MachineInv t := by
  have next {u : State} (hs : step s = .next u) : t = u := next_unique hst hs
  have h := hinv.dataInv
  have running (hrun : t.phase = .decoding) (hdata : DataInv t) : MachineInv t := by
    have hp0 : s.phase ≠ .idle := by rw [hp]; decide
    obtain ⟨hlegal, hnone⟩ := hinv.busy hp0
    obtain hidle | hrun := decode_ends_or_runs hp hst
    · exact nomatch hrun.symm.trans hidle
    refine machineInv_busy hinv hdata hrun.response (by rw [hrun.phase]; decide)
      (legal_of_same hrun.command hrun.inRegion hrun.outRegion hlegal)
      (hrun.presented.trans hnone) (fun h => nomatch hrun.phase.symm.trans h)
      fun _ => ⟨hrun.command ▸ (hinv.decoding hp).1, hrun.ranges⟩
  cases decode_cases hp with
  | litNoRoom hi hc _ hs | litTruncated hi hc _ _ hs =>
    exact next hs ▸ machineInv_errorEntry (dataInv_litBegun h hi hc) (by decide)
  | refTruncated _ hi hs =>
    exact next hs ▸ machineInv_errorEntry (dataInv_refBegun h _ (by omega)) (by decide)
  | extTruncated _ hi hs =>
    exact next hs ▸ machineInv_errorEntry (dataInv_extTaken h _ _ hi.ge) (by decide)
  | shortFails _ _ hi e he hs =>
    exact next hs ▸ machineInv_errorEntry (dataInv_shortTaken h _ _ hi)
      (by rcases he with ⟨rfl, -⟩ | ⟨rfl, -⟩ <;> decide)
  | longFails hc hi e he hs =>
    exact next hs ▸ machineInv_errorEntry (dataInv_longTaken h hc _ _ hi)
      (by rcases he with ⟨rfl, -⟩ | ⟨rfl, -⟩ <;> decide)
  | frameEnd _ hs => exact next hs ▸ machineInv_returnOk h (hinv.decoderRanges hp).2
  | lit m hc ho hi _ _ hwf hb hk hs =>
    obtain rfl := next hs
    exact running hp (dataInv_afterLit h hc ho hi hwf hb hk)
  | short m hc hc' hi ho _ hm hs =>
    obtain rfl := next hs
    refine running hp (dataInv_afterRef (s := s) (dataInv_shortTaken h _ _ hi) rfl hm ?_)
    rw [shortTaken_dec]
    exact ho
  | long m hc hi ho _ hm hs =>
    obtain rfl := next hs
    refine running hp (dataInv_afterRef (s := s) (dataInv_longTaken h hc _ _ hi) rfl hm ?_)
    rw [longTaken_eq hc]
    exact ho

/-! ### A command starts -/

theorem dataInv_encodeAccepted {s : State} (h : DataInv s) (r : CommandRecord) :
    DataInv (encodeAccepted r s) := by
  refine ⟨h.input, h.output, ?_, h.enc, h.dec⟩
  unfold encodeAccepted
  dsimp only
  split
  · exact TableInv.cleared _
  · exact h.table

theorem dataInv_decodeAccepted {s : State} (h : DataInv s) (r : CommandRecord) :
    DataInv (decodeAccepted r s) := by
  obtain ⟨-, -, hrest⟩ := h.dec
  exact ⟨h.input, h.output, h.table, h.enc, show 0 < 2 ^ 32 by decide, show 0 < 2 ^ 32 by decide, hrest⟩

theorem dataInv_encodeBegun {s : State} (h : DataInv s) (r : CommandRecord) :
    DataInv (encodeBegun r s) := by
  have hcount := countAt_ge (encodeAccepted r s) 0
  obtain ⟨hin, hout, htab, ⟨-, -, -, hrest⟩, hdec⟩ := dataInv_encodeAccepted h r
  exact ⟨hin.mono hcount, hout.mono hcount, htab.mono hcount,
    ⟨show 0 < 2 ^ 32 by decide, show 1 < 2 ^ 33 by decide, show 0 < 2 ^ 6 by decide, hrest⟩, hdec⟩

theorem encodeRanges_begun {r : CommandRecord} {s : State} (h0 : r.nIn.toNat ≠ 0) (h1 : r.nOut.toNat ≠ 0) :
    EncoderRanges (encodeBegun r s) := by
  show 0 < r.nIn.toNat ∧ 0 < r.nOut.toNat ∧ 0 ≤ r.nIn.toNat ∧ 0 ≤ 31 ∧ 0 ≤ 0 ∧ 0 + 1 ≤ 1
    ∧ 1 ≤ r.nOut.toNat + 1 ∧ (1 = r.nOut.toNat + 1 → 0 = 0)
  omega

/-- Accepting a command keeps the invariant. -/
theorem command_keeps_inv {s t : State} {r : CommandRecord} (hinv : MachineInv s) (hp : s.phase = .idle)
    (hst : exec (decodeCommand r) s = .next t) : MachineInv t := by
  have next {u : State} (hs : exec (decodeCommand r) s = .next u) : t = u := next_unique hst hs
  have h := hinv.dataInv
  cases command_cases r hp with
  | refused f hs => exact nomatch hst.symm.trans hs
  | encodeEmpty _ _ _ _ hs =>
    exact next hs ▸ machineInv_returnOk (dataInv_encodeAccepted h r) (Nat.zero_le _)
  | encodeNoOut _ _ _ _ _ hs =>
    exact next hs ▸ machineInv_errorEntry (dataInv_encodeAccepted h r) (by decide)
  | decodeEmpty _ _ _ _ hs =>
    exact next hs ▸ machineInv_returnOk (dataInv_decodeAccepted h r) (Nat.zero_le _)
  | encodeStarts hop hl ho h0 h1 hs =>
    exact next hs ▸ machineInv_busy hinv (dataInv_encodeBegun h r) rfl nofun ⟨hl, ho⟩ rfl
      (fun _ => ⟨hop, encodeRanges_begun h0 h1, fun h3 => hvalAt_eq (s := encodeAccepted r s) h3⟩) nofun
  | decodeStarts hop hl ho _ hs =>
    exact next hs ▸ machineInv_busy hinv (dataInv_decodeAccepted h r) rfl nofun ⟨hl, ho⟩ rfl nofun
      fun _ => ⟨hop, Nat.zero_le _, Nat.zero_le _⟩

/-- Settles O30: by the phase the step starts in. -/
theorem stepKeepsInvariant : Obligations.StepKeepsInvariant := by
  intro s t hinv hst
  cases hp : s.phase with
  | encoding => exact encode_keeps_inv hinv hp hst
  | decoding => exact decode_keeps_inv hinv hp hst
  | idle =>
    cases hpres : s.presented with
    | none => exact next_unique hst (step_idle_wait hp hpres) ▸ hinv
    | some r => exact command_keeps_inv hinv hp (step_idle_run hp hpres ▸ hst)

/-- Settles O29: no region is lent, nothing runs, and every register is 0. -/
theorem resetMeetsInvariant : Obligations.ResetMeetsInvariant where
  canonical := by decide
  inputFresh := by decide
  outputFresh := by decide
  tableFresh := by decide
  widths := by decide
  response := by decide
  busy := fun h => absurd rfl h
  encoding := nofun
  decoding := nofun

end Sys2Proof.Safety
end

section
/-! PROOF. OUT below the reserved slot stands for the input before the open run, at every step of ENCODE
(10_state R25). -/

namespace Sys2Proof.Safety

open Sys2Proof.Machine

/-! ### An open run -/

/-- R25 over any cursor: `n` literals of `i` end at `x`, their run ends at `o` in `m`, and the bytes below
the run's slot stand for the input before the literals. -/
def RunPrefix (m i : Memory) (o x n : Nat) : Prop :=
  StandsFor (m.slice 0 (o - n - 1)) (i.slice 0 (x - n)) ∧ m.slice (o - n) n = i.slice (x - n) n

theorem encodedPrefix_iff (s : State) :
    EncodedPrefix s ↔ RunPrefix s.output s.input s.enc.outputIndex s.enc.inputIndex s.enc.lit :=
  Iff.rfl

/-- Only the bytes below the end of the run matter, and not its slot. -/
theorem RunPrefix.congr {m m' i : Memory} {o x n : Nat} (h : RunPrefix m i o x n) (ho : n + 1 ≤ o)
    (hm : ∀ a, a < o → a ≠ o - n - 1 → m'.read a = m.read a) : RunPrefix m' i o x n := by
  have hbelow : m'.slice 0 (o - n - 1) = m.slice 0 (o - n - 1) :=
    Memory.slice_congr fun k hk => hm _ (by omega) (by omega)
  have hrun : m'.slice (o - n) n = m.slice (o - n) n :=
    Memory.slice_congr fun k hk => hm _ (by omega) (by omega)
  unfold RunPrefix
  rw [hbelow, hrun]
  exact h

/-- Literals are appended. -/
theorem RunPrefix.extend {m i : Memory} {o x n : Nat} (h : RunPrefix m i o x n) (ho : n + 1 ≤ o)
    (hx : n ≤ x) (j : Nat) (hj : ∀ k, k < j → m.read (o + k) = i.read (x + k)) :
    RunPrefix m i (o + j) (x + j) (n + j) := by
  obtain ⟨hbelow, hrun⟩ := h
  unfold RunPrefix
  rw [show o + j - (n + j) = o - n by omega, show x + j - (n + j) = x - n by omega]
  refine ⟨hbelow, ?_⟩
  rw [Memory.slice_add, Memory.slice_add, hrun, show o - n + n = o by omega, show x - n + n = x by omega]
  exact congrArg _ (List.map_congr_left fun k hk => hj k (List.mem_range.mp hk))

/-- A run with literals is closed. -/
theorem RunPrefix.close {m i : Memory} {o x n : Nat} (h : RunPrefix m i o x n) (ho : n + 1 ≤ o)
    (h1 : 1 ≤ n) (h32 : n ≤ 32) (hx : n ≤ x) (hc : m.read (o - n - 1) = BitVec.ofNat 8 (n - 1)) :
    StandsFor (m.slice 0 o) (i.slice 0 x) :=
  standsFor_closeRun m i o x n ho h1 h32 hx h.1 h.2 hc

/-- An empty run is withdrawn. -/
theorem RunPrefix.withdraw {m i : Memory} {o x : Nat} (h : RunPrefix m i o x 0) :
    StandsFor (m.slice 0 (o - 1)) (i.slice 0 x) := h.1

/-- The next run's slot is reserved. -/
theorem RunPrefix.reserve {m i : Memory} {o x : Nat} (h : StandsFor (m.slice 0 o) (i.slice 0 x)) :
    RunPrefix m i (o + 1) x 0 := ⟨h, rfl⟩

theorem encodedPrefix_start {s : State} (hi : s.enc.inputIndex = 0) (ho : s.enc.outputIndex = 1)
    (hl : s.enc.lit = 0) : EncodedPrefix s := by
  rw [encodedPrefix_iff, hi, ho, hl]
  exact RunPrefix.reserve standsFor_nil

/-! ### The literal step -/

/-- OUT after the next literal is written: the run grows by it. -/
theorem runPrefix_literal {s : State} {m : Memory} (hr : EncoderRanges s) (hs : EncodedPrefix s)
    (hnew : m.read s.enc.outputIndex = s.input.read s.enc.inputIndex)
    (hold : ∀ a, a < s.enc.outputIndex → a ≠ s.enc.outputIndex - s.enc.lit - 1 →
      m.read a = s.output.read a) :
    RunPrefix m s.input (s.enc.outputIndex + 1) (s.enc.inputIndex + 1) (s.enc.lit + 1) := by
  obtain ⟨-, -, -, -, hli, hlo, -, -⟩ := hr
  refine (RunPrefix.congr ((encodedPrefix_iff s).mp hs) hlo hold).extend hlo hli 1 fun k hk => ?_
  obtain rfl : k = 0 := by omega
  exact hnew

theorem encodedPrefix_literal {s : State} (hr : EncoderRanges s) (hs : EncodedPrefix s) :
    EncodedPrefix (afterLiteral s) :=
  runPrefix_literal hr hs (Memory.read_write_self ..) fun _ ha _ => Memory.read_write_of_ne _ (by omega) _

theorem encodedPrefix_roll {s : State} (hr : EncoderRanges s) (hl : s.enc.lit = 31)
    (hs : EncodedPrefix s) : EncodedPrefix (afterRoll s) := by
  have hrun : RunPrefix (afterRoll s).output s.input (s.enc.outputIndex + 1) (s.enc.inputIndex + 1)
      (s.enc.lit + 1) := by
    refine runPrefix_literal hr hs ?_ fun a ha hslot => ?_
    · exact (Memory.read_write_of_ne _ (by omega) _).trans (Memory.read_write_self ..)
    · exact (Memory.read_write_of_ne _ (by omega) _).trans (Memory.read_write_of_ne _ (by omega) _)
  obtain ⟨-, -, -, -, hli, hlo, -, -⟩ := hr
  rw [hl] at hrun
  refine RunPrefix.reserve (hrun.close (by omega) (by omega) (by omega) (by omega) ?_)
  rw [show s.enc.outputIndex + 1 - (31 + 1) - 1 = s.enc.outputIndex - 32 by omega]
  exact Memory.read_write_self ..

/-! ### The match step -/

theorem distance_of_validMatch {s : State} (hv : ValidMatch s) :
    distance (BitVec.ofNat 13 (s.enc.inputIndex - candidate s - 1)) = s.enc.inputIndex - candidate s := by
  obtain ⟨-, hlt, -⟩ := id hv
  rw [distance, validMatch_off_toNat hv]
  omega

/-- The record of a match produces the bytes it passes over: they repeat those at the candidate. -/
theorem expandRecord_match {s : State} {n : Nat} (hv : ValidMatch s) (hn : MatchLength s n) :
    expandRecord (s.input.slice 0 s.enc.inputIndex)
        (backReference (BitVec.ofNat 13 (s.enc.inputIndex - candidate s - 1)) n)
      = some (s.input.slice 0 (s.enc.inputIndex + n)) := by
  obtain ⟨-, hlt, -⟩ := id hv
  obtain ⟨h3, hmax, hagree, -⟩ := hn
  have hdist := distance_of_validMatch hv
  have hsource : s.enc.inputIndex - (s.enc.inputIndex - candidate s) = candidate s := by omega
  rw [expandRecord_backReference _ _ _ h3 (hmax.trans (Nat.min_le_right ..)),
    expandMatch_slice _ _ _ _ (by omega), hdist, Memory.slice_add, Nat.zero_add]
  congr 2
  refine List.map_congr_left fun k hk => ?_
  refine periodic s.input.read _ _ n (by omega) (by omega) (fun j hj => ?_) k (List.mem_range.mp hk)
  rw [hsource]
  exact hagree j hj

/-- After the run is closed or withdrawn, OUT below the record's place is a frame for the input so far. -/
theorem standsFor_closedOutput {s : State} (hr : EncoderRanges s) (hs : EncodedPrefix s) :
    StandsFor ((closedOutput s).slice 0 (recordStart s)) (s.input.slice 0 s.enc.inputIndex) := by
  obtain ⟨-, -, -, hlit, hli, hlo, -, -⟩ := hr
  have hrun := (encodedPrefix_iff s).mp hs
  unfold closedOutput recordStart
  by_cases h0 : s.enc.lit = 0
  · rw [if_pos h0, if_pos h0]
    rw [h0] at hrun
    exact hrun.withdraw
  · rw [if_neg h0, if_neg h0]
    exact (hrun.congr hlo fun a _ hslot => Memory.read_write_of_ne _ hslot _).close hlo (by omega) (by omega)
      hli (Memory.read_write_self ..)

theorem encodedPrefix_match {s : State} {n : Nat} {m : Memory} (hr : EncoderRanges s) (hv : ValidMatch s)
    (hn : MatchLength s n) (hm : MatchOutput s n m) (hs : EncodedPrefix s) :
    EncodedPrefix (afterMatch s n m) := by
  have hbelow : m.slice 0 (recordStart s) = (closedOutput s).slice 0 (recordStart s) :=
    Memory.slice_congr fun k hk => hm.others _ (.inl (by omega))
  obtain ⟨hrec, hwf⟩ := backReference_isRecord (BitVec.ofNat 13 (s.enc.inputIndex - candidate s - 1)) n
  have hframe := (standsFor_closedOutput hr hs).snoc hrec hwf (expandRecord_match hv hn)
  refine RunPrefix.reserve ?_
  show StandsFor (m.slice 0 (recordStart s + (matchRecord s n).length)) _
  rw [Memory.slice_add, Nat.zero_add, hm.record, hbelow]
  exact hframe

/-! ### The tail -/

/-- The bytes below `written` stand for the whole input. -/
theorem standsFor_tail {s : State} {m : Memory} (hr : EncoderRanges s) (h3 : s.nIn < s.enc.inputIndex + 3)
    (hm : TailOutput s m) (hs : EncodedPrefix s) :
    StandsFor (m.slice 0 (tailWritten s)) (s.input.slice 0 s.nIn) := by
  obtain ⟨-, -, hi, hlit, hli, hlo, -, -⟩ := hr
  have hrun : RunPrefix m s.input s.enc.outputIndex s.enc.inputIndex s.enc.lit :=
    ((encodedPrefix_iff s).mp hs).congr hlo hm.below
  have hend : s.enc.inputIndex + (s.nIn - s.enc.inputIndex) = s.nIn := by omega
  have hlast : lastRun s = s.enc.lit + (s.nIn - s.enc.inputIndex) := rfl
  unfold tailWritten
  by_cases h0 : lastRun s = 0
  · rw [if_pos h0, show s.nIn = s.enc.inputIndex by omega]
    rw [show s.enc.lit = 0 by omega] at hrun
    exact hrun.withdraw
  · have hslot := hm.slot (by omega)
    by_cases h32 : lastRun s ≤ 32
    · have hall := hrun.extend hlo hli (s.nIn - s.enc.inputIndex) fun k hk => hm.literals k hk (by omega)
      rw [if_neg h0, if_pos h32]
      rw [hend] at hall
      refine hall.close (by omega) (by omega) (by omega) (by omega) ?_
      rw [← hlast, ← Nat.min_eq_left h32, ← hslot]
      congr 1
      omega
    · -- the 32nd literal rolls the run, and one more literal makes a run of its own
      have hl31 : s.enc.lit = 31 := by omega
      have hleft : s.nIn - s.enc.inputIndex = 2 := by omega
      obtain ⟨hctl, hnext⟩ := hm.rolled (by omega)
      have hfull := hrun.extend hlo hli 1 fun k hk => hm.literals k (by omega) (by omega)
      have hroll : StandsFor (m.slice 0 (s.enc.outputIndex + 1)) (s.input.slice 0 (s.enc.inputIndex + 1)) := by
        refine hfull.close (by omega) (by omega) (by omega) (by omega) ?_
        rw [show s.enc.outputIndex + 1 - (s.enc.lit + 1) - 1 = s.enc.outputIndex - s.enc.lit - 1 by omega,
          hslot, Nat.min_eq_right (by omega), hl31]
      have hone := (RunPrefix.reserve hroll).extend (by omega) (by omega) 1 fun k hk => by
        obtain rfl : k = 0 := by omega
        exact hnext
      rw [if_neg h0, if_neg h32, hleft, show s.nIn = s.enc.inputIndex + 1 + 1 by omega]
      exact hone.close (by omega) (by omega) (by omega) (by omega) hctl

theorem tailDone_written {s : State} {m : Memory} (h3 : s.nIn < s.enc.inputIndex + 3)
    (hroom : s.enc.outputIndex + 3 ≤ s.nOut) :
    (returnOk (tailWritten s) (tailDone s m)).response.written.toNat = tailWritten s := by
  have hw := tailWritten_le h3
  have hlt := s.nOut_lt
  rw [returnOk_eq, endCommand_response, BitVec.toNat_ofNat, Nat.mod_eq_of_lt (by omega)]

/-! ### One step -/

/-- A step of ENCODE keeps R25, and a successful end leaves a frame for the whole input. -/
theorem encodedPrefix_step {s t : State} (hp : s.phase = .encoding) (hr : EncoderRanges s)
    (hs : EncodedPrefix s) (hst : step s = .next t) :
    (t.phase = .encoding → EncodedPrefix t)
      ∧ (t.phase = .idle → t.response.status = .ok →
          StandsFor (t.output.slice 0 t.response.written.toNat) (s.input.slice 0 s.nIn)) := by
  have next {u : State} (hu : step s = .next u) : t = u := next_unique hst hu
  cases encode_cases hp hr with
  | literalNoRoom _ _ _ hs | matchNoRoom _ _ _ _ _ hs | tailNoRoom _ _ hs =>
    obtain rfl := next hs
    exact ⟨nofun, fun _ => nofun⟩
  | literal _ _ _ _ hu =>
    obtain rfl := next hu
    exact ⟨fun _ => encodedPrefix_literal hr hs, fun h => nomatch hp.symm.trans h⟩
  | roll _ _ _ hl hu =>
    obtain rfl := next hu
    exact ⟨fun _ => encodedPrefix_roll hr hl hs, fun h => nomatch hp.symm.trans h⟩
  | isMatch n m _ hv hn _ hm hu =>
    obtain rfl := next hu
    exact ⟨fun _ => encodedPrefix_match hr hv hn hm hs, fun h => nomatch hp.symm.trans h⟩
  | done m h3 hroom hm hu =>
    obtain rfl := next hu
    refine ⟨nofun, fun _ _ => ?_⟩
    have hkept : (returnOk (tailWritten s) (tailDone s m)).output.slice 0 (tailWritten s)
        = m.slice 0 (tailWritten s) := Memory.slice_forget _ _ _ _ _ _ (by omega)
    rw [tailDone_written h3 hroom, hkept]
    exact standsFor_tail hr h3 hm hs

/-- Settles O34: the step is one literal, one match or the tail on an open run. -/
theorem encodedPrefixKept : Obligations.EncodedPrefixKept :=
  ⟨fun _ => encodedPrefix_start, fun _ _ hinv hp => encodedPrefix_step hp (hinv.encoderRanges hp)⟩

end Sys2Proof.Safety
end

section
/-! PROOF. Runs to the end of a command: what holds at the end when every step keeps an invariant and
lowers a measure, and what two runs agree on; the bounds of 40_encoder R96 and 41_decoder R113. -/

namespace Sys2Proof.Safety

open Sys2Proof.Machine

/-! ### One run -/

theorem runToIdle_idle {s : State} (hp : s.phase = .idle) (fuel : Nat) : runToIdle fuel s = .next s := by
  cases fuel with
  | zero => rfl
  | succ n => rw [runToIdle, if_pos hp]

/-- A run from an idle block stays where it is. -/
theorem runToIdle_of_idle {s t : State} {fuel : Nat} (hp : s.phase = .idle) (h : runToIdle fuel s = .next t) :
    s = t :=
  next_unique (runToIdle_idle hp fuel) h

theorem runToIdle_step {s t : State} (hp : s.phase ≠ .idle) (hst : step s = .next t) (fuel : Nat) :
    runToIdle (fuel + 1) s = runToIdle fuel t := by
  rw [runToIdle, if_neg hp, hst]

/-- A run whose steps keep `I` and lower `bound` until one of them ends the command with `Q`. -/
theorem runToIdle_ends {I Q : State → Prop} {bound : State → Nat}
    (hstep : ∀ s, I s → s.phase ≠ .idle ∧ ∃ t, step s = .next t
      ∧ (t.phase = .idle ∧ Q t ∨ I t ∧ bound t < bound s))
    {s : State} (hs : I s) {fuel : Nat} (hf : bound s < fuel) :
    ∃ t, runToIdle fuel s = .next t ∧ t.phase = .idle ∧ Q t := by
  induction fuel generalizing s with
  | zero => omega
  | succ n ih =>
    obtain ⟨hp, t, hst, ⟨hidle, hq⟩ | ⟨ht, hlt⟩⟩ := hstep s hs
    · exact ⟨t, by rw [runToIdle_step hp hst, runToIdle_idle hidle], hidle, hq⟩
    · rw [runToIdle_step hp hst]
      exact ih ht (by omega)

/-- The end of a run from a state where the command runs: its first step was made. -/
theorem runToIdle_inv {s t : State} {fuel : Nat} (hp : s.phase ≠ .idle) (ht : t.phase = .idle)
    (hrun : runToIdle fuel s = .next t) :
    ∃ n u, fuel = n + 1 ∧ step s = .next u ∧ runToIdle n u = .next t := by
  cases fuel with
  | zero =>
    rw [runToIdle] at hrun
    exact absurd (Host.Outcome.next.inj hrun ▸ ht) hp
  | succ n =>
    rw [runToIdle, if_neg hp] at hrun
    cases hst : step s with
    | next u => exact ⟨n, u, rfl, rfl, by rwa [hst] at hrun⟩
    | fault f => rw [hst] at hrun; nomatch hrun
    | refused f => rw [hst] at hrun; nomatch hrun

/-! ### Two runs -/

/-- What a step of each of two runs leaves: both go on, both end, or one ends so that the claim holds
whatever becomes of the other. -/
inductive PairStep (R Q : State → State → Prop) (t t' : State) : Prop where
  | bothRun (hp : t.phase ≠ .idle) (hp' : t'.phase ≠ .idle) (h : R t t')
  | bothEnd (hp : t.phase = .idle) (hp' : t'.phase = .idle) (h : Q t t')
  | leftEnds (hp : t.phase = .idle) (h : ∀ u, Q t u)
  | rightEnds (hp' : t'.phase = .idle) (h : ∀ u, Q u t')

/-- Two runs whose steps keep `R` end in states of which `Q` holds. -/
theorem runToIdle_agree {R Q : State → State → Prop}
    (hstep : ∀ s s' t t', R s s' → step s = .next t → step s' = .next t' → PairStep R Q t t')
    {s s' t t' : State} {fuel fuel' : Nat} (hR : R s s') (hp : s.phase ≠ .idle) (hp' : s'.phase ≠ .idle)
    (hrun : runToIdle fuel s = .next t) (hrun' : runToIdle fuel' s' = .next t')
    (ht : t.phase = .idle) (ht' : t'.phase = .idle) : Q t t' := by
  induction fuel generalizing s s' fuel' with
  | zero =>
    obtain ⟨_, _, h, -⟩ := runToIdle_inv hp ht hrun
    nomatch h
  | succ n ih =>
    obtain ⟨m, u, hm, hst, hrun⟩ := runToIdle_inv hp ht hrun
    obtain ⟨m', u', -, hst', hrun'⟩ := runToIdle_inv hp' ht' hrun'
    obtain rfl : n = m := by omega
    cases hstep s s' u u' hR hst hst' with
    | bothRun h h' hR => exact ih hR h h' hrun hrun'
    | bothEnd h h' hq => exact runToIdle_of_idle h hrun ▸ runToIdle_of_idle h' hrun' ▸ hq
    | leftEnds h hq => exact runToIdle_of_idle h hrun ▸ hq t'
    | rightEnds h hq => exact runToIdle_of_idle h hrun' ▸ hq t

/-! ### The bounds -/

theorem encode_step_exists {s : State} (hp : s.phase = .encoding) (hr : EncoderRanges s) :
    ∃ t, step s = .next t := by
  cases encode_cases hp hr with
  | literalNoRoom _ _ _ hs | matchNoRoom _ _ _ _ _ hs | tailNoRoom _ _ hs | literal _ _ _ _ hs
  | roll _ _ _ _ hs | isMatch _ _ _ _ _ _ _ hs | done _ _ _ _ hs => exact ⟨_, hs⟩

theorem decode_step_exists {s : State} (hp : s.phase = .decoding) : ∃ t, step s = .next t := by
  cases decode_cases hp with
  | litNoRoom _ _ _ hs | litTruncated _ _ _ _ hs | lit _ _ _ _ _ _ _ _ _ hs
  | refTruncated _ _ hs | extTruncated _ _ hs
  | shortFails _ _ _ _ _ hs | short _ _ _ _ _ _ _ hs
  | longFails _ _ _ _ hs | long _ _ _ _ _ _ hs
  | frameEnd _ hs => exact ⟨_, hs⟩

theorem EncodeRuns.nIn_eq {s t : State} (h : EncodeRuns s t) : t.nIn = s.nIn := by
  rw [State.nIn, h.command, State.nIn]

theorem EncodeRuns.nOut_eq {s t : State} (h : EncodeRuns s t) : t.nOut = s.nOut := by
  rw [State.nOut, h.command, State.nOut]

theorem DecodeRuns.nIn_eq {s t : State} (h : DecodeRuns s t) : t.nIn = s.nIn := by
  rw [State.nIn, h.command, State.nIn]

theorem DecodeRuns.nOut_eq {s t : State} (h : DecodeRuns s t) : t.nOut = s.nOut := by
  rw [State.nOut, h.command, State.nOut]

/-- A run of ENCODE ends within R96's bound, with what each of its steps that ends the command leaves. -/
theorem encode_run_ends {I Q : State → Prop}
    (hI : ∀ s, I s → s.phase = .encoding ∧ EncoderRanges s)
    (hend : ∀ s t, I s → step s = .next t → t.phase = .idle → Q t)
    (hkeep : ∀ s t, I s → step s = .next t → EncodeRuns s t → I t) {s : State} (hs : I s) {fuel : Nat}
    (hf : s.nIn - s.enc.inputIndex < fuel) : ∃ t, runToIdle fuel s = .next t ∧ t.phase = .idle ∧ Q t := by
  refine runToIdle_ends (bound := fun s => s.nIn - s.enc.inputIndex) (fun s hs => ?_) hs hf
  obtain ⟨hp, hr⟩ := hI s hs
  obtain ⟨t, hst⟩ := encode_step_exists hp hr
  refine ⟨by rw [hp]; decide, t, hst, ?_⟩
  rcases encode_ends_or_runs hp hr hst with hidle | hrun
  · exact .inl ⟨hidle, hend s t hs hst hidle⟩
  · refine .inr ⟨hkeep s t hs hst hrun, ?_⟩
    have hcur := hrun.cursor
    obtain ⟨-, -, hle, -⟩ := hrun.ranges
    rw [hrun.nIn_eq] at hle ⊢
    omega

/-- A run of DECODE ends within R113's bound, with what each of its steps that ends the command leaves. -/
theorem decode_run_ends {I Q : State → Prop} (hI : ∀ s, I s → s.phase = .decoding)
    (hend : ∀ s t, I s → step s = .next t → t.phase = .idle → Q t)
    (hkeep : ∀ s t, I s → step s = .next t → DecodeRuns s t → I t) {s : State} (hs : I s) {fuel : Nat}
    (hf : (s.nIn - s.dec.inputIndex) / 2 < fuel) :
    ∃ t, runToIdle fuel s = .next t ∧ t.phase = .idle ∧ Q t := by
  refine runToIdle_ends (bound := fun s => (s.nIn - s.dec.inputIndex) / 2) (fun s hs => ?_) hs hf
  have hp := hI s hs
  obtain ⟨t, hst⟩ := decode_step_exists hp
  refine ⟨by rw [hp]; decide, t, hst, ?_⟩
  rcases decode_ends_or_runs hp hst with hidle | hrun
  · exact .inl ⟨hidle, hend s t hs hst hidle⟩
  · refine .inr ⟨hkeep s t hs hst hrun, ?_⟩
    have hcur := hrun.cursor
    obtain ⟨hle, -⟩ := hrun.ranges
    rw [hrun.nIn_eq] at hle ⊢
    omega

/-- Settles O41: each iteration moves the cursor on, and the tail ends the command. -/
theorem encodeTerminates : Obligations.EncodeTerminates := by
  intro s hinv hp
  obtain ⟨t, hrun, hidle, -⟩ := encode_run_ends (I := fun s => s.phase = .encoding ∧ EncoderRanges s)
    (Q := fun _ => True) (fun _ h => h) (fun _ _ _ _ _ => trivial)
    (fun _ _ _ _ hrun => ⟨hrun.phase, hrun.ranges⟩) ⟨hp, hinv.encoderRanges hp⟩ (Nat.lt_succ_self _)
  exact ⟨t, hrun, hidle⟩

/-- Settles O42: each record moves the record pointer on by two at least, and the frame's end ends the
command. -/
theorem decodeTerminates : Obligations.DecodeTerminates := by
  intro s _ hp
  obtain ⟨t, hrun, hidle, -⟩ := decode_run_ends (I := fun s => s.phase = .decoding)
    (Q := fun _ => True) (fun _ h => h) (fun _ _ _ _ _ => trivial)
    (fun _ _ _ _ hrun => hrun.phase) hp (Nat.lt_succ_self _)
  exact ⟨t, hrun, hidle⟩

/-- Settles O33: every case of a running command answers a next state, and a presented command is
accepted or refused. -/
theorem noAccessOutOfRange : Obligations.NoAccessOutOfRange := by
  intro s hinv
  have of_next (h : ∃ t, step s = .next t) :
      (∀ f, step s ≠ .fault f) ∧ (s.phase ≠ .idle → ∃ t, step s = .next t) := by
    obtain ⟨t, hst⟩ := h
    exact ⟨fun f hf => (nomatch hst.symm.trans hf), fun _ => ⟨t, hst⟩⟩
  cases hp : s.phase with
  | encoding => exact hp ▸ of_next (encode_step_exists hp (hinv.encoderRanges hp))
  | decoding => exact hp ▸ of_next (decode_step_exists hp)
  | idle =>
    refine ⟨fun f hf => ?_, absurd rfl⟩
    cases hpres : s.presented with
    | none => exact nomatch (step_idle_wait hp hpres).symm.trans hf
    | some r =>
      rw [step_idle_run hp hpres] at hf
      cases command_cases r hp with
      | refused _ hs | encodeEmpty _ _ _ _ hs | encodeNoOut _ _ _ _ _ hs | encodeStarts _ _ _ _ _ hs
      | decodeEmpty _ _ _ _ hs | decodeStarts _ _ _ _ hs => exact nomatch hs.symm.trans hf

end Sys2Proof.Safety
end

section
/-! PROOF. A command from its issue: what the host lends, what a legal command starts, and what becomes of
the others (42_commands R120 to R123, 40_encoder R71 to R73, 41_decoder R101, 70_reset R152 to R156). -/

namespace Sys2Proof.Machine

open Sys2Proof.Safety

/-! ### A legal command starts -/

theorem exec_encode_legal {s : State} {nIn nOut : Word32} {c : BitVec 1} (hp : s.phase = .idle)
    (hl : lengthsTrue s nIn.toNat nOut.toNat = true) (ho : overlap s nIn.toNat nOut.toNat = false) :
    exec (.encode nIn nOut c) s =
      if nIn.toNat = 0 then .next (returnOk 0 (encodeAccepted ⟨0#1, nIn, nOut, c⟩ s))
      else if nOut.toNat = 0 then
        .next (errorEntry .insufficientBuffer (encodeAccepted ⟨0#1, nIn, nOut, c⟩ s))
      else .next (encodeBegun ⟨0#1, nIn, nOut, c⟩ s) := by
  show acceptCommand ⟨0#1, nIn, nOut, c⟩ .encoding startEncode s = _
  rw [acceptCommand, if_neg (not_not_intro hp), if_neg (by simpa using hl), if_neg (by simpa using ho),
    startEncode_eq]
  split_ifs <;> rfl

theorem exec_decode_legal {s : State} {nIn nOut : Word32} {c : BitVec 1} (hp : s.phase = .idle)
    (hl : lengthsTrue s nIn.toNat nOut.toNat = true) (ho : overlap s nIn.toNat nOut.toNat = false) :
    exec (.decode nIn nOut c) s =
      if nIn.toNat = 0 then .next (returnOk 0 (decodeAccepted ⟨1#1, nIn, nOut, c⟩ s))
      else .next (decodeAccepted ⟨1#1, nIn, nOut, c⟩ s) := by
  show acceptCommand ⟨1#1, nIn, nOut, c⟩ .decoding startDecode s = _
  rw [acceptCommand, if_neg (not_not_intro hp), if_neg (by simpa using hl), if_neg (by simpa using ho),
    startDecode_eq]
  split_ifs <;> rfl

/-- A presented command is accepted, by its operation, as its own record. -/
theorem exec_decodeCommand (r : CommandRecord) (s : State) :
    ∃ p start, exec (decodeCommand r) s = acceptCommand r p start s := by
  obtain ⟨op, nIn, nOut, c⟩ := r
  rcases op_cases op with rfl | rfl
  · exact ⟨.encoding, startEncode, rfl⟩
  · exact ⟨.decoding, startDecode, rfl⟩

theorem toNat_eq_zero_iff (w : Word32) : w.toNat = 0 ↔ w = 0#32 := by bv_omega

/-! ### The end of a command -/

/-- What the end of a command leaves, in the words of the claims. -/
theorem endsWith_endCommand (st : Status) (w : Word32) (kept : Nat) (s : State) :
    EndsWith s (endCommand st w kept s) st w kept := by
  refine ⟨rfl, rfl, rfl, rfl, rfl, fun a hlo hhi => ?_, fun a ha => ?_⟩
  · rw [endCommand_output, Memory.read_forget, if_pos ⟨hlo, hhi⟩]
  · rw [endCommand_output, Memory.read_forget, if_neg (by omega)]

/-- Settles O21: error entry is an end of the command that keeps no byte of OUT. -/
theorem errorLeavesOutUnspecified : Obligations.ErrorLeavesOutUnspecified :=
  fun e s => endsWith_endCommand e 0#32 0 s

/-! ### The start of each command -/

/-- Settles O17: a legal DECODE is accepted, and its opening test is that of the empty frame. -/
theorem decodeStarts : Obligations.DecodeStarts := by
  intro nIn nOut c s hp hl ho begun
  have hx := exec_decode_legal (c := c) hp hl ho
  have hzero := toNat_eq_zero_iff nIn
  refine ⟨fun h0 => ?_, fun h0 => ⟨_, ?_, endsWith_endCommand .ok 0#32 0 begun⟩⟩
  · rw [hx, if_neg (hzero.not.mpr h0)]
    rfl
  · rw [hx, if_pos (hzero.mpr h0)]
    rfl

/-- Settles O18: a legal ENCODE is accepted, and its opening tests come in their order. -/
theorem encodeStarts : Obligations.EncodeStarts := by
  intro nIn nOut c s hp hl ho accepted
  have hx := exec_encode_legal (c := c) hp hl ho
  have hzero := toNat_eq_zero_iff nIn
  have hzero' := toNat_eq_zero_iff nOut
  refine ⟨fun h0 => ⟨_, ?_, endsWith_endCommand .ok 0#32 0 accepted⟩, fun h0 h1 => ?_,
    fun h0 h1 => ⟨encodeBegun ⟨0#1, nIn, nOut, c⟩ s, ?_, rfl, rfl, fun h3 => ?_⟩⟩
  · rw [hx, if_pos (hzero.mpr h0)]
    rfl
  · rw [hx, if_neg (hzero.not.mpr h0), if_pos (hzero'.mpr h1)]
    rfl
  · rw [hx, if_neg (hzero.not.mpr h0), if_neg (hzero'.not.mpr h1)]
  · exact hvalAt_eq (s := encodeAccepted ⟨0#1, nIn, nOut, c⟩ s) ((Nat.zero_add 3).trans_le h3)

/-- Settles O19: while a command runs neither the host's move nor the acceptance does anything. -/
theorem busyCommandHasNoEffect : Obligations.BusyCommandHasNoEffect := by
  intro s r hp
  obtain ⟨p, start, hx⟩ := exec_decodeCommand r s
  exact ⟨if_neg hp, hx.trans (if_pos hp)⟩

theorem overlap_iff (s : State) (nIn nOut : Nat) :
    overlap s nIn nOut = true ↔ ∃ x, s.inRegion.base ≤ x ∧ x < s.inRegion.base + nIn
      ∧ s.outRegion.base ≤ x ∧ x < s.outRegion.base + nOut := by
  simp only [overlap, Bool.and_eq_true, decide_eq_true_eq]
  constructor
  · rintro ⟨⟨⟨h1, h2⟩, h3⟩, h4⟩
    exact ⟨max s.inRegion.base s.outRegion.base, by omega⟩
  · rintro ⟨x, h1, h2, h3, h4⟩
    omega

theorem lengthsTrue_iff (s : State) (nIn nOut : Nat) :
    lengthsTrue s nIn nOut = true ↔ nIn ≤ s.inRegion.extent ∧ nOut ≤ s.outRegion.extent := by
  simp [lengthsTrue]

/-- No start of a command refuses it. -/
theorem outcome_ne_refused (r : Run State) (f : Refusal) : r.outcome ≠ .refused f := by
  match r with
  | .ok _ | .error (.ended _) | .error (.fault _) => exact nofun

/-- Settles O20: the two tests of acceptance, the lengths first. -/
theorem illegalCommandRefused : Obligations.IllegalCommandRefused := by
  intro s r hp
  obtain ⟨p, start, hx⟩ := exec_decodeCommand r s
  rw [← overlap_iff, hx]
  rcases acceptCommand_cases r p start s with ⟨hbusy, -⟩ | ⟨-, hl, h⟩ | ⟨-, hl, ho, h⟩ | ⟨-, hl, ho, h⟩
  · exact absurd hp hbusy
  · have hfalse := (lengthsTrue_iff s r.nIn.toNat r.nOut.toNat).not.mp (by simp [hl])
    exact ⟨fun _ => h, fun h1 h2 => absurd ⟨h1, h2⟩ hfalse⟩
  · obtain ⟨h1, h2⟩ := (lengthsTrue_iff s _ _).mp hl
    exact ⟨fun hlong => by omega, fun _ _ => iff_of_true ho h⟩
  · obtain ⟨h1, h2⟩ := (lengthsTrue_iff s _ _).mp hl
    refine ⟨fun hlong => by omega, fun _ _ => iff_of_false (by simp [ho]) ?_⟩
    rw [h]
    exact outcome_ne_refused _ _

/-! ### A command over regions the host lends -/

/-- The state after the host lends these regions. -/
def lentTo (inBase : Nat) (bytes : List Byte) (outBase outExtent : Nat) (s : State) : State :=
  { s with
    input := Memory.ofBytes s.freeCount bytes
    output := { base := s.freeCount + 1, marks := [], cells := [] }
    inRegion := { base := inBase, extent := bytes.length }
    outRegion := { base := outBase, extent := outExtent }
    freeCount := s.freeCount + 2 }

/-- The block with this command presented to it. -/
def offered (r : CommandRecord) (s : State) : State := { s with presented := some r }

theorem hostLend_of_idle {s : State} (hp : s.phase = .idle) (inBase : Nat) (bytes : List Byte)
    (outBase outExtent : Nat) :
    hostLend inBase bytes outBase outExtent s = .next (lentTo inBase bytes outBase outExtent s) := if_pos hp

theorem hostLend_next {s s1 : State} {inBase : Nat} {bytes : List Byte} {outBase outExtent : Nat}
    (h : hostLend inBase bytes outBase outExtent s = .next s1) :
    s.phase = .idle ∧ s1 = lentTo inBase bytes outBase outExtent s := by
  unfold hostLend at h
  split at h
  next hp => exact ⟨hp, (Host.Outcome.next.inj h).symm⟩
  next => nomatch h

theorem step_hostPresent {s : State} (hp : s.phase = .idle) (r : CommandRecord) :
    step (hostPresent r s) = exec (decodeCommand r) (offered r s) := by
  rw [hostPresent, if_pos hp]
  exact step_idle_run hp rfl

theorem runCommand_of_exec {s u : State} {r : CommandRecord} (hp : s.phase = .idle)
    (h : exec (decodeCommand r) (offered r s) = .next u) (fuel : Nat) :
    runCommand fuel r s = runToIdle fuel u := by
  rw [runCommand, step_hostPresent hp, h]

theorem runCommand_next {s t : State} {r : CommandRecord} {fuel : Nat} (hp : s.phase = .idle)
    (h : runCommand fuel r s = .next t) :
    ∃ u, exec (decodeCommand r) (offered r s) = .next u ∧ runToIdle fuel u = .next t := by
  rw [runCommand, step_hostPresent hp] at h
  cases hx : exec (decodeCommand r) (offered r s) with
  | next u => exact ⟨u, rfl, by rwa [hx] at h⟩
  | fault f => rw [hx] at h; nomatch h
  | refused f => rw [hx] at h; nomatch h

theorem toNat_ofNat_length {bytes : List Byte} (h : bytes.length ≤ Config.nMax) :
    (BitVec.ofNat 32 bytes.length).toNat = bytes.length := by
  unfold Config.nMax at h
  rw [BitVec.toNat_ofNat, Nat.mod_eq_of_lt (by omega)]

/-- The record of a command whose `n_in` is the length of these bytes. -/
def recordFor (op : BitVec 1) (bytes : List Byte) (nOut : Word32) (c : BitVec 1) : CommandRecord :=
  ⟨op, BitVec.ofNat 32 bytes.length, nOut, c⟩

theorem recordFor_nIn {op : BitVec 1} {bytes : List Byte} {nOut : Word32} {c : BitVec 1}
    (h : bytes.length ≤ Config.nMax) : (recordFor op bytes nOut c).nIn.toNat = bytes.length :=
  toNat_ofNat_length h

theorem lent_lengthsTrue {inBase outBase : Nat} {bytes : List Byte} {nOut : Word32} {s : State}
    (r : CommandRecord) (hlen : bytes.length ≤ Config.nMax) :
    lengthsTrue (offered r (lentTo inBase bytes outBase nOut.toNat s))
      (BitVec.ofNat 32 bytes.length).toNat nOut.toNat = true := by
  rw [toNat_ofNat_length hlen, lengthsTrue_iff]
  exact ⟨Nat.le_refl _, Nat.le_refl _⟩

/-- OUT lent above IN shares no byte with it. -/
theorem lent_disjoint {inBase outBase : Nat} {bytes : List Byte} {nOut : Word32} {s : State}
    (r : CommandRecord) (hlen : bytes.length ≤ Config.nMax) (hdisj : inBase + bytes.length ≤ outBase) :
    overlap (offered r (lentTo inBase bytes outBase nOut.toNat s))
      (BitVec.ofNat 32 bytes.length).toNat nOut.toNat = false := by
  rw [toNat_ofNat_length hlen, ← Bool.not_eq_true, overlap_iff]
  rintro ⟨x, -, h2, h3, -⟩
  have hin : x < inBase + bytes.length := h2
  have hout : outBase ≤ x := h3
  omega

/-- ENCODE over regions lent with OUT above IN is accepted. -/
theorem exec_encode_lent {s : State} {inBase outBase : Nat} {bytes : List Byte} {nOut : Word32}
    {c : BitVec 1} (hp : s.phase = .idle) (hlen : bytes.length ≤ Config.nMax)
    (hdisj : inBase + bytes.length ≤ outBase) :
    exec (decodeCommand (recordFor 0#1 bytes nOut c))
        (offered (recordFor 0#1 bytes nOut c) (lentTo inBase bytes outBase nOut.toNat s)) =
      let u := offered (recordFor 0#1 bytes nOut c) (lentTo inBase bytes outBase nOut.toNat s)
      if bytes.length = 0 then .next (returnOk 0 (encodeAccepted (recordFor 0#1 bytes nOut c) u))
      else if nOut.toNat = 0 then
        .next (errorEntry .insufficientBuffer (encodeAccepted (recordFor 0#1 bytes nOut c) u))
      else .next (encodeBegun (recordFor 0#1 bytes nOut c) u) := by
  have hx := exec_encode_legal (c := c) (s := offered (recordFor 0#1 bytes nOut c)
    (lentTo inBase bytes outBase nOut.toNat s)) hp (lent_lengthsTrue _ hlen) (lent_disjoint _ hlen hdisj)
  rw [toNat_ofNat_length hlen] at hx
  exact hx

/-- DECODE over regions lent with OUT above IN is accepted. -/
theorem exec_decode_lent {s : State} {inBase outBase : Nat} {bytes : List Byte} {nOut : Word32}
    {c : BitVec 1} (hp : s.phase = .idle) (hlen : bytes.length ≤ Config.nMax)
    (hdisj : inBase + bytes.length ≤ outBase) :
    exec (decodeCommand (recordFor 1#1 bytes nOut c))
        (offered (recordFor 1#1 bytes nOut c) (lentTo inBase bytes outBase nOut.toNat s)) =
      let u := offered (recordFor 1#1 bytes nOut c) (lentTo inBase bytes outBase nOut.toNat s)
      if bytes.length = 0 then .next (returnOk 0 (decodeAccepted (recordFor 1#1 bytes nOut c) u))
      else .next (decodeAccepted (recordFor 1#1 bytes nOut c) u) := by
  have hx := exec_decode_legal (c := c) (s := offered (recordFor 1#1 bytes nOut c)
    (lentTo inBase bytes outBase nOut.toNat s)) hp (lent_lengthsTrue _ hlen) (lent_disjoint _ hlen hdisj)
  rw [toNat_ofNat_length hlen] at hx
  exact hx

end Sys2Proof.Machine
end

section
/-! PROOF. DECODE of a whole frame (41_decoder section 1): records can be read off one way only, so a frame stands for
one byte string at most, and a running DECODE fails on a valid frame only when that string does not fit. -/

namespace Sys2Proof.Safety

open Sys2Proof.Machine

/-! ### Records are read one way only -/

theorem Records.cons {i : Instr} {is : List Instr} (h : Records (i :: is)) :
    (i.isRecord = true ∧ i.wellFormed = true) ∧ Records is :=
  List.forall_mem_cons.mp h

/-- A sequence of records whose words begin with those of another begins with that other. -/
theorem records_prefix {is ks : List Instr} {rest : List Byte} (his : Records is) (hks : Records ks)
    (h : frameBytes is ++ rest = frameBytes ks) :
    ∃ js, ks = is ++ js ∧ Records js ∧ frameBytes js = rest := by
  induction is generalizing ks with
  | nil => exact ⟨ks, rfl, hks, h.symm⟩
  | cons i is ih =>
    obtain ⟨⟨hi, hiw⟩, hist⟩ := his.cons
    have hcons (j : Instr) (js : List Instr) : frameBytes (j :: js) = encodeRecord j ++ frameBytes js :=
      List.flatMap_cons ..
    rw [hcons, List.append_assoc] at h
    have hdec := decodeRecord_encodeRecord hi hiw (frameBytes is ++ rest)
    cases ks with
    | nil =>
      rw [h] at hdec
      nomatch hdec
    | cons k ks =>
      obtain ⟨⟨hk, hkw⟩, hks⟩ := hks.cons
      rw [h, hcons, decodeRecord_encodeRecord hk hkw] at hdec
      obtain ⟨rfl, htail⟩ : k = i ∧ frameBytes ks = frameBytes is ++ rest := by simpa using hdec
      obtain ⟨js, rfl, hjs⟩ := ih hist hks htail.symm
      exact ⟨js, rfl, hjs⟩

/-- A frame stands for one byte string at most. -/
theorem StandsFor.unique {frame bytes bytes' : List Byte} (h : StandsFor frame bytes)
    (h' : StandsFor frame bytes') : bytes = bytes' := by
  obtain ⟨is, his, hf, hx⟩ := h
  obtain ⟨ks, hks, hf', hx'⟩ := h'
  obtain ⟨js, rfl, hjs, hnil⟩ := records_prefix (rest := []) his hks (by rw [List.append_nil, ← hf, hf'])
  have hempty : js = [] := by
    cases js with
    | nil => rfl
    | cons j js =>
      obtain ⟨⟨hj, hjw⟩, -⟩ := hjs.cons
      have hlen := encodeRecord_length hj hjw
      have hnil' : encodeRecord j ++ frameBytes js = [] := hnil
      rw [(List.append_eq_nil_iff.mp hnil').1] at hlen
      exact absurd hlen (by decide)
  rw [hempty, List.append_nil, hx] at hx'
  exact Option.some.inj hx'

/-! ### How much a record produces -/

theorem expandMatch_some {out out' : List Byte} {off : Off} {n : Nat}
    (h : expandMatch out off n = some out') : distance off ≤ out.length ∧ out'.length = out.length + n := by
  unfold expandMatch at h
  split at h
  next hd =>
    obtain rfl := Option.some.inj h
    exact ⟨hd, by simp⟩
  next => nomatch h

theorem expandRecord_length {i : Instr} {out out' : List Byte} (hi : RecordForm i)
    (h : expandRecord out i = some out') : out'.length = out.length + produced i := by
  cases hi with
  | lit ls _ _ =>
    obtain rfl := Option.some.inj h
    exact List.length_append
  | short l off h1 h6 =>
    rw [expandRecord_shortRef out l off h1 h6] at h
    rw [(expandMatch_some h).2, produced_shortRef off h1 h6]
  | long off ext => exact (expandMatch_some h).2

theorem expandFrame_length_le {is : List Instr} {out bytes : List Byte} (his : Records is)
    (h : expandFrame is out = some bytes) : out.length ≤ bytes.length := by
  induction is generalizing out with
  | nil => exact (congrArg List.length (Option.some.inj h)).le
  | cons i is ih =>
    obtain ⟨⟨hi, hw⟩, his⟩ := his.cons
    rw [expandFrame] at h
    cases hx : expandRecord out i with
    | none => rw [hx] at h; nomatch h
    | some out' =>
      rw [hx] at h
      have hlen := expandRecord_length (recordForm hi hw) hx
      have := ih his h
      omega

/-- No record produces more than 88 bytes for each of its own (41_decoder R113). -/
theorem produced_le {i : Instr} (hi : RecordForm i) : produced i ≤ 88 * (encodeRecord i).length := by
  cases hi with
  | lit ls _ _ =>
    rw [produced, encodeRecord, List.length_cons]
    omega
  | short l off h1 h6 =>
    rw [produced_shortRef off h1 h6, shortRef_length]
    omega
  | long off ext =>
    have := ext.isLt
    show ext.toNat + 9 ≤ 88 * 3
    omega

/-! ### The causes of an error on a valid record -/

/-- A record whose words are whole and whose source is in the output is not corrupt, and fails for room
only when what it produces does not fit. -/
theorem causes_of_record {s : State} {i : Instr} {out : List Byte} (hp : s.phase = .decoding)
    (hi : RecordForm i) (hwords : s.input.slice s.dec.inputIndex (encodeRecord i).length = encodeRecord i)
    (hfits : s.dec.inputIndex + (encodeRecord i).length ≤ s.nIn)
    (hx : expandRecord (s.output.slice 0 s.dec.outputIndex) i = some out) :
    ¬ DataCorruptionCause s ∧ (InsufficientBufferCause s → s.nOut < out.length) := by
  have hlen := expandRecord_length hi hx
  rw [Memory.slice_length] at hlen
  rw [dataCorruptionCause_decoding hp rfl rfl rfl, insufficientBufferCause_decoding hp rfl rfl, hlen]
  cases hi with
  | lit ls h1 h32 =>
    rw [encodeRecord, List.length_cons, Memory.slice_cons] at hwords
    rw [encodeRecord, List.length_cons] at hfits
    have hc : (s.input.read s.dec.inputIndex).toNat = ls.length - 1 := by
      rw [(List.cons.inj hwords).1, control_lit ls h1 h32, BitVec.toNat_ofNat]
      omega
    rw [produced, hc]
    omega
  | short l off h1 h6 =>
    have hd := (expandMatch_some (expandRecord_shortRef _ l off h1 h6 ▸ hx)).1
    rw [Memory.slice_length, distance] at hd
    rw [shortRef_length] at hfits
    rw [shortRef_length, encodeRecord_shortRef_class off h1 h6, Memory.slice_cons, Memory.slice_cons] at hwords
    obtain ⟨hc, hrest⟩ := List.cons.inj hwords
    have hclass : (s.input.read s.dec.inputIndex).toNat / 32 = l.toNat := by
      rw [← ctrlClass_toNat, hc, ctrlClass_ctrlByte]
    have hlow : (s.input.read s.dec.inputIndex).toNat % 32 = off.toNat / 256 := by
      rw [← ctrlLow_toNat, hc, ctrlLow_ctrlByte, offHi_toNat]
    have hlo : (s.input.read (s.dec.inputIndex + 1)).toNat = off.toNat % 256 := by
      rw [(List.cons.inj hrest).1, offLo_toNat]
    rw [produced_shortRef off h1 h6, hlo]
    omega
  | long off ext =>
    have hd := (expandMatch_some hx).1
    rw [Memory.slice_length, distance] at hd
    have hfits : s.dec.inputIndex + 3 ≤ s.nIn := hfits
    have hwords : s.input.slice s.dec.inputIndex 3 = [ctrlByte 7#3 (offHi off), ext, offLo off] := hwords
    rw [Memory.slice_cons, Memory.slice_cons, Memory.slice_cons] at hwords
    obtain ⟨hc, hrest⟩ := List.cons.inj hwords
    obtain ⟨hext, hrest⟩ := List.cons.inj hrest
    have hclass : (s.input.read s.dec.inputIndex).toNat / 32 = 7 := by
      rw [← ctrlClass_toNat, hc, ctrlClass_ctrlByte]
      rfl
    have hlow : (s.input.read s.dec.inputIndex).toNat % 32 = off.toNat / 256 := by
      rw [← ctrlLow_toNat, hc, ctrlLow_ctrlByte, offHi_toNat]
    have hlo : (s.input.read (s.dec.inputIndex + 2)).toNat = off.toNat % 256 := by
      rw [(List.cons.inj hrest).1, offLo_toNat]
    rw [produced, hext, hlo]
    omega

/-- What is left of a valid frame at a record boundary: records that complete the output to `bytes`. -/
def Remaining (s : State) (bytes : List Byte) : Prop :=
  ∃ js, Records js ∧ s.input.slice s.dec.inputIndex (s.nIn - s.dec.inputIndex) = frameBytes js
    ∧ expandFrame js (s.output.slice 0 s.dec.outputIndex) = some bytes

theorem remaining_of_standsFor {s : State} {bytes : List Byte} (hr : DecoderRanges s)
    (hs : DecodedPrefix s) (hb : StandsFor (s.input.slice 0 s.nIn) bytes) : Remaining s bytes := by
  obtain ⟨hin, -⟩ := hr
  obtain ⟨is, his, hf, hx⟩ := hs
  obtain ⟨ks, hks, hf', hx'⟩ := hb
  have hsplit : s.input.slice 0 s.nIn = s.input.slice 0 s.dec.inputIndex
      ++ s.input.slice s.dec.inputIndex (s.nIn - s.dec.inputIndex) := by
    conv_lhs => rw [show s.nIn = s.dec.inputIndex + (s.nIn - s.dec.inputIndex) by omega]
    rw [Memory.slice_add, Nat.zero_add]
  rw [hsplit, hf] at hf'
  obtain ⟨js, rfl, hjs, hrest⟩ := records_prefix his hks hf'
  refine ⟨js, hjs, hrest.symm, ?_⟩
  rwa [expandFrame_append, hx, Option.bind_some] at hx'

theorem causes_of_remaining {s : State} {bytes : List Byte} (hp : s.phase = .decoding)
    (h : Remaining s bytes) :
    ¬ DataCorruptionCause s ∧ (InsufficientBufferCause s → s.nOut < bytes.length) := by
  obtain ⟨js, hjs, hwords, hx⟩ := h
  have hlen := congrArg List.length hwords
  rw [Memory.slice_length] at hlen
  cases js with
  | nil =>
    rw [dataCorruptionCause_decoding hp rfl rfl rfl, insufficientBufferCause_decoding hp rfl rfl]
    have : s.nIn - s.dec.inputIndex = 0 := hlen
    omega
  | cons i js =>
    obtain ⟨⟨hi, hw⟩, hjs⟩ := hjs.cons
    have hlen2 := encodeRecord_length hi hw
    have happ : frameBytes (i :: js) = encodeRecord i ++ frameBytes js := List.flatMap_cons ..
    rw [happ, List.length_append] at hlen
    have hhead : s.input.slice s.dec.inputIndex (encodeRecord i).length = encodeRecord i := by
      rw [happ, hlen, Memory.slice_add] at hwords
      exact List.append_inj_left hwords (Memory.slice_length ..)
    rw [expandFrame] at hx
    cases hout : expandRecord (s.output.slice 0 s.dec.outputIndex) i with
    | none => rw [hout] at hx; nomatch hx
    | some out =>
      rw [hout] at hx
      obtain ⟨hc, hb⟩ := causes_of_record hp (recordForm hi hw) hhead (by omega) hout
      exact ⟨hc, fun h => (hb h).trans_le (expandFrame_length_le hjs hx)⟩

/-! ### A running DECODE of a frame -/

/-- DECODE of `frame` into `nOut` bytes, at a record boundary. -/
structure Decoding (frame : List Byte) (nOut : Nat) (s : State) : Prop where
  phase : s.phase = .decoding
  frame_eq : s.input.slice 0 s.nIn = frame
  nOut_eq : s.nOut = nOut
  ranges : DecoderRanges s
  decoded : DecodedPrefix s
  growth : s.dec.outputIndex ≤ 88 * s.dec.inputIndex

/-- How DECODE of `frame` into `nOut` bytes ends. -/
inductive DecodeEnds (frame : List Byte) (nOut : Nat) (t : State) : Prop where
  /-- The frame is valid and OUT holds what it stands for. -/
  | ok (hst : t.response.status = .ok) (hle : t.response.written.toNat ≤ nOut)
      (hout : StandsFor frame (t.output.slice 0 t.response.written.toNat))
  /-- OUT has no room; a valid frame's bytes do not fit. -/
  | noRoom (hst : t.response.status = .insufficientBuffer) (hw : t.response.written = 0#32)
      (hlong : ∀ bytes, StandsFor frame bytes → nOut < bytes.length) (h88 : nOut < 88 * frame.length)
  /-- The frame is not valid. -/
  | corrupt (hst : t.response.status = .dataCorruption) (hw : t.response.written = 0#32)
      (hno : ∀ bytes, ¬ StandsFor frame bytes)

theorem Decoding.remaining {frame bytes : List Byte} {nOut : Nat} {s : State} (h : Decoding frame nOut s)
    (hb : StandsFor frame bytes) : Remaining s bytes :=
  remaining_of_standsFor h.ranges h.decoded (h.frame_eq.symm ▸ hb)

theorem Decoding.nIn_eq {frame : List Byte} {nOut : Nat} {s : State} (h : Decoding frame nOut s) :
    s.nIn = frame.length := by
  rw [← h.frame_eq, Memory.slice_length]

/-- While no record produces more than 88 bytes for each of its own, an output of 88 bytes for each frame
byte does not run out. -/
theorem Decoding.room {frame : List Byte} {nOut : Nat} {s : State} (h : Decoding frame nOut s)
    (hb : InsufficientBufferCause s) : nOut < 88 * frame.length := by
  have hgrowth := h.growth
  have hnIn := h.nIn_eq
  have hnOut := h.nOut_eq
  have hext := (s.input.read (s.dec.inputIndex + 1)).isLt
  rw [insufficientBufferCause_decoding h.phase rfl rfl] at hb
  omega

/-- A record run keeps `Decoding`. -/
theorem Decoding.run {frame : List Byte} {nOut : Nat} {s t : State} {i : Instr} (h : Decoding frame nOut s)
    (hrec : RecordRun s t i) (hrun : DecodeRuns s t) : Decoding frame nOut t where
  phase := hrun.phase
  frame_eq := by rw [hrun.nIn_eq, hrec.input, h.frame_eq]
  nOut_eq := hrun.nOut_eq.trans h.nOut_eq
  ranges := hrun.ranges
  decoded := hrec.decodedPrefix h.decoded
  growth := by
    have hform := recordForm hrec.isRecord hrec.wellFormed
    have hlen := expandRecord_length hform hrec.expands
    have hprod := produced_le hform
    have hgrowth := h.growth
    rw [Memory.slice_length, Memory.slice_length] at hlen
    rw [hrec.pointer, hlen]
    omega

/-- A step of DECODE that is no error ran a record or is the end of the frame. -/
theorem decode_result_of_ok {s t : State} (hp : s.phase = .decoding) (hst : step s = .next t)
    (hok : ∀ e, Ends s t e → e = .ok) :
    (∃ i, RecordRun s t i) ∨ (s.nIn ≤ s.dec.inputIndex ∧ t = endOfFrame s) := by
  cases decode_result hp hst with
  | failed e u he ht =>
    subst ht
    exact absurd (hok e ⟨fun hidle => (nomatch hp.symm.trans hidle.1), rfl, rfl⟩) he
  | ran i h => exact .inl ⟨i, h⟩
  | frameEnd hend ht => exact .inr ⟨hend, ht⟩

/-- One step of DECODE of a frame. -/
theorem Decoding.step {frame : List Byte} {nOut : Nat} {s t : State} (h : Decoding frame nOut s)
    (hst : step s = .next t) :
    DecodeEnds frame nOut t ∨ ∃ i, RecordRun s t i := by
  cases decode_verdict h.phase hst with
  | corrupt u ht hc hb =>
    subst ht
    exact .inl (.corrupt rfl rfl fun bytes hbytes => (causes_of_remaining h.phase (h.remaining hbytes)).1 hc)
  | noRoom u ht hc hb =>
    subst ht
    exact .inl (.noRoom rfl rfl
      (fun bytes hbytes => h.nOut_eq ▸ (causes_of_remaining h.phase (h.remaining hbytes)).2 hb) (h.room hb))
  | noError hok hc hb =>
    rcases decode_result_of_ok h.phase hst hok with hrec | ⟨hend, rfl⟩
    · exact .inr hrec
    · refine .inl (.ok rfl ?_ (h.frame_eq ▸ endOfFrame_standsFor h.ranges hend h.decoded))
      rw [endOfFrame_written h.ranges, ← h.nOut_eq]
      exact h.ranges.2

/-- DECODE of a frame ends within R113's bound, and leaves HTAB alone. -/
theorem Decoding.ends {frame : List Byte} {nOut : Nat} {s : State} (h : Decoding frame nOut s) {fuel : Nat}
    (hf : (s.nIn - s.dec.inputIndex) / 2 < fuel) :
    ∃ t, runToIdle fuel s = .next t ∧ t.phase = .idle ∧ t.htab = s.htab ∧ DecodeEnds frame nOut t := by
  refine decode_run_ends (I := fun u => Decoding frame nOut u ∧ u.htab = s.htab)
    (fun u hu => hu.1.phase) (fun u t hu hst hidle => ?_) (fun u t hu hst hrun => ?_) ⟨h, rfl⟩ hf
  · obtain ⟨hu, htab⟩ := hu
    refine ⟨(decode_step_htab hu.phase hst).trans htab, ?_⟩
    rcases hu.step hst with hend | ⟨i, hrec⟩
    · exact hend
    · exact nomatch hu.phase.symm.trans (hrec.phase.symm.trans hidle)
  · obtain ⟨hu, htab⟩ := hu
    refine ⟨?_, (decode_step_htab hu.phase hst).trans htab⟩
    cases decode_result hu.phase hst with
    | ran i hrec => exact hu.run hrec hrun
    | failed e v _ ht | frameEnd _ ht =>
      subst ht
      exact nomatch hrun.phase

/-! ### The whole command -/

/-- DECODE begins at the start of the frame. -/
theorem decoding_begun {s : State} {frame : List Byte} {nOut : Word32} {c : BitVec 1}
    (inBase outBase : Nat) (hlen : frame.length ≤ Config.nMax) :
    Decoding frame nOut.toNat (decodeAccepted (recordFor 1#1 frame nOut c)
      (offered (recordFor 1#1 frame nOut c) (lentTo inBase frame outBase nOut.toNat s))) where
  phase := rfl
  frame_eq := by
    show (Memory.ofBytes _ frame).slice 0 (recordFor 1#1 frame nOut c).nIn.toNat = frame
    rw [recordFor_nIn hlen, Memory.slice_ofBytes]
  nOut_eq := rfl
  ranges := ⟨Nat.zero_le _, Nat.zero_le _⟩
  decoded := decodedPrefix_start rfl rfl
  growth := Nat.le_refl 0

/-- A whole DECODE over regions the host lends with OUT above IN. -/
theorem runCommand_decode {s : State} {frame : List Byte} {nOut : Word32} {c : BitVec 1}
    {inBase outBase : Nat} (hp : s.phase = .idle) (hlen : frame.length ≤ Config.nMax)
    (hdisj : inBase + frame.length ≤ outBase) :
    ∃ t, runCommand (frame.length / 2 + 1) (recordFor 1#1 frame nOut c)
        (lentTo inBase frame outBase nOut.toNat s) = .next t
      ∧ t.phase = .idle ∧ t.htab = s.htab ∧ DecodeEnds frame nOut.toNat t := by
  have hx := exec_decode_lent (nOut := nOut) (c := c) hp hlen hdisj
  have hp1 : (lentTo inBase frame outBase nOut.toNat s).phase = .idle := hp
  by_cases h0 : frame.length = 0
  · obtain rfl := List.length_eq_zero_iff.mp h0
    have hrun := runCommand_of_exec hp1 (hx.trans (if_pos rfl)) (([] : List Byte).length / 2 + 1)
    rw [runToIdle_idle rfl] at hrun
    exact ⟨_, hrun, rfl, rfl, .ok rfl (Nat.zero_le _) standsFor_nil⟩
  · have hdecoding := decoding_begun (s := s) (nOut := nOut) (c := c) inBase outBase hlen
    obtain ⟨t, hrun, hidle, htab, hend⟩ := hdecoding.ends (fuel := frame.length / 2 + 1) (by
      rw [hdecoding.nIn_eq]
      exact Nat.lt_succ_of_le (Nat.div_le_div_right (Nat.sub_le ..)))
    refine ⟨t, ?_, hidle, htab, hend⟩
    rw [runCommand_of_exec hp1 (hx.trans (if_neg h0)), hrun]

/-- On a valid frame the end is decided by the length of what it stands for. -/
theorem DecodeEnds.of_standsFor {frame bytes : List Byte} {nOut : Nat} {t : State}
    (h : DecodeEnds frame nOut t) (hb : StandsFor frame bytes) :
    (bytes.length ≤ nOut → t.response.status = .ok ∧ t.response.written.toNat = bytes.length
        ∧ t.output.slice 0 bytes.length = bytes)
      ∧ (nOut < bytes.length → t.response.status = .insufficientBuffer ∧ t.response.written = 0#32) := by
  cases h with
  | ok hst hle hout =>
    have heq := hout.unique hb
    have hw : t.response.written.toNat = bytes.length := by rw [← heq, Memory.slice_length]
    exact ⟨fun _ => ⟨hst, hw, hw ▸ heq⟩, fun hlt => by omega⟩
  | noRoom hst hw hlong _ => exact ⟨fun hle => absurd (hlong bytes hb) (by omega), fun _ => ⟨hst, hw⟩⟩
  | corrupt _ _ hno => exact absurd hb (hno bytes)

/-- Settles O43: the run keeps `Decoding` to its end, and what each end says of the frame. -/
theorem decodeMeetsContract : Obligations.DecodeMeetsContract := by
  intro s frame nOut c inBase outBase hp hlen hdisj
  obtain ⟨t, hrun, hidle, htab, hend⟩ := runCommand_decode (nOut := nOut) (c := c) hp hlen hdisj
  refine ⟨_, t, hostLend_of_idle hp .., hrun, hidle, htab, fun bytes hb => hend.of_standsFor hb,
    fun hno => ?_⟩
  cases hend with
  | ok _ _ hout => exact absurd ⟨_, hout⟩ hno
  | noRoom hst hw _ h88 => exact ⟨.inl hst, hw, fun h => absurd h88 (by omega)⟩
  | corrupt hst hw _ => exact ⟨.inr hst, hw, fun _ => hst⟩

end Sys2Proof.Safety
end

section
/-! PROOF. ENCODE of a whole input: it ends with InsufficientBuffer or with a frame for the input
(40_encoder R70, R94), how far the output can run ahead of the input (95_test_vectors T1), and the exact
room of an input without repeated triples (R97). -/

namespace Sys2Proof.Safety

open Sys2Proof.Machine

/-! ### A running ENCODE of an input -/

/-- ENCODE of `input` into `nOut` bytes, at a step boundary. -/
structure Encoding (input : List Byte) (nOut : Nat) (s : State) : Prop where
  phase : s.phase = .encoding
  input_eq : s.input.slice 0 s.nIn = input
  nOut_eq : s.nOut = nOut
  ranges : EncoderRanges s
  encoded : EncodedPrefix s

/-- How ENCODE of `input` ends. -/
inductive EncodeEnds (input : List Byte) (t : State) : Prop where
  | noRoom (hst : t.response.status = .insufficientBuffer) (hw : t.response.written = 0#32)
  | ok (hst : t.response.status = .ok)
      (hout : StandsFor (t.output.slice 0 t.response.written.toNat) input)

theorem Encoding.nIn_eq {input : List Byte} {nOut : Nat} {s : State} (h : Encoding input nOut s) :
    s.nIn = input.length := by
  rw [← h.input_eq, Memory.slice_length]

theorem Encoding.run {input : List Byte} {nOut : Nat} {s t : State} (h : Encoding input nOut s)
    (hst : step s = .next t) (hrun : EncodeRuns s t) : Encoding input nOut t where
  phase := hrun.phase
  input_eq := by rw [hrun.nIn_eq, hrun.input, h.input_eq]
  nOut_eq := hrun.nOut_eq.trans h.nOut_eq
  ranges := hrun.ranges
  encoded := (encodedPrefix_step h.phase h.ranges h.encoded hst).1 hrun.phase

/-- A step that ends ENCODE fails for room or leaves a frame. -/
theorem Encoding.step_ends {input : List Byte} {nOut : Nat} {s t : State} (h : Encoding input nOut s)
    (hst : step s = .next t) (hidle : t.phase = .idle) : EncodeEnds input t := by
  cases encode_cases h.phase h.ranges with
  | literalNoRoom _ _ _ hs | matchNoRoom _ _ _ _ _ hs | tailNoRoom _ _ hs =>
    obtain rfl := next_unique hst hs
    exact .noRoom rfl rfl
  | done m _ _ _ hs =>
    have hok : t.response.status = .ok := by rw [next_unique hst hs]; rfl
    exact .ok hok (h.input_eq ▸ (encodedPrefix_step h.phase h.ranges h.encoded hst).2 hidle hok)
  | literal _ _ _ _ hs | roll _ _ _ _ hs | isMatch _ _ _ _ _ _ _ hs =>
    obtain rfl := next_unique hst hs
    exact nomatch h.phase.symm.trans hidle

/-! ### The whole command -/

/-- The state in which ENCODE of `input` begins. -/
def encodeLent (inBase : Nat) (input : List Byte) (outBase : Nat) (nOut : Word32) (c : BitVec 1)
    (s : State) : State :=
  encodeBegun (recordFor 0#1 input nOut c)
    (offered (recordFor 0#1 input nOut c) (lentTo inBase input outBase nOut.toNat s))

theorem encoding_begun {s : State} {input : List Byte} {nOut : Word32} {c : BitVec 1}
    (inBase outBase : Nat) (hlen : input.length ≤ Config.nMax) (h0 : input.length ≠ 0)
    (h1 : nOut.toNat ≠ 0) : Encoding input nOut.toNat (encodeLent inBase input outBase nOut c s) where
  phase := rfl
  input_eq := by
    show (Memory.ofBytes _ input).slice 0 (recordFor 0#1 input nOut c).nIn.toNat = input
    rw [recordFor_nIn hlen, Memory.slice_ofBytes]
  nOut_eq := rfl
  ranges := encodeRanges_begun (by rwa [recordFor_nIn hlen]) h1
  encoded := encodedPrefix_start rfl rfl rfl

/-- A whole ENCODE over regions the host lends with OUT above IN: an empty input and an empty output end at
once; else what every step keeps, `I`, and what every end leaves, `Q`, decide. -/
theorem runCommand_encode {I Q : State → Prop} {s : State} {input : List Byte} {nOut : Word32}
    {c : BitVec 1} {inBase outBase : Nat} (hp : s.phase = .idle) (hlen : input.length ≤ Config.nMax)
    (hdisj : inBase + input.length ≤ outBase)
    (hempty : input = [] → ∀ t, t.response = ⟨.ok, 0#32⟩ → Q t)
    (hfull : input ≠ [] → nOut.toNat = 0 → ∀ t, t.response = ⟨.insufficientBuffer, 0#32⟩ → Q t)
    (hI : input ≠ [] → nOut.toNat ≠ 0 → I (encodeLent inBase input outBase nOut c s))
    (hend : ∀ u t, Encoding input nOut.toNat u → I u → step u = .next t → t.phase = .idle → Q t)
    (hkeep : ∀ u t, Encoding input nOut.toNat u → I u → step u = .next t → EncodeRuns u t → I t) :
    ∃ t, runCommand (input.length + 1) (recordFor 0#1 input nOut c)
        (lentTo inBase input outBase nOut.toNat s) = .next t ∧ t.phase = .idle ∧ Q t := by
  have hx := exec_encode_lent (nOut := nOut) (c := c) hp hlen hdisj
  have hp1 : (lentTo inBase input outBase nOut.toNat s).phase = .idle := hp
  by_cases h0 : input.length = 0
  · have hrun := runCommand_of_exec hp1 (hx.trans (if_pos h0)) (input.length + 1)
    rw [runToIdle_idle rfl] at hrun
    exact ⟨_, hrun, rfl, hempty (List.length_eq_zero_iff.mp h0) _ rfl⟩
  have hne : input ≠ [] := fun h => h0 (List.length_eq_zero_iff.mpr h)
  by_cases h1 : nOut.toNat = 0
  · have hrun := runCommand_of_exec hp1 (hx.trans ((if_neg h0).trans (if_pos h1))) (input.length + 1)
    rw [runToIdle_idle rfl] at hrun
    exact ⟨_, hrun, rfl, hfull hne h1 _ rfl⟩
  · have hbegun := encoding_begun (s := s) (c := c) inBase outBase hlen h0 h1
    rw [runCommand_of_exec hp1 (hx.trans ((if_neg h0).trans (if_neg h1)))]
    refine encode_run_ends (I := fun u => Encoding input nOut.toNat u ∧ I u)
      (fun u hu => ⟨hu.1.phase, hu.1.ranges⟩) (fun u t hu hst => hend u t hu.1 hu.2 hst)
      (fun u t hu hst hrun => ⟨hu.1.run hst hrun, hkeep u t hu.1 hu.2 hst hrun⟩) ⟨hbegun, hI hne h1⟩ ?_
    have hnIn : (encodeLent inBase input outBase nOut c s).nIn = input.length := hbegun.nIn_eq
    show (encodeLent inBase input outBase nOut c s).nIn - 0 < input.length + 1
    omega

/-- Every ENCODE ends with InsufficientBuffer or with a frame for its input. -/
theorem runCommand_encode_ends {s : State} {input : List Byte} {nOut : Word32} {c : BitVec 1}
    {inBase outBase : Nat} (hp : s.phase = .idle) (hlen : input.length ≤ Config.nMax)
    (hdisj : inBase + input.length ≤ outBase) :
    ∃ t, runCommand (input.length + 1) (recordFor 0#1 input nOut c)
        (lentTo inBase input outBase nOut.toNat s) = .next t ∧ t.phase = .idle ∧ EncodeEnds input t := by
  refine runCommand_encode (I := fun _ => True) hp hlen hdisj (fun h t ht => ?_) (fun _ _ t ht => ?_)
    (fun _ _ => trivial) (fun u t hu _ hst hidle => hu.step_ends hst hidle) fun _ _ _ _ _ _ => trivial
  · refine .ok (by rw [ht]) ?_
    rw [ht, h]
    exact standsFor_nil
  · exact .noRoom (by rw [ht]) (by rw [ht])

/-- Settles O44: ENCODE ends with a frame for its input, and DECODE gives what a frame stands for. -/
theorem decodeUndoesEncode : Obligations.DecodeUndoesEncode := by
  intro s input nOut c inBase outBase hp hlen hdisj
  obtain ⟨t, hrun, hidle, hend⟩ := runCommand_encode_ends (nOut := nOut) (c := c) hp hlen hdisj
  refine ⟨_, t, hostLend_of_idle hp .., hrun, hidle, ?_⟩
  cases hend with
  | noRoom hst hw => exact .inl ⟨hst, hw⟩
  | ok hst hout =>
    refine .inr ⟨hst, hout, fun m c' inBase' outBase' hdisj' => ?_⟩
    generalize hw : t.response.written = w at hout hdisj' ⊢
    have hflen : (t.output.slice 0 w.toNat).length = w.toNat := Memory.slice_length ..
    have hfmax : (t.output.slice 0 w.toNat).length ≤ Config.nMax := by
      rw [hflen]
      exact Nat.le_of_lt_succ w.isLt
    obtain ⟨u, hrun', hidle', -, hend'⟩ := runCommand_decode (nOut := m) (c := c') (inBase := inBase')
      (outBase := outBase') hidle hfmax (by rw [hflen]; exact hdisj')
    have hrec : recordFor 1#1 (t.output.slice 0 w.toNat) m c' = ⟨1#1, w, m, c'⟩ := by
      rw [recordFor, hflen, BitVec.ofNat_toNat, BitVec.setWidth_eq]
    rw [hrec, hflen] at hrun'
    exact ⟨_, u, hostLend_of_idle hidle .., hrun', hidle', hend'.of_standsFor hout⟩

/-! ### How far the output runs ahead of the input -/

/-- The output is ahead of the input by the reserved slot and one control byte for each full run. -/
def OutputBound (s : State) : Prop :=
  s.enc.outputIndex ≤ 1 + s.enc.inputIndex + (s.enc.inputIndex - s.enc.lit) / 32

/-- No step lets the output run further ahead: a match of three bytes or more costs at most its own
length. -/
theorem outputBound_step {s t : State} (hp : s.phase = .encoding) (hr : EncoderRanges s)
    (h : OutputBound s) (hst : step s = .next t) (hrun : EncodeRuns s t) : OutputBound t := by
  have next {u : State} (hs : step s = .next u) : t = u := next_unique hst hs
  unfold OutputBound at h
  obtain ⟨-, -, -, -, hli, hlo, -, -⟩ := id hr
  cases encode_cases hp hr with
  | literalNoRoom _ _ _ hs | matchNoRoom _ _ _ _ _ hs | tailNoRoom _ _ hs | done _ _ _ _ hs =>
    obtain rfl := next hs
    exact nomatch hrun.phase
  | literal _ _ _ _ hs =>
    obtain rfl := next hs
    show s.enc.outputIndex + 1 ≤ 1 + (s.enc.inputIndex + 1) + (s.enc.inputIndex + 1 - (s.enc.lit + 1)) / 32
    omega
  | roll _ _ _ hl hs =>
    obtain rfl := next hs
    show s.enc.outputIndex + 2 ≤ 1 + (s.enc.inputIndex + 1) + (s.enc.inputIndex + 1 - 0) / 32
    omega
  | isMatch n m _ _ hn hroom _ hs =>
    obtain rfl := next hs
    have h3 : 3 ≤ n := hn.1
    have hlen := matchRecord_length s n
    show recordStart s + (matchRecord s n).length + 1
      ≤ 1 + (s.enc.inputIndex + n) + (s.enc.inputIndex + n - 0) / 32
    unfold recordStart
    split at hlen <;> split <;> omega

theorem outputBound_begun (inBase : Nat) (input : List Byte) (outBase : Nat) (nOut : Word32) (c : BitVec 1)
    (s : State) : OutputBound (encodeLent inBase input outBase nOut c s) := by
  show 1 ≤ 1 + 0 + (0 - 0) / 32
  decide

/-- With T1's room no space test fails. -/
theorem step_ends_ok_of_room {s t : State} (hp : s.phase = .encoding) (hr : EncoderRanges s)
    (h : OutputBound s) (hroom : s.nIn + s.nIn / 32 + 4 ≤ s.nOut) (hst : step s = .next t)
    (hidle : t.phase = .idle) : t.response.status = .ok := by
  unfold OutputBound at h
  have hcur := hr.2.2.1
  cases encode_cases hp hr with
  | literalNoRoom h3 _ ho _ => omega
  | matchNoRoom n h3 _ _ hno _ =>
    refine absurd ?_ hno
    show s.enc.outputIndex + 4 < s.nOut + (if s.enc.lit = 0 then 1 else 0)
    split <;> omega
  | tailNoRoom h3 hno _ => omega
  | done m _ _ _ hs => rw [next_unique hst hs]; rfl
  | literal _ _ _ _ hs | roll _ _ _ _ hs | isMatch _ _ _ _ _ _ _ hs =>
    obtain rfl := next_unique hst hs
    exact nomatch hp.symm.trans hidle

/-- Settles O47: the bound on the output index holds at every step, and with it every space test passes. -/
theorem encodeRoomAlwaysEnough : Obligations.EncodeRoomAlwaysEnough := by
  intro s input nOut c inBase outBase hp hlen hdisj hroom
  obtain ⟨t, hrun, hidle, hok⟩ := runCommand_encode (I := OutputBound) (nOut := nOut) (c := c)
    (Q := fun t => t.response.status = .ok) hp hlen hdisj (fun _ t ht => by rw [ht])
    (fun _ h0 => by omega) (fun _ _ => outputBound_begun ..)
    (fun u t hu hb hst => step_ends_ok_of_room hu.phase hu.ranges hb
      (by rw [hu.nIn_eq, hu.nOut_eq]; exact hroom) hst)
    fun u t hu hb hst => outputBound_step hu.phase hu.ranges hb hst
  exact ⟨_, t, hostLend_of_idle hp .., hrun, hidle, hok⟩

/-! ### An input without repeated triples -/

/-- No three bytes of the input occur twice. -/
def NoRepeatedTriple (input : List Byte) : Prop :=
  ∀ i j, i < j → j + 3 ≤ input.length → (input.drop i).take 3 ≠ (input.drop j).take 3

/-- Three bytes of a region, as a sublist of what it holds. -/
theorem take_drop_slice (m : Memory) {a n : Nat} (h : a + 3 ≤ n) :
    ((m.slice 0 n).drop a).take 3 = [m.read a, m.read (a + 1), m.read (a + 2)] := by
  have hsplit : m.slice 0 n = m.slice 0 a ++ (m.slice a 3 ++ m.slice (a + 3) (n - (a + 3))) := by
    conv_lhs => rw [show n = a + (3 + (n - (a + 3))) by omega]
    rw [Memory.slice_add, Memory.slice_add, Nat.zero_add]
  rw [hsplit, List.drop_left' (Memory.slice_length ..), List.take_left' (Memory.slice_length ..)]
  simp [Memory.slice_cons]

/-- A valid match is a repeated triple. -/
theorem not_validMatch {s : State} {input : List Byte} (h : NoRepeatedTriple input)
    (hin : s.input.slice 0 s.nIn = input) (h3 : s.enc.inputIndex + 3 ≤ s.nIn) : ¬ ValidMatch s := by
  rintro ⟨-, hlt, -, e0, e1, e2⟩
  subst hin
  refine h (candidate s) s.enc.inputIndex hlt (by rw [Memory.slice_length]; exact h3) ?_
  rw [take_drop_slice _ (by omega), take_drop_slice _ h3, e0, e1, e2]

/-- The cursor after literal steps only: one byte of OUT for each byte, the slot, and one for each full
run. -/
def LiteralCursor (s : State) : Prop :=
  s.enc.inputIndex ≤ s.nIn - 2 ∧ s.enc.lit = s.enc.inputIndex % 32
    ∧ s.enc.outputIndex = 1 + s.enc.inputIndex + s.enc.inputIndex / 32

/-- How ENCODE of an input of `n` bytes without repeated triples ends in `nOut` bytes. -/
def LiteralEnds (n nOut : Nat) (t : State) : Prop :=
  (4 + (n - 2) + (n - 2) / 32 ≤ nOut → t.response.status = .ok
      ∧ t.response.written.toNat = n + (n + 31) / 32)
    ∧ (nOut < 4 + (n - 2) + (n - 2) / 32 → t.response.status = .insufficientBuffer)

theorem literalCursor_step {s t : State} (hp : s.phase = .encoding) (hr : EncoderRanges s)
    (hv : s.enc.inputIndex + 3 ≤ s.nIn → ¬ ValidMatch s) (h : LiteralCursor s) (hst : step s = .next t)
    (hrun : EncodeRuns s t) : LiteralCursor t := by
  have next {u : State} (hs : step s = .next u) : t = u := next_unique hst hs
  obtain ⟨hin, hlit, hout⟩ := h
  cases encode_cases hp hr with
  | literalNoRoom _ _ _ hs | matchNoRoom _ _ _ _ _ hs | tailNoRoom _ _ hs | done _ _ _ _ hs =>
    obtain rfl := next hs
    exact nomatch hrun.phase
  | isMatch _ _ h3 hvalid => exact absurd hvalid (hv h3)
  | literal h3 _ _ hl hs =>
    obtain rfl := next hs
    show s.enc.inputIndex + 1 ≤ s.nIn - 2 ∧ s.enc.lit + 1 = (s.enc.inputIndex + 1) % 32
      ∧ s.enc.outputIndex + 1 = 1 + (s.enc.inputIndex + 1) + (s.enc.inputIndex + 1) / 32
    omega
  | roll h3 _ _ hl hs =>
    obtain rfl := next hs
    show s.enc.inputIndex + 1 ≤ s.nIn - 2 ∧ 0 = (s.enc.inputIndex + 1) % 32
      ∧ s.enc.outputIndex + 2 = 1 + (s.enc.inputIndex + 1) + (s.enc.inputIndex + 1) / 32
    omega

theorem literalCursor_ends {s t : State} (hp : s.phase = .encoding) (hr : EncoderRanges s)
    (hv : s.enc.inputIndex + 3 ≤ s.nIn → ¬ ValidMatch s) (h : LiteralCursor s) (hst : step s = .next t)
    (hidle : t.phase = .idle) : LiteralEnds s.nIn s.nOut t := by
  have next {u : State} (hs : step s = .next u) : t = u := next_unique hst hs
  obtain ⟨hin, hlit, hout⟩ := h
  have hpos := hr.1
  cases encode_cases hp hr with
  | matchNoRoom _ h3 hvalid | isMatch _ _ h3 hvalid => exact absurd hvalid (hv h3)
  | literal _ _ _ _ hs | roll _ _ _ _ hs =>
    obtain rfl := next hs
    exact nomatch hp.symm.trans hidle
  | literalNoRoom h3 _ ho hs =>
    obtain rfl := next hs
    exact ⟨fun hroom => absurd hroom (by omega), fun _ => rfl⟩
  | tailNoRoom h3 hno hs =>
    obtain rfl := next hs
    exact ⟨fun hroom => absurd hroom (by omega), fun _ => rfl⟩
  | done m h3 hroom _ hs =>
    obtain rfl := next hs
    refine ⟨fun _ => ⟨rfl, ?_⟩, fun hno => absurd hno (by omega)⟩
    rw [tailDone_written h3 hroom]
    unfold tailWritten lastRun
    split_ifs <;> omega

/-- Settles O48: without a valid match every iteration is a literal step, so the cursor is known in
advance. -/
theorem roomWithoutMatches : Obligations.RoomWithoutMatches := by
  intro s input nOut c inBase outBase hp hlen hdisj hpos htriple k
  have noMatch (u : State) (hu : Encoding input nOut.toNat u) (h3 : u.enc.inputIndex + 3 ≤ u.nIn) :
      ¬ ValidMatch u := not_validMatch htriple hu.input_eq h3
  obtain ⟨t, hrun, hidle, hend⟩ := runCommand_encode (I := LiteralCursor) (c := c)
    (Q := LiteralEnds input.length nOut.toNat) hp hlen hdisj (fun h => absurd hpos (by rw [h]; decide))
    (fun _ h0 t ht => ⟨fun hroom => absurd hroom (by omega), fun _ => by rw [ht]⟩)
    (fun _ _ => ⟨Nat.zero_le _, Nat.zero_mod 32, show 1 = 1 + 0 + 0 / 32 by decide⟩)
    (fun u t hu hc hst hidle => by
      rw [← hu.nIn_eq, ← hu.nOut_eq]
      exact literalCursor_ends hu.phase hu.ranges (noMatch u hu) hc hst hidle)
    fun u t hu hc hst => literalCursor_step hu.phase hu.ranges (noMatch u hu) hc hst
  exact ⟨_, t, hostLend_of_idle hp .., hrun, hidle, hend⟩

end Sys2Proof.Safety
end

section
/-! PROOF. What the step of ENCODE is in each case, as one equation each, and what a match step and the tail
leave (40_encoder R81 to R92). -/

namespace Sys2Proof.Machine

open Sys2Proof.Safety

/-! ### The step in each case -/

section StepEquations
variable {s : State} (hp : s.phase = .encoding)
include hp

theorem step_tail (h3 : s.nIn < s.enc.inputIndex + 3) : step s = (tail s).outcome := by
  rw [step_encoding hp, encodeStep, if_neg (by omega)]

theorem step_literalNoRoom (h3 : s.enc.inputIndex + 3 ≤ s.nIn) (hv : ¬ ValidMatch s)
    (ho : s.nOut ≤ s.enc.outputIndex) :
    step s = .next (errorEntry .insufficientBuffer (judged s false)) := by
  rw [step_iteration hp h3, iteration_literal_full h3 hv ho, outcome_raise]

theorem step_literal (h3 : s.enc.inputIndex + 3 ≤ s.nIn) (hv : ¬ ValidMatch s)
    (ho : s.enc.outputIndex < s.nOut) (hl : s.enc.lit ≠ 31) : step s = .next (afterLiteral s) := by
  rw [step_iteration hp h3, iteration_literal h3 hv ho hl, outcome_ok]

theorem step_roll (h3 : s.enc.inputIndex + 3 ≤ s.nIn) (hv : ¬ ValidMatch s)
    (ho : s.enc.outputIndex < s.nOut) (hl : s.enc.lit = 31) (hs : 32 ≤ s.enc.outputIndex) :
    step s = .next (afterRoll s) := by
  rw [step_iteration hp h3, iteration_roll h3 hv ho hl hs, outcome_ok]

theorem step_matchNoRoom {n : Nat} (h3 : s.enc.inputIndex + 3 ≤ s.nIn) (hv : ValidMatch s)
    (hn : MatchLength s n) (hroom : ¬ MatchHasRoom s) :
    step s = .next (errorEntry .insufficientBuffer (setLength n (setMaxlen (judged s true)))) := by
  obtain ⟨n', hn', hiter⟩ := iteration_match_full h3 hv (Nat.not_lt.mp hroom)
  rw [step_iteration hp h3, hiter, outcome_raise, MatchLength_unique hn hn']

theorem step_match {n : Nat} (h3 : s.enc.inputIndex + 3 ≤ s.nIn) (hv : ValidMatch s)
    (hn : MatchLength s n) (hl : s.enc.lit + 1 ≤ s.enc.outputIndex) (hroom : MatchHasRoom s) :
    ∃ m, step s = .next (afterMatch s n m) ∧ MatchOutput s n m := by
  obtain ⟨m, hiter, hm⟩ := iteration_match h3 hv hn hl hroom
  exact ⟨m, by rw [step_iteration hp h3, hiter, outcome_ok], hm⟩

theorem step_tailNoRoom (h3 : s.nIn < s.enc.inputIndex + 3) (hroom : s.nOut < s.enc.outputIndex + 3) :
    step s = .next (errorEntry .insufficientBuffer s) := by
  rw [step_tail hp h3, tail_noRoom hroom, outcome_raise]

theorem step_done (h3 : s.nIn < s.enc.inputIndex + 3) (hroom : s.enc.outputIndex + 3 ≤ s.nOut)
    (hi : s.enc.inputIndex ≤ s.nIn) (hl : s.enc.lit ≤ 31) (hs : s.enc.lit + 1 ≤ s.enc.outputIndex) :
    ∃ m, step s = .next (returnOk (tailWritten s) (tailDone s m)) ∧ TailOutput s m := by
  obtain ⟨m, htail, hm⟩ := tail_ok hroom h3 hi hl hs
  exact ⟨m, by rw [step_tail hp h3, htail, outcome_ok], hm⟩

end StepEquations

/-! ### The match step -/

theorem closedOutput_read (s : State) (a : Nat) :
    (closedOutput s).read a = if 0 < s.enc.lit ∧ a = s.enc.outputIndex - s.enc.lit - 1
      then BitVec.ofNat 8 (s.enc.lit - 1) else s.output.read a := by
  unfold closedOutput
  by_cases h0 : s.enc.lit = 0
  · rw [if_pos h0, if_neg (by omega)]
  · rw [if_neg h0, Memory.read_write]
    simp [Nat.pos_of_ne_zero h0]

/-- Settles O24: the step leaves `afterMatch`, whose OUT is the record over the closed run's. -/
theorem matchStepEffect : Obligations.MatchStepEffect := by
  intro s n hp h3 hv hn hl hroom start record
  obtain ⟨m, hst, hm⟩ := step_match hp h3 hv hn hl hroom
  refine ⟨_, hst, rfl, rfl, rfl, rfl, rfl, rfl, rfl, validMatch_off_toNat hv, hm.record, fun hlit => ?_,
    fun a hslot ha => ?_, rfl⟩
  · have hbelow : s.enc.outputIndex - s.enc.lit - 1 < recordStart s := by
      unfold recordStart
      split <;> omega
    exact (hm.others _ (.inl hbelow)).trans ((closedOutput_read ..).trans (if_pos ⟨hlit, rfl⟩))
  · exact (hm.others a ha).trans ((closedOutput_read ..).trans (if_neg fun h => hslot h.2))

/-- Settles O26: the space test fails on the state its lookup and scan left. -/
theorem matchWithoutRoomFails : Obligations.MatchWithoutRoomFails := by
  intro s hp h3 hv hroom
  obtain ⟨n, hn, -⟩ := matchLength_eq h3 hv
  exact ⟨_, step_matchNoRoom hp h3 hv hn hroom, rfl⟩

/-! ### The tail -/

/-- Settles O28: the tail fails at once, or leaves `tailDone` and returns what lies below `written`. -/
theorem tailEffect : Obligations.TailEffect := by
  intro s hp h3
  refine ⟨step_tailNoRoom hp h3, fun hroom hi hl hs => ?_⟩
  intro left run slot w
  obtain ⟨m, hst, hm⟩ := step_done hp h3 hroom hi hl hs
  have hwdef : w = if run = 0 then s.enc.outputIndex - 1
    else if run ≤ 32 then s.enc.outputIndex + left else s.enc.outputIndex + left + 1 := rfl
  have hrun : run = s.enc.lit + left := rfl
  have kept {a : Nat} (ha : a < w) : (m.forget w s.nOut s.freeCount).read a = m.read a :=
    Memory.read_forget_of_lt m ha
  refine ⟨_, hst, rfl, rfl, rfl, tailDone_written h3 hroom, rfl, rfl, fun hpos => ?slot,
    fun k hk hk' => ?literals, fun h33 => ?rolled, fun a haw hslot ha => ?below, fun a ha => ?above⟩
  case slot =>
    refine (kept ?_).trans (hm.slot hpos)
    split_ifs at hwdef <;> omega
  case literals =>
    refine (kept ?_).trans (hm.literals k hk hk')
    split_ifs at hwdef <;> omega
  case rolled =>
    obtain ⟨hctl, hnext⟩ := hm.rolled h33
    refine ⟨(kept ?_).trans hctl, (kept ?_).trans hnext⟩ <;> split_ifs at hwdef <;> omega
  case below => exact (kept haw).trans (hm.below a ha hslot)
  case above => exact (Memory.read_forget_of_ge m ha).trans (hm.above a (by omega))

end Sys2Proof.Machine
end

section
/-! PROOF. Two states of ENCODE with the same input, table and cursor make the same step: the encoder never
reads OUT (20_memory R43), and its frame depends on the input and the table only (40_encoder R93). -/

namespace Sys2Proof.Safety

open Sys2Proof.Machine

/-! ### The same input, table and cursor -/

/-- All that ENCODE reads is the same in both states. -/
structure SameCursor (s s' : State) : Prop where
  nIn : s'.nIn = s.nIn
  inputIndex : s'.enc.inputIndex = s.enc.inputIndex
  outputIndex : s'.enc.outputIndex = s.enc.outputIndex
  lit : s'.enc.lit = s.enc.lit
  input : ∀ a, a < s.nIn → s'.input.read a = s.input.read a
  table : ∀ slot, s'.htab.read slot = s.htab.read slot

section SameCursor
variable {s s' : State} (h : SameCursor s s')
include h

theorem SameCursor.symm : SameCursor s' s where
  nIn := h.nIn.symm
  inputIndex := h.inputIndex.symm
  outputIndex := h.outputIndex.symm
  lit := h.lit.symm
  input := fun a ha => (h.input a (h.nIn ▸ ha)).symm
  table := fun slot => (h.table slot).symm

theorem SameCursor.fingerprint_eq {a : Nat} (ha : a + 3 ≤ s.nIn) : fingerprintIn s' a = fingerprintIn s a := by
  unfold fingerprintIn
  rw [h.input a (by omega), h.input (a + 1) (by omega), h.input (a + 2) (by omega)]

theorem SameCursor.slotHere_eq (h3 : s.enc.inputIndex + 3 ≤ s.nIn) : slotHere s' = slotHere s := by
  unfold slotHere
  rw [h.inputIndex, h.fingerprint_eq h3]

theorem SameCursor.candidate_eq (h3 : s.enc.inputIndex + 3 ≤ s.nIn) : candidate s' = candidate s := by
  unfold candidate
  rw [h.slotHere_eq h3, h.table]

theorem SameCursor.validMatch (h3 : s.enc.inputIndex + 3 ≤ s.nIn) (hv : ValidMatch s) : ValidMatch s' := by
  obtain ⟨hpos, hlt, hoff, e0, e1, e2⟩ := hv
  unfold ValidMatch
  rw [h.candidate_eq h3, h.inputIndex]
  refine ⟨hpos, hlt, hoff, ?_, ?_, ?_⟩
  · rw [h.input _ (by omega), h.input _ (by omega), e0]
  · rw [h.input _ (by omega), h.input _ (by omega), e1]
  · rw [h.input _ (by omega), h.input _ (by omega), e2]

theorem SameCursor.matchLength {n : Nat} (h3 : s.enc.inputIndex + 3 ≤ s.nIn) (hv : ValidMatch s)
    (hn : MatchLength s n) : MatchLength s' n := by
  obtain ⟨-, hlt, -⟩ := hv
  obtain ⟨hn3, hmax, hagree, hstop⟩ := hn
  unfold MatchLength
  rw [h.candidate_eq h3, h.inputIndex, h.nIn]
  refine ⟨hn3, hmax, fun k hk => ?_, ?_⟩
  · rw [h.input _ (by omega), h.input _ (by omega), hagree k hk]
  · by_cases hend : n = min (s.nIn - s.enc.inputIndex) 264
    · exact .inl hend
    · refine .inr ?_
      rw [h.input _ (by omega), h.input _ (by omega)]
      exact hstop.resolve_left hend

theorem SameCursor.tableAfterLookup_agree (h3 : s.enc.inputIndex + 3 ≤ s.nIn) (slot : Slot) :
    (tableAfterLookup s').read slot = (tableAfterLookup s).read slot := by
  rw [tableAfterLookup_read, tableAfterLookup_read, h.slotHere_eq h3, h.inputIndex, h.table]

theorem SameCursor.seeded_agree {q : Nat} (hq : q + 3 ≤ s.nIn) {t t' : HashTable}
    (ht : ∀ slot, t'.read slot = t.read slot) (slot : Slot) :
    (seeded s' q t').read slot = (seeded s q t).read slot := by
  unfold seeded
  rw [h.fingerprint_eq hq, HashTable.read_write, HashTable.read_write, ht]

theorem SameCursor.tableAfterMatch_agree {n : Nat} (h3 : s.enc.inputIndex + 3 ≤ s.nIn) (hn : 3 ≤ n)
    (slot : Slot) :
    (tableAfterMatch s' n).read slot = (tableAfterMatch s n).read slot := by
  unfold tableAfterMatch
  rw [h.inputIndex, h.nIn]
  split
  · exact h.tableAfterLookup_agree h3 slot
  · exact h.seeded_agree (by omega) (h.seeded_agree (by omega) (h.tableAfterLookup_agree h3)) slot

theorem SameCursor.recordStart_eq : recordStart s' = recordStart s := by
  unfold recordStart
  rw [h.lit, h.outputIndex]

theorem SameCursor.matchRecord_eq (h3 : s.enc.inputIndex + 3 ≤ s.nIn) (n : Nat) :
    matchRecord s' n = matchRecord s n := by
  unfold matchRecord
  rw [h.inputIndex, h.candidate_eq h3]

theorem SameCursor.lastRun_eq : lastRun s' = lastRun s := by
  unfold lastRun
  rw [h.lit, h.nIn, h.inputIndex]

theorem SameCursor.tailWritten_eq : tailWritten s' = tailWritten s := by
  unfold tailWritten
  rw [h.lastRun_eq, h.outputIndex, h.nIn, h.inputIndex]

/-! ### What both steps write -/

/-- A byte of OUT after the same match step: written in both, or kept in both. -/
theorem SameCursor.matchOutput {n : Nat} {m m' : Memory} (h3 : s.enc.inputIndex + 3 ≤ s.nIn)
    (hm : MatchOutput s n m) (hm' : MatchOutput s' n m') (a : Nat) :
    m'.read a = m.read a ∨ (m.read a = s.output.read a ∧ m'.read a = s'.output.read a
      ∧ (a < recordStart s ∧ a ≠ s.enc.outputIndex - s.enc.lit - 1
        ∨ recordStart s + (matchRecord s n).length ≤ a)) := by
  have hother := hm.others a
  have hother' := hm'.others a
  have hrec' := hm'.record
  rw [h.recordStart_eq, h.matchRecord_eq h3] at hother' hrec'
  by_cases ha : a < recordStart s ∨ recordStart s + (matchRecord s n).length ≤ a
  · rw [hother ha, hother' ha, closedOutput_read, closedOutput_read, h.lit, h.outputIndex]
    split
    · exact .inl rfl
    next hslot =>
      refine .inr ⟨rfl, rfl, ha.imp_left fun hlt => ⟨hlt, fun heq => hslot ⟨?_, heq⟩⟩⟩
      unfold recordStart at hlt
      split at hlt <;> omega
  · left
    obtain ⟨k, rfl⟩ : ∃ k, a = recordStart s + k := ⟨a - recordStart s, by omega⟩
    have hslice := hrec'.trans hm.record.symm
    have hk : k < (matchRecord s n).length := by omega
    simpa [Memory.slice, hk] using congrArg (·[k]?) hslice

/-- A byte of OUT below `written` after the same tail: written in both, or kept in both. -/
theorem SameCursor.tailOutput {m m' : Memory} (hr : EncoderRanges s) (h3 : s.nIn < s.enc.inputIndex + 3)
    (hm : TailOutput s m) (hm' : TailOutput s' m') {a : Nat} (ha : a < tailWritten s) :
    m'.read a = m.read a ∨ (m.read a = s.output.read a ∧ m'.read a = s'.output.read a
      ∧ a < s.enc.outputIndex ∧ a ≠ s.enc.outputIndex - s.enc.lit - 1) := by
  obtain ⟨hslot, hlits, hroll, hbelow, -, -, -, -⟩ := hm
  obtain ⟨hslot', hlits', hroll', hbelow', -, -, -, -⟩ := hm'
  rw [h.lastRun_eq, h.outputIndex, h.lit] at hslot'
  rw [h.nIn, h.inputIndex, h.lit, h.outputIndex] at hlits'
  rw [h.lastRun_eq, h.inputIndex, h.outputIndex] at hroll'
  rw [h.outputIndex, h.lit] at hbelow'
  obtain ⟨-, -, hi, hl, -, hlo, -, -⟩ := hr
  have hlast : lastRun s = s.enc.lit + (s.nIn - s.enc.inputIndex) := rfl
  unfold tailWritten at ha
  by_cases hold : a < s.enc.outputIndex
  · by_cases hs : a = s.enc.outputIndex - s.enc.lit - 1
    · have hpos : 0 < lastRun s := by split_ifs at ha <;> omega
      rw [hs, hslot hpos, hslot' hpos]
      exact .inl rfl
    · exact .inr ⟨hbelow a hold hs, hbelow' a hold hs, hold, hs⟩
  · left
    obtain ⟨k, rfl⟩ : ∃ k, a = s.enc.outputIndex + k := ⟨a - s.enc.outputIndex, by omega⟩
    by_cases hk : k < s.nIn - s.enc.inputIndex ∧ s.enc.lit + k < 32
    · rw [hlits k hk.1 hk.2, hlits' k hk.1 hk.2, h.input _ (by omega)]
    · have h33 : lastRun s = 33 := by split_ifs at ha <;> omega
      have hk12 : k = 1 ∨ k = 2 := by split_ifs at ha <;> omega
      rcases hk12 with rfl | rfl
      · rw [(hroll h33).1, (hroll' h33).1]
      · rw [(hroll h33).2, (hroll' h33).2, h.input _ (by omega)]

end SameCursor

/-! ### OUT is not read -/

/-- Settles O32: in each case the step from the state with another OUT is the same case. -/
theorem encoderNeverReadsOut : Obligations.EncoderNeverReadsOut := by
  intro s t m hinv hp hst
  have hr := hinv.encoderRanges hp
  obtain ⟨-, -, hi, hl, -, hlo, -, -⟩ := id hr
  have same : SameCursor s (s.withOutput m) := ⟨rfl, rfl, rfl, rfl, fun _ _ => rfl, fun _ => rfl⟩
  have hp' : (s.withOutput m).phase = .encoding := hp
  have next {u : State} (hs : step s = .next u) : t = u := next_unique hst hs
  have forgotten (m₁ m₂ : Memory) (a : Nat) {lo : Nat}
      (hm : a < lo ∨ s.nOut ≤ a →
        m₂.read a = m₁.read a ∨ (m₁.read a = s.output.read a ∧ m₂.read a = m.read a)) :
      (m₂.forget lo s.nOut s.freeCount).read a = (m₁.forget lo s.nOut s.freeCount).read a
        ∨ ((m₁.forget lo s.nOut s.freeCount).read a = s.output.read a
          ∧ (m₂.forget lo s.nOut s.freeCount).read a = m.read a) := by
    rw [Memory.read_forget, Memory.read_forget]
    split
    · exact .inl rfl
    · exact hm (by omega)
  cases encode_cases hp hr with
  | literalNoRoom h3 hv ho hs =>
    obtain rfl := next hs
    exact ⟨_, step_literalNoRoom hp' h3 hv ho, rfl, fun a => forgotten _ _ a fun _ => .inr ⟨rfl, rfl⟩⟩
  | matchNoRoom n h3 hv hn hroom hs =>
    obtain rfl := next hs
    exact ⟨_, step_matchNoRoom hp' h3 hv hn hroom, rfl, fun a => forgotten _ _ a fun _ => .inr ⟨rfl, rfl⟩⟩
  | tailNoRoom h3 hroom hs =>
    obtain rfl := next hs
    exact ⟨_, step_tailNoRoom hp' h3 hroom, rfl, fun a => forgotten _ _ a fun _ => .inr ⟨rfl, rfl⟩⟩
  | literal h3 hv ho hl31 hs =>
    obtain rfl := next hs
    refine ⟨_, step_literal hp' h3 hv ho hl31, rfl, fun a => ?_⟩
    by_cases ha : a = s.enc.outputIndex
    · exact .inl (ha ▸ (Memory.read_write_self ..).trans (Memory.read_write_self ..).symm)
    · exact .inr ⟨Memory.read_write_of_ne _ ha _, Memory.read_write_of_ne _ ha _⟩
  | roll h3 hv ho hl31 hs =>
    obtain rfl := next hs
    refine ⟨_, step_roll hp' h3 hv ho hl31 (show 32 ≤ s.enc.outputIndex by omega), rfl, fun a => ?_⟩
    by_cases ha : a = s.enc.outputIndex - 32
    · exact .inl (ha ▸ (Memory.read_write_self ..).trans (Memory.read_write_self ..).symm)
    have rolled (m₁ : Memory) (v : Byte) :
      ((m₁.write s.enc.outputIndex v).write (s.enc.outputIndex - 32) 31#8).read a
        = (m₁.write s.enc.outputIndex v).read a := Memory.read_write_of_ne _ ha _
    by_cases ha' : a = s.enc.outputIndex
    · have written (m₁ : Memory) (v : Byte) : (m₁.write s.enc.outputIndex v).read a = v :=
        ha' ▸ Memory.read_write_self ..
      exact .inl (((rolled ..).trans (written ..)).trans ((rolled ..).trans (written ..)).symm)
    · exact .inr ⟨(rolled ..).trans (Memory.read_write_of_ne _ ha' _),
        (rolled ..).trans (Memory.read_write_of_ne _ ha' _)⟩
  | isMatch n m₁ h3 hv hn hroom hm hs =>
    obtain rfl := next hs
    obtain ⟨m₂, hst', hm'⟩ := step_match hp' h3 hv hn hlo hroom
    exact ⟨_, hst', rfl, fun a => (same.matchOutput h3 hm hm' a).imp_right fun ⟨h1, h2, _⟩ => ⟨h1, h2⟩⟩
  | done m₁ h3 hroom hm hs =>
    obtain rfl := next hs
    obtain ⟨m₂, hst', hm'⟩ := step_done hp' h3 hroom hi hl hlo
    refine ⟨_, hst', rfl, fun a => forgotten m₁ m₂ a fun ha => ?_⟩
    rcases ha with hw | hout
    · exact (same.tailOutput hr h3 hm hm' hw).imp_right fun ⟨h1, h2, _⟩ => ⟨h1, h2⟩
    · have habove : s.enc.outputIndex + 3 ≤ a := by omega
      exact .inr ⟨hm.above a habove, hm'.above a habove⟩

/-! ### The frame depends on the input and the table -/

/-- Two running ENCODEs of one input, into `n` and `n'` bytes, that have written the same so far. -/
structure SameEncode (n n' : Nat) (s s' : State) : Prop where
  phase : s.phase = .encoding
  phase' : s'.phase = .encoding
  ranges : EncoderRanges s
  ranges' : EncoderRanges s'
  nOut : s.nOut = n
  nOut' : s'.nOut = n'
  same : SameCursor s s'
  output : ∀ a, a < s.enc.outputIndex → a ≠ s.enc.outputIndex - s.enc.lit - 1 →
    s'.output.read a = s.output.read a

/-- What two ENCODEs of one input, into `n` and `n'` bytes, agree on at their ends. -/
def SameFrame (n n' : Nat) (t t' : State) : Prop :=
  (n = n' → t.response = t'.response)
    ∧ (t.response.status = .ok → t'.response.status = .ok → t.response = t'.response
      ∧ t.output.slice 0 t.response.written.toNat = t'.output.slice 0 t.response.written.toNat)

theorem sameFrame_noRoom {n n' : Nat} (u u' : State) :
    SameFrame n n' (errorEntry .insufficientBuffer u) (errorEntry .insufficientBuffer u') :=
  ⟨fun _ => rfl, nofun⟩

/-- Where only one of them has room, the two outputs are not of one size. -/
theorem sameFrame_of_left {n n' : Nat} (hn : n ≠ n') (u t' : State) :
    SameFrame n n' (errorEntry .insufficientBuffer u) t' :=
  ⟨fun h => absurd h hn, nofun⟩

theorem sameFrame_of_right {n n' : Nat} (hn : n ≠ n') (t u : State) :
    SameFrame n n' t (errorEntry .insufficientBuffer u) :=
  ⟨fun h => absurd h hn, fun _ => nofun⟩

section SameEncode
variable {n n' : Nat} {s s' : State} (h : SameEncode n n' s s')
include h

/-- The two go on with the same cursor, table and output. -/
theorem SameEncode.next {t t' : State} (hst : step s = .next t) (hst' : step s' = .next t')
    (ht : t.phase = .encoding) (ht' : t'.phase = .encoding)
    (hindex : t'.enc.inputIndex = t.enc.inputIndex) (hout : t'.enc.outputIndex = t.enc.outputIndex)
    (hlit : t'.enc.lit = t.enc.lit) (htable : ∀ slot, t'.htab.read slot = t.htab.read slot)
    (hbytes : ∀ a, a < t.enc.outputIndex → a ≠ t.enc.outputIndex - t.enc.lit - 1 →
      t'.output.read a = t.output.read a) : PairStep (SameEncode n n') (SameFrame n n') t t' := by
  obtain hidle | hrun := encode_ends_or_runs h.phase h.ranges hst
  · exact nomatch ht.symm.trans hidle
  obtain hidle | hrun' := encode_ends_or_runs h.phase' h.ranges' hst'
  · exact nomatch ht'.symm.trans hidle
  refine .bothRun (by rw [ht]; decide) (by rw [ht']; decide) ⟨ht, ht', hrun.ranges, hrun'.ranges,
    hrun.nOut_eq.trans h.nOut, hrun'.nOut_eq.trans h.nOut', ⟨?_, hindex, hout, hlit, fun a ha => ?_, htable⟩,
    hbytes⟩
  · rw [hrun'.nIn_eq, hrun.nIn_eq, h.same.nIn]
  · rw [hrun.nIn_eq] at ha
    rw [hrun'.input, hrun.input, h.same.input a ha]

/-- The literal the two append. -/
theorem SameEncode.literal_eq (h3 : s.enc.inputIndex + 3 ≤ s.nIn) :
    s'.input.read s'.enc.inputIndex = s.input.read s.enc.inputIndex := by
  rw [h.same.inputIndex, h.same.input _ (by omega)]

theorem SameEncode.literalStep (h3 : s.enc.inputIndex + 3 ≤ s.nIn) (hv : ¬ ValidMatch s) {t t' : State}
    (hst : step s = .next t) (hst' : step s' = .next t') :
    PairStep (SameEncode n n') (SameFrame n n') t t' := by
  have h3' : s'.enc.inputIndex + 3 ≤ s'.nIn := by rw [h.same.inputIndex, h.same.nIn]; exact h3
  have hv' : ¬ ValidMatch s' := fun hv' => hv (h.same.symm.validMatch h3' hv')
  have hout := h.same.outputIndex
  have hlit := h.same.lit
  have hn := h.nOut
  have hn' := h.nOut'
  obtain ⟨-, -, -, -, -, hlo, -, -⟩ := h.ranges
  by_cases ho : s.enc.outputIndex < s.nOut
  · by_cases ho' : s'.enc.outputIndex < s'.nOut
    · by_cases hl : s.enc.lit = 31
      · have hs := step_roll h.phase h3 hv ho hl (by omega)
        have hs' := step_roll h.phase' h3' hv' ho' (hlit.trans hl) (by omega)
        obtain rfl := next_unique hst hs
        obtain rfl := next_unique hst' hs'
        refine h.next hs hs' h.phase h.phase' (congrArg (· + 1) h.same.inputIndex) (congrArg (· + 2) hout) rfl
          (h.same.tableAfterLookup_agree h3) fun a ha hslot => ?_
        have ha : a < s.enc.outputIndex + 2 := ha
        have hslot : a ≠ s.enc.outputIndex + 2 - 0 - 1 := hslot
        simp only [afterRoll, Memory.read_write, hout, h.literal_eq h3]
        split
        · rfl
        · split
          · rfl
          · exact h.output a (by omega) (by omega)
      · have hs := step_literal h.phase h3 hv ho hl
        have hs' := step_literal h.phase' h3' hv' ho' (hlit ▸ hl)
        obtain rfl := next_unique hst hs
        obtain rfl := next_unique hst' hs'
        refine h.next hs hs' h.phase h.phase' (congrArg (· + 1) h.same.inputIndex) (congrArg (· + 1) hout)
          (congrArg (· + 1) hlit) (h.same.tableAfterLookup_agree h3) fun a ha hslot => ?_
        have ha : a < s.enc.outputIndex + 1 := ha
        have hslot : a ≠ s.enc.outputIndex + 1 - (s.enc.lit + 1) - 1 := hslot
        simp only [afterLiteral, Memory.read_write, hout, h.literal_eq h3]
        split
        · rfl
        · exact h.output a (by omega) (by omega)
    · obtain rfl := next_unique hst' (step_literalNoRoom h.phase' h3' hv' (Nat.not_lt.mp ho'))
      exact .rightEnds rfl fun u => sameFrame_of_right (by omega) u _
  · obtain rfl := next_unique hst (step_literalNoRoom h.phase h3 hv (Nat.not_lt.mp ho))
    by_cases ho' : s'.enc.outputIndex < s'.nOut
    · exact .leftEnds rfl fun u => sameFrame_of_left (by omega) _ u
    · obtain rfl := next_unique hst' (step_literalNoRoom h.phase' h3' hv' (Nat.not_lt.mp ho'))
      exact .bothEnd rfl rfl (sameFrame_noRoom _ _)

theorem SameEncode.matchRoom (hn : n = n') : MatchHasRoom s ↔ MatchHasRoom s' := by
  unfold MatchHasRoom
  rw [h.same.outputIndex, h.same.lit, h.nOut, h.nOut', hn]

theorem SameEncode.matchStep (h3 : s.enc.inputIndex + 3 ≤ s.nIn) (hv : ValidMatch s) {t t' : State}
    (hst : step s = .next t) (hst' : step s' = .next t') :
    PairStep (SameEncode n n') (SameFrame n n') t t' := by
  have h3' : s'.enc.inputIndex + 3 ≤ s'.nIn := by rw [h.same.inputIndex, h.same.nIn]; exact h3
  have hv' : ValidMatch s' := h.same.validMatch h3 hv
  obtain ⟨k, hk, -⟩ := matchLength_eq h3 hv
  have hk' : MatchLength s' k := h.same.matchLength h3 hv hk
  obtain ⟨-, -, -, -, -, hlo, -, -⟩ := h.ranges
  obtain ⟨-, -, -, -, -, hlo', -, -⟩ := h.ranges'
  by_cases hroom : MatchHasRoom s
  · by_cases hroom' : MatchHasRoom s'
    · obtain ⟨m, hs, hm⟩ := step_match h.phase h3 hv hk hlo hroom
      obtain ⟨m', hs', hm'⟩ := step_match h.phase' h3' hv' hk' hlo' hroom'
      obtain rfl := next_unique hst hs
      obtain rfl := next_unique hst' hs'
      have hend : recordStart s' + (matchRecord s' k).length + 1
          = recordStart s + (matchRecord s k).length + 1 := by
        rw [h.same.recordStart_eq, h.same.matchRecord_eq h3]
      refine h.next hs hs' h.phase h.phase' (congrArg (· + k) h.same.inputIndex) hend rfl
        (h.same.tableAfterMatch_agree h3 hk.1) fun a ha hslot => ?_
      have ha : a < recordStart s + (matchRecord s k).length + 1 := ha
      have hslot : a ≠ recordStart s + (matchRecord s k).length + 1 - 0 - 1 := hslot
      have hstart : recordStart s ≤ s.enc.outputIndex := by
        unfold recordStart
        split <;> omega
      obtain heq | ⟨hold, hold', ⟨hlt, hne⟩ | hge⟩ := h.same.matchOutput h3 hm hm' a
      · exact heq
      · exact hold'.trans ((h.output a (by omega) hne).trans hold.symm)
      · omega
    · obtain rfl := next_unique hst' (step_matchNoRoom h.phase' h3' hv' hk' hroom')
      exact .rightEnds rfl fun u => sameFrame_of_right (fun hn => hroom' ((h.matchRoom hn).mp hroom)) u _
  · obtain rfl := next_unique hst (step_matchNoRoom h.phase h3 hv hk hroom)
    by_cases hroom' : MatchHasRoom s'
    · exact .leftEnds rfl fun u => sameFrame_of_left (fun hn => hroom ((h.matchRoom hn).mpr hroom')) _ u
    · obtain rfl := next_unique hst' (step_matchNoRoom h.phase' h3' hv' hk' hroom')
      exact .bothEnd rfl rfl (sameFrame_noRoom _ _)

theorem SameEncode.tailStep (h3 : s.nIn < s.enc.inputIndex + 3) {t t' : State}
    (hst : step s = .next t) (hst' : step s' = .next t') :
    PairStep (SameEncode n n') (SameFrame n n') t t' := by
  have h3' : s'.nIn < s'.enc.inputIndex + 3 := by rw [h.same.inputIndex, h.same.nIn]; exact h3
  have hout := h.same.outputIndex
  have hn := h.nOut
  have hn' := h.nOut'
  obtain ⟨-, -, hi, hl, -, hlo, -, -⟩ := h.ranges
  obtain ⟨-, -, hi', hl', -, hlo', -, -⟩ := h.ranges'
  by_cases hroom : s.enc.outputIndex + 3 ≤ s.nOut
  · by_cases hroom' : s'.enc.outputIndex + 3 ≤ s'.nOut
    · obtain ⟨m, hs, hm⟩ := step_done h.phase h3 hroom hi hl hlo
      obtain ⟨m', hs', hm'⟩ := step_done h.phase' h3' hroom' hi' hl' hlo'
      obtain rfl := next_unique hst hs
      obtain rfl := next_unique hst' hs'
      have hresp : (returnOk (tailWritten s) (tailDone s m)).response
          = (returnOk (tailWritten s') (tailDone s' m')).response := by
        rw [returnOk_eq, returnOk_eq, endCommand_response, endCommand_response, h.same.tailWritten_eq]
      refine .bothEnd rfl rfl ⟨fun _ => hresp, fun _ _ => ⟨hresp, ?_⟩⟩
      rw [tailDone_written h3 hroom]
      refine Memory.slice_congr fun a ha => ?_
      rw [Nat.zero_add]
      have kept : (m.forget (tailWritten s) s.nOut s.freeCount).read a = m.read a :=
        Memory.read_forget_of_lt m ha
      have kept' : (m'.forget (tailWritten s') s'.nOut s'.freeCount).read a = m'.read a :=
        Memory.read_forget_of_lt m' (h.same.tailWritten_eq ▸ ha)
      refine kept.trans (Eq.trans ?_ kept'.symm)
      obtain heq | ⟨hold, hold', hlt, hne⟩ := h.same.tailOutput h.ranges h3 hm hm' ha
      · exact heq.symm
      · exact hold.trans ((h.output a hlt hne).symm.trans hold'.symm)
    · obtain rfl := next_unique hst' (step_tailNoRoom h.phase' h3' (Nat.not_le.mp hroom'))
      exact .rightEnds rfl fun u => sameFrame_of_right (by omega) u _
  · obtain rfl := next_unique hst (step_tailNoRoom h.phase h3 (Nat.not_le.mp hroom))
    by_cases hroom' : s'.enc.outputIndex + 3 ≤ s'.nOut
    · exact .leftEnds rfl fun u => sameFrame_of_left (by omega) _ u
    · obtain rfl := next_unique hst' (step_tailNoRoom h.phase' h3' (Nat.not_le.mp hroom'))
      exact .bothEnd rfl rfl (sameFrame_noRoom _ _)

end SameEncode

theorem sameEncode_step {n n' : Nat} (s s' t t' : State) (h : SameEncode n n' s s') (hst : step s = .next t)
    (hst' : step s' = .next t') : PairStep (SameEncode n n') (SameFrame n n') t t' := by
  by_cases h3 : s.enc.inputIndex + 3 ≤ s.nIn
  · by_cases hv : ValidMatch s
    · exact h.matchStep h3 hv hst hst'
    · exact h.literalStep h3 hv hst hst'
  · exact h.tailStep (Nat.not_le.mp h3) hst hst'

/-! ### The whole command -/

/-- What an accepted ENCODE begins with. -/
inductive EncodeBegins (r : CommandRecord) (s u : State) : Prop where
  | empty (h0 : r.nIn.toNat = 0) (hu : u = returnOk 0 (encodeAccepted r s))
  | noOut (h0 : r.nIn.toNat ≠ 0) (h1 : r.nOut.toNat = 0)
      (hu : u = errorEntry .insufficientBuffer (encodeAccepted r s))
  | begun (h0 : r.nIn.toNat ≠ 0) (h1 : r.nOut.toNat ≠ 0) (hu : u = encodeBegun r s)

theorem encodeBegins {r : CommandRecord} {s u : State}
    (hx : exec (decodeCommand r) s = .next u) (hop : r.op = 0#1) (hp : s.phase = .idle) :
    EncodeBegins r s u := by
  cases command_cases r hp with
  | refused _ hs => exact nomatch hx.symm.trans hs
  | encodeEmpty _ _ _ h0 hs => exact .empty h0 (next_unique hx hs)
  | encodeNoOut _ _ _ h0 h1 hs => exact .noOut h0 h1 (next_unique hx hs)
  | encodeStarts _ _ _ h0 h1 hs => exact .begun h0 h1 (next_unique hx hs)
  | decodeEmpty hop' | decodeStarts hop' => exact nomatch hop.symm.trans hop'

/-- Two ENCODEs of one input over equal or cleared tables begin alike. -/
theorem sameEncode_begun {s s' : State} {input : List Byte} {nOut nOut' : Word32} {c : BitVec 1}
    (inBase outBase inBase' outBase' : Nat) (hlen : input.length ≤ Config.nMax) (h0 : input.length ≠ 0)
    (h1 : nOut.toNat ≠ 0) (h1' : nOut'.toNat ≠ 0)
    (htab : c = 1#1 ∨ ∀ slot, s.htab.read slot = s'.htab.read slot) :
    SameEncode nOut.toNat nOut'.toNat (encodeLent inBase input outBase nOut c s)
      (encodeLent inBase' input outBase' nOut' c s') where
  phase := rfl
  phase' := rfl
  ranges := (encoding_begun inBase outBase hlen h0 h1).ranges
  ranges' := (encoding_begun inBase' outBase' hlen h0 h1').ranges
  nOut := rfl
  nOut' := rfl
  same := by
    refine ⟨rfl, rfl, rfl, rfl, fun a ha => ?_, fun slot => ?_⟩
    · rw [(encoding_begun inBase outBase hlen h0 h1).nIn_eq] at ha
      exact (Memory.read_ofBytes _ input ha).trans (Memory.read_ofBytes _ input ha).symm
    · show (if c = 1#1 then HashTable.cleared else s'.htab).read slot
        = (if c = 1#1 then HashTable.cleared else s.htab).read slot
      split
      · rfl
      next hc => exact ((htab.resolve_left hc) slot).symm
  output := fun a ha hslot => by
    have ha : a < 1 := ha
    have hslot : a ≠ 1 - 0 - 1 := hslot
    omega

/-- Settles O46: two runs of ENCODE from the same input and table keep the same cursor, table and output,
until one of them runs out of room. -/
theorem encodeDependsOnInputAndTable : Obligations.EncodeDependsOnInputAndTable := by
  intro s s' s1 s1' t t' input nOut nOut' c inBase outBase inBase' outBase' fuel fuel' hlen htab hlend hlend'
    hrun hrun' ht ht'
  obtain ⟨hp, rfl⟩ := hostLend_next hlend
  obtain ⟨hp', rfl⟩ := hostLend_next hlend'
  obtain ⟨u, hx, hrun⟩ := runCommand_next (s := lentTo inBase input outBase nOut.toNat s)
    (r := recordFor 0#1 input nOut c) hp hrun
  obtain ⟨u', hx', hrun'⟩ := runCommand_next (s := lentTo inBase' input outBase' nOut'.toNat s')
    (r := recordFor 0#1 input nOut' c) hp' hrun'
  have hin := toNat_ofNat_length hlen
  suffices hsame : SameFrame nOut.toNat nOut'.toNat t t' from
    ⟨fun heq => hsame.1 (congrArg _ heq), hsame.2⟩
  cases encodeBegins hx rfl hp with
  | empty h0 hu =>
    cases encodeBegins hx' rfl hp' with
    | empty _ hu' =>
      subst hu hu'
      obtain rfl := runToIdle_of_idle rfl hrun
      obtain rfl := runToIdle_of_idle rfl hrun'
      exact ⟨fun _ => rfl, fun _ _ => ⟨rfl, rfl⟩⟩
    | noOut h0' | begun h0' => exact absurd h0 h0'
  | noOut h0 h1 hu =>
    subst hu
    obtain rfl := runToIdle_of_idle rfl hrun
    cases encodeBegins hx' rfl hp' with
    | empty h0' => exact absurd h0' h0
    | noOut _ _ hu' =>
      subst hu'
      obtain rfl := runToIdle_of_idle rfl hrun'
      exact sameFrame_noRoom _ _
    | begun _ h1' => exact sameFrame_of_left (fun heq => h1' (heq.symm.trans h1)) _ _
  | begun h0 h1 hu =>
    subst hu
    cases encodeBegins hx' rfl hp' with
    | empty h0' => exact absurd h0' h0
    | noOut _ h1' hu' =>
      subst hu'
      obtain rfl := runToIdle_of_idle rfl hrun'
      exact sameFrame_of_right (fun heq => h1 (heq.trans h1')) _ _
    | begun _ h1' hu' =>
      subst hu'
      exact runToIdle_agree sameEncode_step
        (sameEncode_begun inBase outBase inBase' outBase' hlen (hin ▸ h0) h1 h1' htab) nofun nofun hrun hrun'
        ht ht'

end Sys2Proof.Safety
end

section
/-! PROOF. Two DECODEs of one frame into outputs of one size make the same steps, whatever OUT, HTAB and the
registers held (41_decoder R114). -/

namespace Sys2Proof.Safety

open Sys2Proof.Machine

/-- Two running DECODEs of one frame, into outputs of one size, that stand at the same record and have
produced the same bytes. -/
structure SameDecode (s s' : State) : Prop where
  phase : s.phase = .decoding
  phase' : s'.phase = .decoding
  ranges : DecoderRanges s
  nIn : s'.nIn = s.nIn
  nOut : s'.nOut = s.nOut
  inputIndex : s'.dec.inputIndex = s.dec.inputIndex
  input : ∀ a, a < s.nIn → s'.input.read a = s.input.read a
  output : s'.output.slice 0 s'.dec.outputIndex = s.output.slice 0 s.dec.outputIndex

/-- What two DECODEs agree on at their ends. -/
def SameResult (t t' : State) : Prop :=
  t.response = t'.response
    ∧ t.output.slice 0 t.response.written.toNat = t'.output.slice 0 t.response.written.toNat

/-- The record a step ran is what the frame bytes left decode to. -/
theorem RecordRun.decodeRecord_left {s t : State} {i : Instr} (h : RecordRun s t i) :
    ∃ rest, decodeRecord (s.input.slice s.dec.inputIndex (s.nIn - s.dec.inputIndex)) = .ok (i, rest) := by
  have hsplit : s.nIn - s.dec.inputIndex
      = (encodeRecord i).length + (s.nIn - s.dec.inputIndex - (encodeRecord i).length) := by
    have := h.fits
    have := h.pointer
    omega
  rw [hsplit, Memory.slice_add, h.words]
  exact ⟨_, decodeRecord_encodeRecord h.isRecord h.wellFormed _⟩

/-- The record a step ran had two bytes left at least. -/
theorem RecordRun.more {s t : State} {i : Instr} (h : RecordRun s t i) : s.dec.inputIndex + 2 ≤ s.nIn := by
  have := encodeRecord_length h.isRecord h.wellFormed
  have := h.fits
  have := h.pointer
  omega

/-- DECODE accepted over regions the host lent. -/
def decodeLent (inBase : Nat) (frame : List Byte) (outBase : Nat) (nOut : Word32) (c : BitVec 1) (s : State) :
    State :=
  decodeAccepted (recordFor 1#1 frame nOut c)
    (offered (recordFor 1#1 frame nOut c) (lentTo inBase frame outBase nOut.toNat s))

/-- What an accepted DECODE begins with. -/
theorem decodeBegins {r : CommandRecord} {s u : State}
    (hx : exec (decodeCommand r) s = .next u) (hop : r.op = 1#1) (hp : s.phase = .idle) :
    (r.nIn.toNat = 0 ∧ u = returnOk 0 (decodeAccepted r s)) ∨ (r.nIn.toNat ≠ 0 ∧ u = decodeAccepted r s) := by
  cases command_cases r hp with
  | refused _ hs => exact nomatch hx.symm.trans hs
  | decodeEmpty _ _ _ h0 hs => exact .inl ⟨h0, next_unique hx hs⟩
  | decodeStarts _ _ _ h0 hs => exact .inr ⟨h0, next_unique hx hs⟩
  | encodeEmpty hop' | encodeNoOut hop' | encodeStarts hop' => exact nomatch hop.symm.trans hop'

section SameDecode
variable {s s' t t' : State} (h : SameDecode s s')
include h

theorem SameDecode.outputIndex : s'.dec.outputIndex = s.dec.outputIndex := by
  simpa using congrArg List.length h.output

/-- The frame bytes left are the same. -/
theorem SameDecode.left_eq :
    s'.input.slice s'.dec.inputIndex (s'.nIn - s'.dec.inputIndex)
      = s.input.slice s.dec.inputIndex (s.nIn - s.dec.inputIndex) := by
  rw [h.inputIndex, h.nIn]
  exact Memory.slice_congr fun k hk => h.input _ (by omega)

/-- The same byte of the frame, as a number. -/
theorem SameDecode.byte_eq (a : Nat) (ha : a < s.nIn) : (s'.input.read a).toNat = (s.input.read a).toNat := by
  rw [h.input a ha]

theorem SameDecode.dataCorruption : DataCorruptionCause s' ↔ DataCorruptionCause s := by
  have h0 := h.byte_eq s.dec.inputIndex
  have h1 := h.byte_eq (s.dec.inputIndex + 1)
  have h2 := h.byte_eq (s.dec.inputIndex + 2)
  rw [dataCorruptionCause_decoding h.phase rfl rfl rfl, dataCorruptionCause_decoding h.phase' rfl rfl rfl,
    h.nIn, h.nOut, h.outputIndex, h.inputIndex]
  by_cases hin : s.dec.inputIndex + 1 < s.nIn
  · rw [h0 (by omega), h1 hin]
    by_cases hin2 : s.dec.inputIndex + 2 < s.nIn
    · rw [h2 hin2]
    · omega
  · by_cases hin0 : s.dec.inputIndex < s.nIn
    · rw [h0 hin0]
      omega
    · omega

theorem SameDecode.insufficientBuffer : InsufficientBufferCause s' ↔ InsufficientBufferCause s := by
  have h0 := h.byte_eq s.dec.inputIndex
  have h1 := h.byte_eq (s.dec.inputIndex + 1)
  rw [insufficientBufferCause_decoding h.phase rfl rfl, insufficientBufferCause_decoding h.phase' rfl rfl,
    h.nIn, h.nOut, h.outputIndex, h.inputIndex]
  by_cases hin : s.dec.inputIndex + 1 < s.nIn
  · rw [h0 (by omega), h1 hin]
  · omega

/-- Both run the record that the frame bytes left start with. -/
theorem SameDecode.record_eq {i i' : Instr} (hi : RecordRun s t i) (hi' : RecordRun s' t' i') : i' = i := by
  obtain ⟨rest, hdec⟩ := hi.decodeRecord_left
  obtain ⟨rest', hdec'⟩ := hi'.decodeRecord_left
  rw [h.left_eq, hdec] at hdec'
  exact (Prod.mk.inj (Except.ok.inj hdec')).1.symm

theorem SameDecode.next {i : Instr} (hst : step s = .next t) (hst' : step s' = .next t')
    (hi : RecordRun s t i) (hi' : RecordRun s' t' i) : PairStep SameDecode SameResult t t' := by
  have hp : t.phase = .decoding := hi.phase.trans h.phase
  have hp' : t'.phase = .decoding := hi'.phase.trans h.phase'
  obtain hidle | hrun := decode_ends_or_runs h.phase hst
  · exact nomatch hp.symm.trans hidle
  obtain hidle | hrun' := decode_ends_or_runs h.phase' hst'
  · exact nomatch hp'.symm.trans hidle
  refine .bothRun (by rw [hp]; decide) (by rw [hp']; decide)
    ⟨hp, hp', hrun.ranges, ?_, ?_, ?_, fun a ha => ?_, ?_⟩
  · rw [hrun'.nIn_eq, hrun.nIn_eq, h.nIn]
  · rw [hrun'.nOut_eq, hrun.nOut_eq, h.nOut]
  · rw [hi'.pointer, hi.pointer, h.inputIndex]
  · rw [hrun.nIn_eq] at ha
    rw [hi'.input, hi.input, h.input a ha]
  · have hexp := hi'.expands
    rw [h.output, hi.expands] at hexp
    exact (Option.some.inj hexp).symm

theorem SameDecode.frameEnd : SameResult (endOfFrame s) (endOfFrame s') := by
  have hresp : (endOfFrame s).response = (endOfFrame s').response := by
    rw [endOfFrame, endOfFrame, returnOk_eq, returnOk_eq, endCommand_response, endCommand_response,
      h.outputIndex]
  have hkept : (endOfFrame s).output.slice 0 s.dec.outputIndex = s.output.slice 0 s.dec.outputIndex :=
    Memory.slice_forget _ _ _ _ _ _ (by omega)
  have hkept' : (endOfFrame s').output.slice 0 s.dec.outputIndex = s'.output.slice 0 s'.dec.outputIndex := by
    rw [h.outputIndex]
    exact Memory.slice_forget _ _ _ _ _ _ (by rw [h.outputIndex]; omega)
  refine ⟨hresp, ?_⟩
  rw [endOfFrame_written h.ranges, hkept, hkept', h.output]

end SameDecode

theorem sameDecode_step (s s' t t' : State) (h : SameDecode s s') (hst : step s = .next t)
    (hst' : step s' = .next t') : PairStep SameDecode SameResult t t' := by
  have hc' := h.dataCorruption
  have hb' := h.insufficientBuffer
  cases decode_verdict h.phase hst with
  | corrupt u ht hc _ =>
    cases decode_verdict h.phase' hst' with
    | corrupt u' ht' => exact ht ▸ ht' ▸ .bothEnd rfl rfl ⟨rfl, rfl⟩
    | noRoom _ _ hn | noError _ hn => exact absurd (hc'.mpr hc) hn
  | noRoom u ht _ hb =>
    cases decode_verdict h.phase' hst' with
    | noRoom u' ht' => exact ht ▸ ht' ▸ .bothEnd rfl rfl ⟨rfl, rfl⟩
    | corrupt _ _ _ hn | noError _ _ hn => exact absurd (hb'.mpr hb) hn
  | noError hok hc hb =>
    have hok' : ∀ e, Ends s' t' e → e = .ok := by
      cases decode_verdict h.phase' hst' with
      | noError hok' => exact hok'
      | corrupt _ _ hn => exact absurd (hc'.mp hn) hc
      | noRoom _ _ _ hn => exact absurd (hb'.mp hn) hb
    have hrun := decode_result_of_ok h.phase hst hok
    have hrun' := decode_result_of_ok h.phase' hst' hok'
    have hin := h.inputIndex
    have hnIn := h.nIn
    rcases hrun with ⟨i, hi⟩ | ⟨hend, rfl⟩ <;> rcases hrun' with ⟨i', hi'⟩ | ⟨hend', rfl⟩
    · exact h.next hst hst' hi (h.record_eq hi hi' ▸ hi')
    · have := hi.more
      omega
    · have := hi'.more
      omega
    · exact .bothEnd rfl rfl h.frameEnd

/-! ### The whole command -/

/-- Two DECODEs of one frame into outputs of one size begin alike. -/
theorem sameDecode_begun {s s' : State} {frame : List Byte} {nOut : Word32} {c c' : BitVec 1}
    (inBase outBase inBase' outBase' : Nat) (hlen : frame.length ≤ Config.nMax) :
    SameDecode (decodeLent inBase frame outBase nOut c s) (decodeLent inBase' frame outBase' nOut c' s') where
  phase := rfl
  phase' := rfl
  ranges := ⟨Nat.zero_le _, Nat.zero_le _⟩
  nIn := rfl
  nOut := rfl
  inputIndex := rfl
  input := fun a ha => by
    have ha : a < (recordFor 1#1 frame nOut c).nIn.toNat := ha
    rw [recordFor_nIn hlen] at ha
    exact (Memory.read_ofBytes _ frame ha).trans (Memory.read_ofBytes _ frame ha).symm
  output := rfl

/-- Settles O45: two runs of DECODE over the same frame read the same records and produce the same bytes, to
their ends. -/
theorem decodeDependsOnFrameOnly : Obligations.DecodeDependsOnFrameOnly := by
  intro s s' s1 s1' t t' frame nOut c c' inBase outBase inBase' outBase' fuel fuel' hlen hlend hlend'
    hrun hrun' ht ht'
  obtain ⟨hp, rfl⟩ := hostLend_next hlend
  obtain ⟨hp', rfl⟩ := hostLend_next hlend'
  obtain ⟨u, hx, hrun⟩ := runCommand_next (s := lentTo inBase frame outBase nOut.toNat s)
    (r := recordFor 1#1 frame nOut c) hp hrun
  obtain ⟨u', hx', hrun'⟩ := runCommand_next (s := lentTo inBase' frame outBase' nOut.toNat s')
    (r := recordFor 1#1 frame nOut c') hp' hrun'
  obtain ⟨h0, hu⟩ | ⟨h0, hu⟩ := decodeBegins hx rfl hp <;>
    obtain ⟨h0', hu'⟩ | ⟨h0', hu'⟩ := decodeBegins hx' rfl hp'
  · subst hu hu'
    obtain rfl := runToIdle_of_idle rfl hrun
    obtain rfl := runToIdle_of_idle rfl hrun'
    exact ⟨rfl, rfl⟩
  · exact absurd h0 h0'
  · exact absurd h0' h0
  · subst hu hu'
    exact runToIdle_agree sameDecode_step (sameDecode_begun inBase outBase inBase' outBase' hlen) nofun nofun
      hrun hrun' ht ht'

end Sys2Proof.Safety
end

section
/-! PROOF. The records that complete, as instructions (41_decoder R104 to R107). -/

namespace Sys2Proof.Machine

open Sys2Proof.Safety

/-- Settles O10: with room and payload the tests of LIT pass and its copy is made. -/
theorem litCopiesLiterals : Obligations.LitCopiesLiterals := by
  intro ls s hwf hroom hinput
  obtain ⟨h1, h32⟩ := (wellFormed_lit ls).mp hwf
  obtain ⟨m, hst, hbytes, hothers, -⟩ := execLit_ok hroom hinput
  refine ⟨_, hst, rfl, ?_, hbytes, hothers⟩
  rw [control_lit ls h1 h32]
  rfl

/-! ### Back-references -/

theorem offLo_eq_ofNat (off : Off) : offLo off = BitVec.ofNat 8 off.toNat := by
  apply BitVec.eq_of_toNat_eq
  rw [offLo_toNat, BitVec.toNat_ofNat]

/-- The distance that a control byte and its offset byte encode (30_encoding R55). -/
theorem distanceOf_ctrlByte (c : BitVec 3) (off : Off) :
    distanceOf (ctrlByte c (offHi off)) (offLo off) = off.toNat + 1 := by
  unfold distanceOf
  rw [← ctrlLow_toNat, ctrlLow_ctrlByte, offHi_toNat, offLo_toNat]
  omega

theorem ctrlByte_class (c : BitVec 3) (low : BitVec 5) : (ctrlByte c low).toNat / 32 = c.toNat := by
  rw [← ctrlClass_toNat, ctrlClass_ctrlByte]

/-- A short back-reference runs the common copy at its class. -/
theorem exec_shortRef {l : BitVec 3} (off : Off) (h1 : 1 ≤ l.toNat) (h6 : l.toNat ≤ 6) (s : State) :
    exec (shortRef l off) s = (runShortRef (ctrlByte l (offHi off)) (offLo off) s).outcome
      ∧ (shortRef l off).control = ctrlByte l (offHi off) := by
  rcases shortClass_cases l h1 h6 with rfl | rfl | rfl | rfl | rfl | rfl <;> exact ⟨rfl, rfl⟩

/-- The six forms with their totals are `shortRef` at the classes 1 to 6. -/
theorem exists_shortRef_of_total {i : Instr} {total : Nat} {off : Off}
    (hi : (i, total) ∈ [(Instr.ref3 off, 3), (.ref4 off, 4), (.ref5 off, 5), (.ref6 off, 6), (.ref7 off, 7),
      (.ref8 off, 8)]) :
    ∃ l : BitVec 3, 1 ≤ l.toNat ∧ l.toNat ≤ 6 ∧ i = shortRef l off ∧ total = l.toNat + 2 := by
  simp only [List.mem_cons, List.not_mem_nil, or_false, Prod.mk.injEq] at hi
  rcases hi with ⟨rfl, rfl⟩ | ⟨rfl, rfl⟩ | ⟨rfl, rfl⟩ | ⟨rfl, rfl⟩ | ⟨rfl, rfl⟩ | ⟨rfl, rfl⟩
  · exact ⟨1#3, by decide, by decide, rfl, rfl⟩
  · exact ⟨2#3, by decide, by decide, rfl, rfl⟩
  · exact ⟨3#3, by decide, by decide, rfl, rfl⟩
  · exact ⟨4#3, by decide, by decide, rfl, rfl⟩
  · exact ⟨5#3, by decide, by decide, rfl, rfl⟩
  · exact ⟨6#3, by decide, by decide, rfl, rfl⟩

/-- The source of a match that lies in the output starts at a natural address. -/
theorem source_eq {out dist : Nat} (h : dist ≤ out) : (out : Int) - (dist : Nat) = (out - dist : Nat) := by
  omega

/-- Settles O11: the tests of a short back-reference pass, and its match is copied. -/
theorem shortRefsCopyMatch : Obligations.ShortRefsCopyMatch := by
  intro off s total i hi hinput hroom hsrc
  obtain ⟨l, h1, h6, rfl, rfl⟩ := exists_shortRef_of_total hi
  obtain ⟨hx, hctrl⟩ := exec_shortRef off h1 h6 s
  obtain ⟨-, -, -, hcopy⟩ := runShortRef_spec (ctrlByte l (offHi off)) (offLo off) s
  rw [distanceOf_ctrlByte, ctrlByte_class] at hcopy
  obtain ⟨m, hm, hrun⟩ := hcopy hinput hroom hsrc
  obtain ⟨hframe, hdec, hbytes, -, hothers⟩ :=
    afterRef_effect (u := shortTaken (ctrlByte l (offHi off)) (offLo off) s) hm (Nat.succ_pos _) hsrc rfl
      (by rw [shortTaken_dec]) (by rw [shortTaken_dec, ctrlByte_class])
  refine ⟨_, by rw [hx, hrun, outcome_ok], hframe, ?_, hbytes, hothers⟩
  rw [hdec, shortTaken_dec, hctrl, ctrlByte_class, distanceOf_ctrlByte, source_eq hsrc, offLo_eq_ofNat,
    Nat.add_sub_cancel]

/-- Settles O12: the tests of a long back-reference pass, and its match is copied. -/
theorem refxCopiesMatch : Obligations.RefxCopiesMatch := by
  intro off ext s hinput hroom hsrc
  have hclass : (Instr.refx off ext).control.toNat / 32 = 7 := ctrlByte_class 7#3 (offHi off)
  have hdist : distanceOf (Instr.refx off ext).control (offLo off) = off.toNat + 1 :=
    distanceOf_ctrlByte 7#3 off
  have htotal : 7 + ext.toNat + 2 = ext.toNat + 9 := by omega
  obtain ⟨-, -, hcopy⟩ := copyMatch_long (Instr.refx off ext).control ext (offLo off) s
  rw [hdist, hclass, htotal] at hcopy
  obtain ⟨m, hm, hrun⟩ := hcopy hroom hsrc
  obtain ⟨hframe, hdec, hbytes, -, hothers⟩ :=
    afterRef_effect (u := longTaken (Instr.refx off ext).control ext (offLo off) s) hm (Nat.succ_pos _) hsrc rfl
      (by rw [longTaken_dec]) (by rw [longTaken_dec, hclass, htotal])
  refine ⟨_, (execRefx_run off ext s hinput).trans (by rw [hrun, outcome_ok]), hframe, ?_, hbytes, hothers⟩
  rw [hdec, longTaken_dec, hclass, hdist, htotal, source_eq hsrc, offLo_eq_ofNat]

end Sys2Proof.Machine
end

section
/-! PROOF. What no step touches: IN (10_state R11), the response before the end (42_commands R124), the record
and the regions of a running command (10_state R22, R24). -/

namespace Sys2Proof.Machine

open Sys2Proof.Safety

/-- A step of ENCODE from any state at all. -/
theorem encode_step_keeps {s t : State} (hp : s.phase = .encoding) (hst : step s = .next t) :
    EncodeKeeps s t :=
  encodeStep_keeps (step_encoding hp ▸ hst)

/-- A step of DECODE from any state at all. -/
theorem decode_step_keeps {s t : State} (hp : s.phase = .decoding) (hst : step s = .next t) :
    DecodeKeeps s t := by
  by_cases h : s.dec.inputIndex < s.nIn
  · rw [step_record hp h] at hst
    cases hd : decodeRecord (s.input.slice s.dec.inputIndex (s.nIn - s.dec.inputIndex)) with
    | ok v =>
      obtain ⟨i, rest⟩ := v
      rw [hd] at hst
      obtain ⟨hi, -, -⟩ := encodeInvertsDecode _ _ _ hd
      exact execRecord_keeps hi hst
    | error r =>
      rw [hd] at hst
      exact Run.leaves_outcome (runTruncated_dec r s) hst
  · obtain rfl := next_unique hst (step_frameEnd hp (Nat.not_lt.mp h))
    exact decodeKeeps_end ..

/-- A step of an idle block leaves IN and, unless it starts a command, ends idle. -/
theorem idle_step_keeps {s t : State} (hp : s.phase = .idle) (hst : step s = .next t) :
    t.input = s.input ∧ (t.phase ≠ .idle → t.response = s.response) := by
  cases hr : s.presented with
  | none =>
    obtain rfl := next_unique hst (step_idle_wait hp hr)
    exact ⟨rfl, fun _ => rfl⟩
  | some r =>
    rw [step_idle_run hp hr] at hst
    cases command_cases r hp with
    | refused f hs => exact nomatch hst.symm.trans hs
    | encodeEmpty _ _ _ _ hs | encodeNoOut _ _ _ _ _ hs | decodeEmpty _ _ _ _ hs =>
      obtain rfl := next_unique hst hs
      exact ⟨rfl, fun h => absurd rfl h⟩
    | encodeStarts _ _ _ _ _ hs | decodeStarts _ _ _ _ hs =>
      obtain rfl := next_unique hst hs
      exact ⟨rfl, fun _ => rfl⟩

/-- Settles O37: no operation of any phase writes IN. -/
theorem inputNeverWritten : Obligations.InputNeverWritten := by
  intro s t hst
  cases hp : s.phase with
  | idle => exact (idle_step_keeps hp hst).1
  | encoding => exact (encode_step_keeps hp hst).input
  | decoding => exact (decode_step_keeps hp hst).input

/-- Settles O39: what a step keeps while the command goes on. -/
theorem responseStaysUntilEnd : Obligations.ResponseStaysUntilEnd := by
  intro s t hst ht
  cases hp : s.phase with
  | idle => exact (idle_step_keeps hp hst).2 ht
  | encoding => exact ((encode_step_keeps hp hst).phase.resolve_left ht).2
  | decoding => exact ((decode_step_keeps hp hst).phase.resolve_left ht).2

/-- Settles O40: what a step of ENCODE and a step of DECODE keep. -/
theorem runningCommandKeepsRecord : Obligations.RunningCommandKeepsRecord := by
  intro s t hbusy hst
  cases hp : s.phase with
  | idle => exact absurd hp hbusy
  | encoding =>
    obtain ⟨-, hdec, hcmd, hpres, hin, hout, hphase⟩ := encode_step_keeps hp hst
    exact ⟨hcmd, hin, hout, hpres, hphase.symm.imp_left fun h => h.1.trans hp, fun _ => hdec, nofun⟩
  | decoding =>
    obtain ⟨-, -, henc, hcmd, hpres, hin, hout, hphase⟩ := decode_step_keeps hp hst
    exact ⟨hcmd, hin, hout, hpres, hphase.symm.imp_left fun h => h.1.trans hp, nofun, fun _ => henc⟩

end Sys2Proof.Machine
end

section
/-! PROOF. The step and what it runs (41_decoder section 2, 42_commands section 1), the hash slot of a wide
register (40_encoder R75), reset, the codes of the statuses, the moves of the host. -/

namespace Sys2Proof.Machine

open Sys2Proof.Safety

/-! ### The hash slot -/

/-- Settles O7: both sides are one integer modulo 16384, in which the bits from 24 up cancel. -/
theorem wideHashRegisterSameSlot : Obligations.WideHashRegisterSameSlot := by
  intro H
  apply BitVec.eq_of_toNat_eq
  have hslot := hashSlot_toNat (H.setWidth 24)
  have hhigh : H.toNat / 1024 = H.toNat / 2 ^ 24 * 16384 + H.toNat % 2 ^ 24 / 1024 := by omega
  rw [BitVec.toNat_setWidth] at hslot
  rw [BitVec.toNat_setWidth, BitVec.toNat_sub, BitVec.toNat_mul, BitVec.toNat_ushiftRight,
    Nat.shiftRight_eq_div_pow]
  have h5 : (5#32).toNat = 5 := rfl
  rw [h5]
  omega

/-! ### The step -/

theorem step_of_decodeRecord {s : State} {i : Instr} {rest : List Byte} (hp : s.phase = .decoding)
    (h : s.dec.inputIndex < s.nIn)
    (hd : decodeRecord (s.input.slice s.dec.inputIndex (s.nIn - s.dec.inputIndex)) = .ok (i, rest)) :
    step s = exec i s := by
  rw [step_record hp h, hd]

/-- Settles O8: the step in DECODING, in IDLE with a command, and in IDLE without one. -/
theorem stepRunsDecodedInstruction : Obligations.StepRunsDecodedInstruction := by
  refine ⟨fun s i rest hp h hd => ⟨?_, step_of_decodeRecord hp h hd⟩, fun s r => step_idle_run,
    fun s => step_idle_wait⟩
  obtain ⟨-, hwf, -⟩ := encodeInvertsDecode _ _ _ hd
  exact hwf

/-- The frame put where the machine fetches is what it fetches. -/
theorem step_placeFrame {bytes rest : List Byte} {i : Instr} {s : State} (hpos : 0 < bytes.length)
    (hlen : bytes.length < 2 ^ 32) (hd : decodeRecord bytes = .ok (i, rest)) :
    step (placeFrame bytes s) = exec i (placeFrame bytes s) := by
  have hnIn : (placeFrame bytes s).nIn = bytes.length := by
    show (BitVec.ofNat 32 bytes.length).toNat = bytes.length
    rw [BitVec.toNat_ofNat, Nat.mod_eq_of_lt hlen]
  refine step_of_decodeRecord (rest := rest) rfl (hnIn ▸ hpos) ?_
  rw [hnIn]
  show decodeRecord ((Memory.ofBytes s.input.base bytes).slice 0 bytes.length) = _
  rw [Memory.slice_ofBytes, hd]

theorem bytesOfWord_length (n w : Nat) : (bytesOfWord n w).length = n := by
  rw [bytesOfWord, List.length_map, List.length_range]

/-- Settles O9: a command word is presented, any other word is the frame of a running DECODE. -/
theorem fetchWordRuns : Obligations.FetchWordRuns := by
  intro s nbits w i hi
  unfold State.withFetchWord placeWord
  unfold decodeTableWord at hi
  by_cases hcmd : isCommandWord nbits w = true
  · rw [if_pos hcmd] at hi ⊢
    rw [← Option.some.inj hi]
    exact step_idle_run rfl rfl
  · rw [if_neg hcmd] at hi ⊢
    have hlen := bytesOfWord_length longestRecord (w % 2 ^ nbits)
    split at hi
    next j rest hd =>
      obtain rfl := Option.some.inj hi
      exact step_placeFrame (by rw [hlen]; decide) (by rw [hlen]; decide) hd
    next => nomatch hi

/-! ### Reset -/

/-- Settles O49: by the definition of the reset state, whose table lists no entry. -/
theorem resetValues : Obligations.ResetValues :=
  ⟨rfl, rfl, rfl, rfl, fun _ => ⟨2, rfl⟩⟩

/-- Settles O50: reset forgets the table and, while a command runs, all of OUT. -/
theorem resetAbandonsCommand : Obligations.ResetAbandonsCommand := by
  intro s hbusy
  have hout : (hostReset s).output = s.output.forget 0 s.nOut s.freeCount := if_neg hbusy
  refine ⟨rfl, rfl, rfl, fun _ => rfl, fun a ha => ?_, fun a ha => ?_, rfl⟩
  · rw [hout, Memory.read_forget, if_pos ⟨Nat.zero_le a, ha⟩]
  · rw [hout, Memory.read_forget_of_ge _ ha]

/-! ### The codes of the statuses -/

theorem code_ofCode (code : BitVec 2) : (Status.ofCode code).code = code := by
  revert code
  decide

/-- Settles O51: each status and each code in turn. -/
theorem statusCodes : Obligations.StatusCodes := by
  refine ⟨rfl, rfl, rfl, rfl, fun st => ?_, code_ofCode⟩
  cases st <;> rfl

/-! ### The host -/

theorem hostReadOut_of_idle {s : State} (hp : s.phase = .idle) (a : Nat) :
    hostReadOut a s = .ok (if s.response.status = .ok ∧ a < s.response.written.toNat
      then some (s.output.read a) else none) :=
  if_pos hp

/-- Settles O52: both moves test the phase first, and the read then tests the response. -/
theorem hostMovesOnlyWhenIdle : Obligations.HostMovesOnlyWhenIdle := by
  refine ⟨fun s inBase outBase extent a bytes hbusy => ⟨if_neg hbusy, if_neg hbusy⟩,
    fun s a hp => ⟨fun hok hlt => ?_, fun hno => ?_⟩⟩
  · rw [hostReadOut_of_idle hp, if_pos ⟨hok, hlt⟩]
  · rw [hostReadOut_of_idle hp, if_neg fun ⟨hok, hlt⟩ => hno.elim (· hok) (Nat.not_le.mpr hlt)]

end Sys2Proof.Machine
end
